-- ==== Sys2Proof/Word.lean ====
section
/-! DEFINITION. The two bit-vector types of the block: a 32-bit register and a byte of memory (R30, R80). -/

namespace Sys2Proof

/-- A 32-bit register or command word (R30, R110). -/
abbrev Word := BitVec 32

/-- A byte of system memory or one palette channel (R80, R38). -/
abbrev Byte := BitVec 8

end Sys2Proof
end

