-- ==== Sys2Proof/Config.lean ====
section
/-! DEFINITION. What an implementation fixes (the OPEN parameters of spec/00_scope.md section 5) and the free values:
opaque constants without a body, so that no proof can see what they are. -/

namespace Sys2Proof

/-- R251: the four sections, in the order of their codes 0 to 3. -/
inductive Section where
  | farNorth | nearNorth | nearSouth | farSouth
  deriving DecidableEq, Repr

/-- R259: the two mirrored half-globes. -/
inductive Half where
  | upper | lower
  deriving DecidableEq, Repr

/-- R259: the two mirrored columns of one iteration. -/
inductive Side where
  | left | right
  deriving DecidableEq, Repr

/-- R39, R250: one entry of the rotation table. -/
structure RotEntry where
  start : BitVec 16
  len : BitVec 16
  phase : BitVec 32
  deriving DecidableEq, Repr

/-- R261: the nine arguments of GLOBE_OFFSET. -/
structure MapQuery where
  sec : Section
  lat : Nat
  col : Nat
  row : Nat
  half : Half
  side : Side
  /-- the row selector `rs` -/
  rowSel : Nat
  /-- the signed shading delta `sd` -/
  delta : Int
  /-- the rotation entry `E` -/
  entry : RotEntry
  deriving DecidableEq, Repr

/-- MEM_SIZE is this plus 1, so 1 ≤ MEM_SIZE ≤ 2^32 (R80, spec/92_eei_decisions.md, open parameters). -/
opaque Config.memTop : Word
/-- REG_BASE is 256 times this: the window is 256-byte aligned (R30, spec/92_eei_decisions.md, open parameters). -/
opaque Config.regBasePage : Nat
/-- GLOBE_COLLIST_OFF (D42). -/
opaque Config.globeCollistOff : Nat
/-- GLOBE_FLAG_SHIFT is this cut to 0 to 6 (D42). -/
opaque Config.globeFlagShiftRaw : Nat
/-- GLOBE_FLAG_PATTERN, 0 to 3 (D42). -/
opaque Config.globeFlagPattern : BitVec 2
/-- GLOBE_BANK, 0 to 255 (D42). -/
opaque Config.globeBank : Byte
/-- GLOBE_AUX_RS (column, latitude): the row selector's byte offset in the elevation resource (D42). -/
opaque Config.globeAuxRs : Nat → Nat → Nat
/-- GLOBE_AUX_SD (column, latitude): the shading delta's byte offset in the elevation resource (D42). -/
opaque Config.globeAuxSd : Nat → Nat → Nat
/-- GLOBE_OFFSET: the signed map-table offset before the conditional add (D42). -/
opaque Config.globeOffset : MapQuery → Int
/-- CMD_LATENCY, in host turns, of the command whose start draws this number (R370; log 2). -/
opaque Config.cmdLatency : Nat → Nat
/-- How many of its writes an aborted command had made (R362, spec/93_implementation_defined.md section 3; log 11). -/
opaque Config.abortPrefix : Nat → Nat
/-- The unspecified value a contested byte holds or reads as (R86; log 10). -/
opaque Config.contestedByte : Nat → Byte
/-- The unspecified value of palette channel 0, 1 or 2 of an entry after a power-on reset (R38, R41; log 6):
arguments epoch, entry key, channel. -/
opaque Config.palPowerOn : Nat → Nat → Nat → Byte
/-- The unspecified `.start` of a rotation entry after a power-on reset (R39, R41; log 7): arguments epoch, index. -/
opaque Config.rotStartPowerOn : Nat → Nat → BitVec 16
/-- The unspecified `.len` of a rotation entry after a power-on reset (R39, R41; log 7). -/
opaque Config.rotLenPowerOn : Nat → Nat → BitVec 16
/-- The unspecified phase that ComputePhases gives an entry whose `.len` was never written (R257; log 31): arguments the
number drawn for that computation, index. -/
opaque Config.unwrittenLenPhase : Nat → Nat → BitVec 32
/-- The unspecified `.phase` of a rotation entry after a power-on reset (R39, R41; log 7). -/
opaque Config.rotPhasePowerOn : Nat → Nat → BitVec 32

end Sys2Proof
end

