-- ==== Sys2Proof/Syntax.lean ====
section
/-! DEFINITION. The commands of the block, one constructor per row of spec/opcode_table.json (R111), and the raw
command word (R110). A command has no operand field: every operand is a parameter register (R110). -/

namespace Sys2Proof

/-- The 20 commands of R111, in the table's order. -/
inductive Instr where
  | nop
  | hsqProbe
  | hsqDecompress
  | palApply
  | palRead
  | palWrite
  | palDisplay
  | palCopy
  | palLerp
  | palExport
  | sprHeader
  | surfClear
  | imapClear
  | rleDecode
  | blit
  | rotWrite
  | rotRead
  | tiltRead
  | globePhase
  | globeDraw
  deriving DecidableEq, Repr

/-- A command word split into its two fields (R110). -/
structure CmdWord where
  /-- CMD[7:0], the opcode. -/
  op : BitVec 8
  /-- CMD[31:8], which must be 0. -/
  rsvd : BitVec 24
  deriving DecidableEq, Repr

end Sys2Proof
end

