-- ==== Sys2Proof/Machine/State.lean ====
section
/-! DEFINITION. The state of the block (R6): the register file, the internal RAMs, the engine's phase and system memory,
as plain data; the inputs the host makes; why the model stops; and the state right after power-on reset (R361). -/

namespace Sys2Proof.Machine

/-- System memory (R80): the bytes that do not read as an unlisted byte does, by address. -/
abbrev Memory := List Host.Cell

/-- R38: one palette entry, three 8-bit channels. -/
structure Rgb where
  r : Byte
  g : Byte
  b : Byte
  deriving DecidableEq, Repr

/-- R33: the 31 parameter registers, offsets 0x020 to 0x0A4. The snapshot of R37 is one of these. -/
structure Params where
  srcAddr : Word
  srcLen : Word
  dstAddr : Word
  dstLen : Word
  scratchAddr : Word
  surfBase : Word
  surfDim : Word
  imapBase : Word
  clearVal : Word
  blitPos : Word
  blitSize : Word
  blitCfg : Word
  clipX : Word
  clipY : Word
  objId : Word
  palSel : Word
  palIndex : Word
  palData : Word
  lerpA : Word
  lerpB : Word
  lerpDiv : Word
  globeRot : Word
  globeTilt : Word
  globeElevAddr : Word
  globeElevLen : Word
  globeMapAddr : Word
  globeMapLen : Word
  globeCenter : Word
  rotIndex : Word
  rotData : Word
  tiltIndex : Word
  deriving DecidableEq, Repr

/-- R33, R361: every parameter register at its reset value. -/
def Params.zero : Params where
  srcAddr := 0
  srcLen := 0
  dstAddr := 0
  dstLen := 0
  scratchAddr := 0
  surfBase := 0
  surfDim := 0
  imapBase := 0
  clearVal := 0
  blitPos := 0
  blitSize := 0
  blitCfg := 0
  clipX := 0
  clipY := 0
  objId := 0
  palSel := 0
  palIndex := 0
  palData := 0
  lerpA := 0
  lerpB := 0
  lerpDiv := 0
  globeRot := 0
  globeTilt := 0
  globeElevAddr := 0
  globeElevLen := 0
  globeMapAddr := 0
  globeMapLen := 0
  globeCenter := 0
  rotIndex := 0
  rotData := 0
  tiltIndex := 0

/-- R35: the stored flags of STATUS and its ERRCODE. BUSY is not stored: it is 1 exactly when the phase is RUNNING
(R42). -/
structure Status where
  done : Bool
  err : Bool
  ovr : Bool
  compressed : Bool
  valid : Bool
  errcode : BitVec 8
  deriving DecidableEq, Repr

/-- R33, R361: STATUS at reset. -/
def Status.zero : Status :=
  { done := false, err := false, ovr := false, compressed := false, valid := false, errcode := 0 }

/-- R92: the regions of system memory a command may read and write, each a base address and a length. -/
structure Footprint where
  reads : List (Nat × Nat)
  writes : List (Nat × Nat)
  deriving DecidableEq, Repr

/-- R42: what RUNNING(op, snapshot) holds, with the model's own record of R370 and R86. -/
structure Running where
  /-- the command word -/
  cmd : Word
  /-- the parameter snapshot (R37) -/
  snap : Params
  /-- ERR_INFO as it stood before the start, which the host still reads (R86, log 4) -/
  heldInfo : Word
  /-- the host turns left before the engine's transition (log 2) -/
  latency : Nat
  /-- the regions of R92, fixed at the command's start (log 10) -/
  foot : Footprint
  /-- the bytes the host touched against R86 since the start (log 10) -/
  contested : List Nat
  deriving DecidableEq, Repr

/-- R42: the engine's phase. -/
inductive Phase where
  | idle
  | running (r : Running)
  deriving DecidableEq, Repr

/-- The OPEN parameters of spec/00_scope.md section 5 that are plain data (log 8). No step changes them. -/
structure Platform where
  /-- REG_BASE -/
  regBase : Nat
  /-- MEM_SIZE -/
  memSize : Nat
  /-- GLOBE_COLLIST_OFF -/
  collistOff : Nat
  /-- GLOBE_FLAG_SHIFT -/
  flagShift : Fin 7
  /-- GLOBE_FLAG_PATTERN -/
  flagPattern : BitVec 2
  /-- GLOBE_BANK -/
  globeBank : Byte
  deriving DecidableEq, Repr

/-- What the host and the platform do to the block, one access at a time (R6, R32, R360). -/
inductive Input where
  /-- a host read of `width` bytes at bus address `addr` -/
  | read (addr width : Nat)
  /-- a host write of `width` bytes at bus address `addr` -/
  | write (addr width : Nat) (v : Word)
  /-- a host read of one byte of system memory -/
  | memRead (a : Nat)
  /-- a host write of one byte of system memory -/
  | memWrite (a : Nat) (v : Byte)
  /-- R124 `wait`: repeat a read of STATUS until BUSY = 0 -/
  | wait
  /-- R360: the platform asserts power-on reset -/
  | powerOn
  deriving DecidableEq, Repr

/-- The whole machine (R6). -/
structure State where
  /-- the OPEN parameters (constants) -/
  plat : Platform
  /-- the accesses still to come (the model's own, log 1) -/
  inbox : List Input
  /-- what the last host read returned (the model's own, log 16) -/
  busData : Word
  /-- CMD (R34) -/
  cmd : Word
  /-- STATUS but for BUSY (R35) -/
  status : Status
  /-- IRQ_EN.DONE_IE -/
  doneIe : Bool
  /-- IRQ_EN.ERR_IE -/
  errIe : Bool
  /-- ERR_INFO -/
  errInfo : Word
  /-- RESULT0 -/
  result0 : Word
  /-- RESULT1 -/
  result1 : Word
  /-- the parameter registers (R33) -/
  params : Params
  /-- palette RAM: the entries written since power-on, by key (R38, log 6) -/
  pal : List (Nat × Rgb)
  /-- rotation-table RAM: the `.start` written since power-on, by index (R39, log 7) -/
  rotStart : List (Nat × BitVec 16)
  /-- rotation-table RAM: the `.len` written since power-on, by index (R39, log 7) -/
  rotLen : List (Nat × BitVec 16)
  /-- rotation-table RAM: the `.phase` written since power-on, by index (R39, log 7) -/
  rotPhase : List (Nat × Word)
  /-- the engine's phase (R42) -/
  phase : Phase
  /-- system memory (R80) -/
  mem : Memory
  /-- how many free values have been drawn (the model's own, log 17) -/
  draws : Nat
  /-- how many power-on resets there have been since `State.reset` (the model's own, log 17) -/
  epoch : Nat
  deriving DecidableEq, Repr

/-- Why the model stops. -/
inductive Fault where
  /-- A host access of its own to system memory named the address `a`, which does not exist (R80: bytes 0 to
  MEM_SIZE - 1 exist). Raised by the host's memory inputs only, never by a command (a command raises BUS_ERROR and goes
  on). Safe: the model stops where the spec says nothing. -/
  | noSuchMemory (a : Nat)
  deriving DecidableEq, Repr

/-- Why an instruction has no meaning. -/
inductive Refusal where
  /-- An arm of `exec` whose instruction is not modelled. Raised by no arm now: every command has its meaning. Safe. -/
  | notModelled (mnemonic : String)
  deriving DecidableEq, Repr

/-- The platform of `State.reset`: every OPEN parameter is a free constant (log 8). -/
def Platform.free : Platform where
  regBase := 256 * Config.regBasePage
  memSize := Config.memTop.toNat + 1
  collistOff := Config.globeCollistOff
  flagShift := ⟨min Config.globeFlagShiftRaw 6, by omega⟩
  flagPattern := Config.globeFlagPattern
  globeBank := Config.globeBank

/-- R361: the machine right after power-on reset. The RAM tables list nothing, so every entry holds its unspecified
power-on value (R41); memory lists nothing (log 5); no access stands before the block (log 1). -/
def State.reset : State where
  plat := Platform.free
  inbox := []
  busData := 0
  cmd := 0
  status := Status.zero
  doneIe := false
  errIe := false
  errInfo := 0
  result0 := 0
  result1 := 0
  params := Params.zero
  pal := []
  rotStart := []
  rotLen := []
  rotPhase := []
  phase := .idle
  mem := []
  draws := 0
  epoch := 0

end Sys2Proof.Machine
end

