-- ==== Sys2Proof/Machine/Operands.lean ====
section
/-! DEFINITION. Bit fields, sign extension and byte order (R7, R8, R83), and every operand field a command reads from its
parameter snapshot (R114), as the mathematical integers of R8. -/

namespace Sys2Proof.Machine

/-- R7: `v[hi:lo]`, the unsigned value of bits hi down to lo. -/
def bits {n : Nat} (v : BitVec n) (hi lo : Nat) : Nat := (v.toNat >>> lo) % 2 ^ (hi + 1 - lo)

/-- R7: `v[i]` as a truth value. -/
def bitSet {n : Nat} (v : BitVec n) (i : Nat) : Bool := v.toNat.testBit i

/-- R8: `sext_N(v)` of an N-bit field. -/
def sext (n v : Nat) : Int := if v.testBit (n - 1) then (v : Int) - 2 ^ n else v

/-- R8: `LE16`. -/
def le16 (b0 b1 : Byte) : Nat := b0.toNat + 256 * b1.toNat

/-- R8: `LE24`. -/
def le24 (b0 b1 b2 : Byte) : Nat := b0.toNat + 256 * b1.toNat + 65536 * b2.toNat

/-- A result word: the low 32 bits of an integer of the pseudocode (R8). -/
def word (n : Nat) : Word := BitVec.ofNat 32 n

/-- R114 (c): a packed colour, r at bits 7:0, g at 15:8, b at 23:16, bits 31:24 zero. -/
def packColour (c : Rgb) : Word := word (c.r.toNat + (c.g.toNat <<< 8) + (c.b.toNat <<< 16))

/-- R114 (c): the colour of a packed register; bits 31:24 are ignored. -/
def unpackColour (v : Word) : Rgb :=
  { r := BitVec.ofNat 8 (bits v 7 0), g := BitVec.ofNat 8 (bits v 15 8), b := BitVec.ofNat 8 (bits v 23 16) }

/-- SURF_DIM.W -/
def Params.surfW (p : Params) : Nat := bits p.surfDim 15 0
/-- SURF_DIM.H -/
def Params.surfH (p : Params) : Nat := bits p.surfDim 31 16
/-- CLEAR_VAL.VAL -/
def Params.clearByte (p : Params) : Byte := BitVec.ofNat 8 (bits p.clearVal 7 0)
/-- BLIT_POS.X, signed -/
def Params.blitX (p : Params) : Int := sext 16 (bits p.blitPos 15 0)
/-- BLIT_POS.Y, signed -/
def Params.blitY (p : Params) : Int := sext 16 (bits p.blitPos 31 16)
/-- BLIT_SIZE.WIDTH -/
def Params.blitW (p : Params) : Nat := bits p.blitSize 15 0
/-- BLIT_SIZE.HEIGHT -/
def Params.blitH (p : Params) : Nat := bits p.blitSize 31 16
/-- BLIT_CFG.RLE -/
def Params.rle (p : Params) : Bool := bitSet p.blitCfg 0
/-- BLIT_CFG.FLIPX -/
def Params.flipX (p : Params) : Bool := bitSet p.blitCfg 1
/-- BLIT_CFG.FLIPY -/
def Params.flipY (p : Params) : Bool := bitSet p.blitCfg 2
/-- BLIT_CFG.SCALE -/
def Params.scale (p : Params) : Nat := bits p.blitCfg 5 3
/-- BLIT_CFG.CLIP_EN -/
def Params.clipEn (p : Params) : Bool := bitSet p.blitCfg 6
/-- BLIT_CFG.IMAP_EN -/
def Params.imapEn (p : Params) : Bool := bitSet p.blitCfg 7
/-- BLIT_CFG.PALMODE -/
def Params.palMode (p : Params) : Nat := bits p.blitCfg 15 8
/-- CLIP_X.X0, signed -/
def Params.clipX0 (p : Params) : Int := sext 16 (bits p.clipX 15 0)
/-- CLIP_X.X1, signed -/
def Params.clipX1 (p : Params) : Int := sext 16 (bits p.clipX 31 16)
/-- CLIP_Y.Y0, signed -/
def Params.clipY0 (p : Params) : Int := sext 16 (bits p.clipY 15 0)
/-- CLIP_Y.Y1, signed -/
def Params.clipY1 (p : Params) : Int := sext 16 (bits p.clipY 31 16)
/-- OBJ_ID.ID -/
def Params.objIdNat (p : Params) : Nat := bits p.objId 15 0
/-- PAL_SEL.BANK -/
def Params.bank (p : Params) : Nat := bits p.palSel 0 0
/-- PAL_SEL.SRC_BANK -/
def Params.srcBank (p : Params) : Nat := bits p.palSel 8 8
/-- PAL_INDEX.INDEX -/
def Params.palIdx (p : Params) : Nat := bits p.palIndex 7 0
/-- LERP_DIV.DIV, signed -/
def Params.lerpD (p : Params) : Int := sext 16 (bits p.lerpDiv 15 0)
/-- GLOBE_ROT.ROT -/
def Params.rot (p : Params) : Nat := bits p.globeRot 15 0
/-- GLOBE_TILT.TILT, signed -/
def Params.tiltRaw (p : Params) : Int := sext 16 (bits p.globeTilt 15 0)
/-- GLOBE_CENTER.CX, signed -/
def Params.centerX (p : Params) : Int := sext 16 (bits p.globeCenter 15 0)
/-- GLOBE_CENTER.CY, signed -/
def Params.centerY (p : Params) : Int := sext 16 (bits p.globeCenter 31 16)
/-- ROT_INDEX.INDEX -/
def Params.rotIdx (p : Params) : Nat := bits p.rotIndex 6 0
/-- ROT_DATA.START -/
def Params.rotStart (p : Params) : BitVec 16 := BitVec.ofNat 16 (bits p.rotData 15 0)
/-- ROT_DATA.LEN -/
def Params.rotLen (p : Params) : BitVec 16 := BitVec.ofNat 16 (bits p.rotData 31 16)
/-- TILT_INDEX.INDEX -/
def Params.tiltIdx (p : Params) : Nat := bits p.tiltIndex 8 0

/-- R230: the sprite is 8bpp. -/
def Params.bpp8 (p : Params) : Bool := 254 ≤ p.palMode

/-- R230: the row pitch of a sprite of width `w`. -/
def pitch (bpp8 : Bool) (w : Nat) : Nat := if bpp8 then w else 2 * ((w + 3) / 4)

/-- R230: the row pitch of the snapshot's sprite. -/
def Params.pitch (p : Params) : Nat := Machine.pitch p.bpp8 p.blitW

end Sys2Proof.Machine
end

