-- ==== Sys2Proof/Machine/Flags.lean ====
section
/-! DEFINITION. STATUS and the interrupt line: the word the host reads (R33, R35), the write-one-to-clear rule (R32 (e),
R338), IRQ (R44, R337), and what a command's end does to the flags (R330, R334). -/

namespace Sys2Proof.Machine

/-- R42: STATUS.BUSY, 1 exactly when the phase is RUNNING. -/
def State.busy (s : State) : Bool :=
  match s.phase with
  | .idle => false
  | .running _ => true

/-- R33: the STATUS register as the host reads it; bits 7:6 and 31:16 are reserved and read 0. -/
def State.statusWord (s : State) : Word :=
  word (s.busy.toNat + (s.status.done.toNat <<< 1) + (s.status.err.toNat <<< 2) + (s.status.ovr.toNat <<< 3)
    + (s.status.compressed.toNat <<< 4) + (s.status.valid.toNat <<< 5) + (s.status.errcode.toNat <<< 8))

/-- R33: the IRQ_EN register as the host reads it. -/
def State.irqEnWord (s : State) : Word := word (s.doneIe.toNat + (s.errIe.toNat <<< 1))

/-- R44, R337: the interrupt line, a level. -/
def State.irq (s : State) : Bool := (s.status.done && s.doneIe) || (s.status.err && s.errIe)

/-- R32 (e), R338: a host write of `v` to STATUS. Clearing ERR also clears ERRCODE. ERR_INFO keeps its value, as R338 says
and row 0x00 of R331 does not (log 30). -/
def Status.acknowledge (f : Status) (v : Word) : Status :=
  { f with
    done := f.done && !bitSet v 1
    err := f.err && !bitSet v 2
    errcode := if bitSet v 2 then 0 else f.errcode
    ovr := f.ovr && !bitSet v 3 }

/-- R113: the flags at a command's start. -/
def Status.started (f : Status) : Status := { f with done := false, err := false, errcode := 0 }

/-- R330: the flags at a command's error end. -/
def Status.failed (f : Status) (code : BitVec 8) : Status := { f with errcode := code, err := true, done := true }

end Sys2Proof.Machine
end

