-- ==== Sys2Proof/Machine/Ops.lean ====
section
/-! DEFINITION. The named operations over memory, the internal RAMs and the command's working state: the two engine
primitives of R80, the stream reader of R10, the loops of R11, raising an error (R330), the successful end (R334) and
running one command's pseudocode as one atomic transition (R6). -/

namespace Sys2Proof.Machine

/-! ### Tables: system memory and the internal RAMs -/

/-- The value a table lists for a key. -/
def tableGet {α : Type} : List (Nat × α) → Nat → Option α
  | [], _ => none
  | (k, x) :: t, a => if a = k then some x else tableGet t a

/-- A table with the value of one key set, its keys kept in rising order. -/
def tablePut {α : Type} : List (Nat × α) → Nat → α → List (Nat × α)
  | [], a, y => [(a, y)]
  | (k, x) :: t, a, y => if a < k then (a, y) :: (k, x) :: t else if a = k then (a, y) :: t else (k, x) :: tablePut t a y

/-- A table with one key removed. -/
def tableErase {α : Type} : List (Nat × α) → Nat → List (Nat × α)
  | [], _ => []
  | (k, x) :: t, a => if a = k then tableErase t a else (k, x) :: tableErase t a

/-- The keys of a table strictly rise. -/
abbrev tableSorted {α : Type} (t : List (Nat × α)) : Prop := t.Pairwise fun x y => x.1 < y.1

/-- What a byte of system memory that nothing has written reads as. DESIGN CHOICE (log 5): the spec gives system memory
no contents (R47, R361 (f)); the test programs of spec/95_test_vectors.md start from 0. -/
def unwrittenByte : Byte := 0

/-- The byte at an address. -/
def Memory.read (m : Memory) (a : Nat) : Byte := (tableGet m a).getD unwrittenByte

/-- Memory with one byte written, in canonical form. -/
def Memory.write (m : Memory) (a : Nat) (v : Byte) : Memory :=
  if v = unwrittenByte then tableErase m a else tablePut m a v

/-- The canonical form of memory: addresses strictly rising, and no entry equal to what an unlisted address reads as. -/
abbrev Memory.wf (m : Memory) : Prop := tableSorted m ∧ ∀ c ∈ m, c.2 ≠ unwrittenByte

/-- R38: the key of palette entry `i` of bank `b`. -/
def palKey (b i : Nat) : Nat := 256 * b + i

/-- R38, R41: a palette entry; one that nothing has written since power-on holds its unspecified value (log 6). -/
def palEntry (epoch : Nat) (t : List (Nat × Rgb)) (k : Nat) : Rgb :=
  (tableGet t k).getD
    { r := Config.palPowerOn epoch k 0, g := Config.palPowerOn epoch k 1, b := Config.palPowerOn epoch k 2 }

/-- R39, R41: `Rot[i].start`, unspecified until written (log 7). -/
def rotStartAt (epoch : Nat) (t : List (Nat × BitVec 16)) (i : Nat) : BitVec 16 :=
  (tableGet t i).getD (Config.rotStartPowerOn epoch i)

/-- R39, R41: `Rot[i].len`, unspecified until written (log 7). -/
def rotLenAt (epoch : Nat) (t : List (Nat × BitVec 16)) (i : Nat) : BitVec 16 :=
  (tableGet t i).getD (Config.rotLenPowerOn epoch i)

/-- R39, R41: `Rot[i].phase`, unspecified until written (log 7). -/
def rotPhaseAt (epoch : Nat) (t : List (Nat × Word)) (i : Nat) : Word :=
  (tableGet t i).getD (Config.rotPhasePowerOn epoch i)

/-- `Rot[i]` (R9, R39). -/
def rotEntryAt (epoch : Nat) (starts lens : List (Nat × BitVec 16)) (phases : List (Nat × Word)) (i : Nat) :
    RotEntry where
  start := rotStartAt epoch starts i
  len := rotLenAt epoch lens i
  phase := rotPhaseAt epoch phases i

/-- `Pal[b][i]` (R9) of a state. -/
def State.palAt (s : State) (b i : Nat) : Rgb := palEntry s.epoch s.pal (palKey b i)

/-- `Rot[i]` (R9) of a state. -/
def State.rotAt (s : State) (i : Nat) : RotEntry := rotEntryAt s.epoch s.rotStart s.rotLen s.rotPhase i

/-- The byte of system memory at an address, in a state. -/
def State.byte (s : State) (a : Nat) : Byte := s.mem.read a

/-! ### Errors -/

/-- R331: the errors a command can end with. -/
inductive CmdError where
  | illegalCmd | srcEof | dstOverflow | busError | hsqBadDistance | hsqOverrun | hsqShort | rleOverrun | blitZeroDim
  | palBadDivisor | indexRange | globeTiltRange | globeRowRange | globeMapRange
  deriving DecidableEq, Repr

/-- R331: the code STATUS.ERRCODE holds. -/
def CmdError.code : CmdError → BitVec 8
  | .illegalCmd => 0x01
  | .srcEof => 0x02
  | .dstOverflow => 0x03
  | .busError => 0x04
  | .hsqBadDistance => 0x05
  | .hsqOverrun => 0x06
  | .hsqShort => 0x07
  | .rleOverrun => 0x08
  | .blitZeroDim => 0x09
  | .palBadDivisor => 0x0A
  | .indexRange => 0x0B
  | .globeTiltRange => 0x0C
  | .globeRowRange => 0x0D
  | .globeMapRange => 0x0E

/-- How a command's pseudocode stops before its `done()`. -/
inductive Stop where
  /-- R330: `raise E(info)` -/
  | raised (e : CmdError) (info : Int)
  /-- R362: a reset cut the command short after the writes it had made -/
  | cut
  deriving DecidableEq, Repr

/-! ### The engine's working state during one command -/

/-- R334: the result writes a command stages; `none` where the command assigns nothing. -/
structure Staged where
  result0 : Option Word := none
  result1 : Option Word := none
  compressed : Option Bool := none
  valid : Option Bool := none
  deriving DecidableEq, Repr

/-- What a command reads and never changes: its snapshot (R37), the OPEN parameters, the contested bytes (R86) and which
power-on the unspecified RAM values belong to. -/
structure View where
  snap : Params
  plat : Platform
  contested : List Nat
  epoch : Nat
  deriving DecidableEq, Repr

/-- What a command changes: system memory, the internal RAMs, and its command-local state (R43), which lives only as
long as the command. -/
structure Work where
  mem : Memory
  pal : List (Nat × Rgb)
  rotStart : List (Nat × BitVec 16)
  rotLen : List (Nat × BitVec 16)
  rotPhase : List (Nat × Word)
  /-- free values drawn (log 17) -/
  draws : Nat
  /-- the writes still allowed when a reset cuts the command short (R362); `none` when it runs to its end -/
  quota : Option Nat
  /-- input cursor (R10) -/
  icur : Nat
  /-- output cursor (R160, R231) -/
  ocur : Nat
  /-- HSQ bit queue `q` (R164) -/
  queue : BitVec 16
  /-- HSQ bit count `n` (R164) -/
  qbits : Nat
  /-- surface pixels written (R233) -/
  written : Nat
  deriving DecidableEq, Repr

/-- The pseudocode of a command: it changes the working state and gives a value or stops. A stop keeps the working state,
so the writes made before it stay (R330, R333). -/
abbrev Eng (α : Type) := EStateM Stop Work α

/-- A value read off the command's working state. -/
def readWork {α : Type} (f : Work → α) : Eng α := fun w => .ok (f w) w

/-- A change of the command's working state. -/
def modifyWork (f : Work → Work) : Eng Unit := fun w => .ok () (f w)

/-- R330: `raise E(info)`. -/
def raise {α : Type} (e : CmdError) (info : Int) : Eng α := fun w => .error (.raised e info) w

/-- `if c: raise E(info)`. -/
def raiseIf (c : Bool) (e : CmdError) (info : Int) : Eng Unit := if c then raise e info else pure ()

/-- R80: `MemRead(a, 1)`. A byte the host touched against R86 reads as an unspecified value (log 10). -/
def memRead (v : View) (a : Nat) : Eng Byte := fun w =>
  if a < v.plat.memSize then
    if v.contested.contains a then .ok (Config.contestedByte w.draws) { w with draws := w.draws + 1 }
    else .ok (w.mem.read a) w
  else .error (.raised .busError a) w

/-- Count one write against the quota of a command that a reset cuts short (R362). -/
def spend : Eng Unit := fun w =>
  match w.quota with
  | none => .ok () w
  | some 0 => .error .cut w
  | some (n + 1) => .ok () { w with quota := some n }

/-- The byte at `a` becomes `x`, with no check. -/
def storeByte (a : Nat) (x : Byte) : Eng Unit := modifyWork fun w => { w with mem := w.mem.write a x }

/-- R80: `MemWrite(a, 1, v)`. -/
def memWrite (v : View) (a : Nat) (x : Byte) : Eng Unit :=
  if a < v.plat.memSize then do
    spend
    storeByte a x
  else raise .busError a

/-- `Pal[b][i]` (R9). -/
def palRead (v : View) (b i : Nat) : Eng Rgb := readWork fun w => palEntry v.epoch w.pal (palKey b i)

/-- `Pal[b][i] <- c`. -/
def palWrite (b i : Nat) (c : Rgb) : Eng Unit := do
  spend
  modifyWork fun w => { w with pal := tablePut w.pal (palKey b i) c }

/-- `Rot[i]` (R9). -/
def rotRead (v : View) (i : Nat) : Eng RotEntry :=
  readWork fun w => rotEntryAt v.epoch w.rotStart w.rotLen w.rotPhase i

/-- R257: `Rot[i].len`, where it has been written since power-on. -/
def rotLenWritten (i : Nat) : Eng (Option (BitVec 16)) := readWork fun w => tableGet w.rotLen i

/-- `Rot[i].start <- x` (R254). -/
def rotWriteStart (i : Nat) (x : BitVec 16) : Eng Unit := do
  spend
  modifyWork fun w => { w with rotStart := tablePut w.rotStart i x }

/-- `Rot[i].len <- x` (R254). -/
def rotWriteLen (i : Nat) (x : BitVec 16) : Eng Unit := do
  spend
  modifyWork fun w => { w with rotLen := tablePut w.rotLen i x }

/-- `Rot[i].phase <- p` (R256). -/
def rotWritePhase (i : Nat) (p : Word) : Eng Unit := do
  spend
  modifyWork fun w => { w with rotPhase := tablePut w.rotPhase i p }

/-- The next number for a free value (log 17). -/
def drawNumber : Eng Nat := fun w => .ok w.draws { w with draws := w.draws + 1 }

/-! ### Streams and loops -/

/-- R10: an input stream, its base address and the number of readable bytes. -/
structure Stream where
  base : Nat
  len : Nat
  deriving DecidableEq, Repr

/-- The stream SRC_ADDR, SRC_LEN. -/
def View.source (v : View) : Stream := { base := v.snap.srcAddr.toNat, len := v.snap.srcLen.toNat }

/-- The input cursor `icur`. -/
def inputCursor : Eng Nat := readWork fun w => w.icur

/-- `icur <- k`. -/
def setInputCursor (k : Nat) : Eng Unit := modifyWork fun w => { w with icur := k }

/-- The output cursor `ocur`. -/
def outputCursor : Eng Nat := readWork fun w => w.ocur

/-- `ocur <- k`. -/
def setOutputCursor (k : Nat) : Eng Unit := modifyWork fun w => { w with ocur := k }

/-- R10: `raise SRC_EOF(icur)`. -/
def raiseEof {α : Type} : Eng α := fun w => .error (.raised .srcEof w.icur) w

/-- R10: `InByte()`. -/
def inByte (v : View) (st : Stream) : Eng Byte := do
  let k ← inputCursor
  if k < st.len then do
    let b ← memRead v (st.base + k)
    setInputCursor (k + 1)
    pure b
  else raiseEof

/-- R10: `InWord()`. -/
def inWord (v : View) (st : Stream) : Eng Nat := do
  let b0 ← inByte v st
  let b1 ← inByte v st
  pure (le16 b0 b1)

/-- `f k, f (k + 1), …`, `n` calls in rising order (R11). -/
def loopFrom (f : Nat → Eng Unit) : Nat → Nat → Eng Unit
  | 0, _ => pure ()
  | n + 1, k => do
    f k
    loopFrom f n (k + 1)

/-- R11: `for k in 0 .. n - 1: f k`. -/
def loop (n : Nat) (f : Nat → Eng Unit) : Eng Unit := loopFrom f n 0

/-- `repeat n times: f`. -/
def repeatTimes (n : Nat) (f : Eng Unit) : Eng Unit := loop n fun _ => f

/-! ### A command as one atomic transition -/

/-- R37: the snapshot a command reads. Outside RUNNING there is none, and the live registers stand in for it (log 18). -/
def State.snap (s : State) : Params :=
  match s.phase with
  | .idle => s.params
  | .running r => r.snap

/-- The bytes the host touched against R86 while the running command ran. -/
def State.contested (s : State) : List Nat :=
  match s.phase with
  | .idle => []
  | .running r => r.contested

/-- What the running command reads and never changes. -/
def State.view (s : State) : View :=
  { snap := s.snap, plat := s.plat, contested := s.contested, epoch := s.epoch }

/-- The working state at a command's start (R43: nothing carries over from the command before). -/
def State.work (s : State) (quota : Option Nat) : Work where
  mem := s.mem
  pal := s.pal
  rotStart := s.rotStart
  rotLen := s.rotLen
  rotPhase := s.rotPhase
  draws := s.draws
  quota := quota
  icur := 0
  ocur := 0
  queue := 0
  qbits := 0
  written := 0

/-- The state with a command's writes to memory and the internal RAMs in place. -/
def State.land (s : State) (w : Work) : State :=
  { s with
    mem := w.mem, pal := w.pal, rotStart := w.rotStart, rotLen := w.rotLen, rotPhase := w.rotPhase, draws := w.draws }

/-- R330: a command ends in error `e` with information `info`. The staged results are discarded; no state is saved and
the engine is IDLE again (R336, R339). -/
def State.raiseError (s : State) (e : CmdError) (info : Int) : State :=
  { s with status := s.status.failed e.code, errInfo := BitVec.ofInt 32 info, phase := .idle }

/-- R334: a command ends successfully and its staged results are committed. -/
def State.commitDone (s : State) (g : Staged) : State :=
  { s with
    result0 := g.result0.getD s.result0
    result1 := g.result1.getD s.result1
    status := { s.status with
      compressed := g.compressed.getD s.status.compressed
      valid := g.valid.getD s.status.valid
      done := true }
    phase := .idle }

/-- R330, R334: how a command ends, given how its pseudocode ended. A command with no quota is never cut. -/
def State.finish (s : State) : EStateM.Result Stop Work Staged → State
  | .ok g w => (s.land w).commitDone g
  | .error (.raised e info) w => (s.land w).raiseError e info
  | .error .cut w => { s.land w with phase := .idle }

/-- R6, R88: run one command's pseudocode to its end or first error, as one transition. -/
def State.runCmd (s : State) (body : View → Eng Staged) : State := s.finish (body s.view (s.work none))

/-- R86: every contested byte holds an unspecified value once the command has ended (log 10). -/
def State.settle : List Nat → State → State
  | [], s => s
  | a :: as, s =>
    State.settle as { s with mem := s.mem.write a (Config.contestedByte s.draws), draws := s.draws + 1 }

end Sys2Proof.Machine
end

