-- ==== Sys2Proof/Machine/Blit.lean ====
section
/-! DEFINITION. The RLE decoder and the blit compositor (spec/44_blit.md). -/

namespace Sys2Proof.Machine

/-! ### RLE -/

/-- One output byte of the RLE decoder: `MemWrite(out + ocur, 1, x); ocur <- ocur + 1` (R231). -/
def rlePut (v : View) (out : Nat) (x : Byte) : Eng Unit := do
  let o ← outputCursor
  memWrite v (out + o) x
  setOutputCursor (o + 1)

/-- One byte of a literal run (R231). -/
def rleLiteralByte (v : View) (st : Stream) (out : Nat) : Eng Unit := do
  let x ← inByte v st
  rlePut v out x

/-- R119: the length of the run that command byte `c` opens. -/
def rleLength (c : Byte) : Nat := if bitSet c 7 then 257 - c.toNat else c.toNat + 1

/-- R231: the bytes of the run that command byte `c` opens. -/
def rleBytes (v : View) (st : Stream) (out : Nat) (c : Byte) : Eng Unit :=
  if bitSet c 7 then do
    let x ← inByte v st
    repeatTimes (rleLength c) (rlePut v out x)
  else repeatTimes (rleLength c) (rleLiteralByte v st out)

/-- R231: one run, of which at most `room` bytes may be emitted; the run's length. -/
def rleRun (v : View) (st : Stream) (out room : Nat) : Eng Nat := do
  let cpos ← inputCursor
  let c ← inByte v st
  raiseIf (room < rleLength c) .rleOverrun cpos
  rleBytes v st out c
  pure (rleLength c)

/-- R231: the runs of one row, `emitted` bytes of it done. A run emits at least one byte, so a bound of
`pitch - emitted` runs is reached only when the row is full (log 19). -/
def rleRow (v : View) (st : Stream) (out pitch : Nat) : Nat → Nat → Eng Unit
  | 0, _ => pure ()
  | n + 1, emitted =>
    if emitted < pitch then do
      let len ← rleRun v st out (pitch - emitted)
      rleRow v st out pitch n (emitted + len)
    else pure ()

/-- R231: `RleDecode(out, height, pitch)`. -/
def rleDecode (v : View) (st : Stream) (out height pitch : Nat) : Eng Unit := do
  setOutputCursor 0
  loop height fun _ => rleRow v st out pitch pitch 0

/-- R232, R233: the width or the height is 0. -/
def Params.zeroDim (p : Params) : Bool := p.blitW == 0 || p.blitH == 0

/-- R232: the pseudocode of RLE_DECODE. -/
def bodyRleDecode (v : View) : Eng Staged := do
  raiseIf v.snap.zeroDim .blitZeroDim v.snap.blitSize.toNat
  raiseIf (v.snap.dstLen.toNat < v.snap.blitH * v.snap.pitch) .dstOverflow (v.snap.blitH * v.snap.pitch : Nat)
  rleDecode v v.source v.snap.dstAddr.toNat v.snap.blitH v.snap.pitch
  let k ← inputCursor
  pure { result0 := some (word k), result1 := some (word (v.snap.blitH * v.snap.pitch)) }

/-! ### Clipping and plotting -/

/-- A Rect (spec/00_scope.md section 8): half-open. -/
structure Rect where
  x0 : Int
  y0 : Int
  x1 : Int
  y1 : Int
  deriving DecidableEq, Repr

/-- R8: `clamp(v, lo, hi)`. -/
def clamp (v lo hi : Int) : Int := min (max v lo) hi

/-- R234: the rect before the intersection with the surface bounds. -/
def Params.clipRaw (p : Params) : Rect :=
  if p.clipEn then { x0 := p.clipX0, y0 := p.clipY0, x1 := p.clipX1, y1 := p.clipY1 }
  else { x0 := 0, y0 := 0, x1 := p.surfW, y1 := p.surfH }

/-- R234: `ClipRect()`. -/
def Params.clipRect (p : Params) : Rect where
  x0 := clamp p.clipRaw.x0 0 p.surfW
  y0 := clamp p.clipRaw.y0 0 p.surfH
  x1 := clamp p.clipRaw.x1 0 p.surfW
  y1 := clamp p.clipRaw.y1 0 p.surfH

/-- R234: `InRect(c, x, y)`. -/
def Rect.contains (c : Rect) (x y : Int) : Bool := c.x0 ≤ x && x < c.x1 && c.y0 ≤ y && y < c.y1

/-- R235: the byte the index map gets. -/
def Params.objByte (p : Params) : Byte := BitVec.ofNat 8 (min p.objIdNat 255)

/-- R45, R46: the offset of pixel (x, y) in a grid of width `w`; inside the clip rect both coordinates are ≥ 0. -/
def pixelOffset (w : Nat) (x y : Int) : Nat := (y * w + x).toNat

/-- `written <- written + 1` (R235). -/
def countWritten : Eng Unit := modifyWork fun w => { w with written := w.written + 1 }

/-- R235: the index-map write at an offset, where an index map is supplied. -/
def markOwner (v : View) (off : Nat) : Eng Unit :=
  if v.snap.imapEn then memWrite v (v.snap.imapBase.toNat + off) v.snap.objByte else pure ()

/-- R235: `Plot(dx, dy, colour)`. -/
def plot (v : View) (clip : Rect) (dx dy : Int) (colour : Byte) : Eng Unit :=
  if clip.contains dx dy then do
    memWrite v (v.snap.surfBase.toNat + pixelOffset v.snap.surfW dx dy) colour
    markOwner v (pixelOffset v.snap.surfW dx dy)
    countWritten
  else pure ()

/-- R236: `DestX(x, dw)`. -/
def Params.destX (p : Params) (x dw : Nat) : Int :=
  if p.flipX then p.blitX + ((dw : Int) - x - 1) else p.blitX + x

/-- R236: `DestY(y, dh)`. -/
def Params.destY (p : Params) (y dh : Nat) : Int :=
  if p.flipY then p.blitY + ((dh : Int) - y - 1) else p.blitY + y

/-! ### Drawing -/

/-- R237: the nibble of pixel column `sx` in its byte: even x the low nibble, odd x the high nibble. -/
def nibbleOf (b : Byte) (sx : Nat) : Nat := if sx % 2 = 0 then bits b 3 0 else bits b 7 4

/-- R237: `Nib(pix, p, sx, sy)`. -/
def fetchNibble (v : View) (pix p sx sy : Nat) : Eng Nat := do
  let b ← memRead v (pix + sy * p + sx / 2)
  pure (nibbleOf b sx)

/-- R237: `Colour4(n)`. -/
def Params.colour4 (p : Params) (n : Nat) : Byte := BitVec.ofNat 8 (n + p.palMode)

/-- R239, R241: one 4bpp pixel, fetched at (sx, sy) and plotted for destination (x, y) of a dw × dh image. -/
def drawNibble (v : View) (clip : Rect) (pix p dw dh sx sy x y : Nat) : Eng Unit := do
  let n ← fetchNibble v pix p sx sy
  if n = 0 then pure () else plot v clip (v.snap.destX x dw) (v.snap.destY y dh) (v.snap.colour4 n)

/-- R239: `Draw4(pix, p)`. -/
def draw4 (v : View) (clip : Rect) (pix p : Nat) : Eng Unit :=
  loop v.snap.blitH fun y => loop v.snap.blitW fun x =>
    drawNibble v clip pix p v.snap.blitW v.snap.blitH x y x y

/-- R238: the 8bpp value is transparent. -/
def Params.transparent8 (p : Params) (b : Byte) : Bool := p.palMode == 255 && b.toNat == 0

/-- R238, R239: one 8bpp pixel. -/
def drawByte (v : View) (clip : Rect) (pix x y : Nat) : Eng Unit := do
  let b ← memRead v (pix + y * v.snap.blitW + x)
  if v.snap.transparent8 b then pure ()
  else plot v clip (v.snap.destX x v.snap.blitW) (v.snap.destY y v.snap.blitH) b

/-- R239: `Draw8(pix)`. -/
def draw8 (v : View) (clip : Rect) (pix : Nat) : Eng Unit :=
  loop v.snap.blitH fun y => loop v.snap.blitW fun x => drawByte v clip pix x y

/-- R240: `Factor[s]`. -/
def scaleFactor : Nat → Nat
  | 0 => 256
  | 1 => 288
  | 2 => 320
  | 3 => 352
  | 4 => 384
  | 5 => 448
  | 6 => 512
  | _ => 640

/-- R240: the scaled size of a dimension. -/
def scaledSize (dim f : Nat) : Nat := (dim <<< 8) / f

/-- R241: `Draw4Scaled(pix, p, f)`. The accumulators start at 0 and grow by `f` each step, so they are `x * f` and
`y * f` (R241's own derivation, log 22). -/
def draw4Scaled (v : View) (clip : Rect) (pix p f : Nat) : Eng Unit :=
  loop (scaledSize v.snap.blitH f) fun y => loop (scaledSize v.snap.blitW f) fun x =>
    drawNibble v clip pix p (scaledSize v.snap.blitW f) (scaledSize v.snap.blitH f) ((x * f) >>> 8) ((y * f) >>> 8) x y

/-- R233: where the pixels lie, after the RLE pre-pass or the length check of a raw source. -/
def blitPixels (v : View) : Eng Nat :=
  if v.snap.rle then do
    rleDecode v v.source v.snap.scratchAddr.toNat v.snap.blitH v.snap.pitch
    pure v.snap.scratchAddr.toNat
  else do
    raiseIf (v.snap.srcLen.toNat < v.snap.blitH * v.snap.pitch) .srcEof v.snap.srcLen.toNat
    pure v.snap.srcAddr.toNat

/-- R233: the dispatch on pixel format and scale. -/
def blitDraw (v : View) (clip : Rect) (pix : Nat) : Eng Unit :=
  if v.snap.bpp8 then draw8 v clip pix
  else if v.snap.scale = 0 then draw4 v clip pix v.snap.pitch
  else draw4Scaled v clip pix v.snap.pitch (scaleFactor v.snap.scale)

/-- R233, R240: the destination width and height. -/
def Params.destSize (p : Params) : Nat × Nat :=
  if p.bpp8 || p.scale == 0 then (p.blitW, p.blitH)
  else (scaledSize p.blitW (scaleFactor p.scale), scaledSize p.blitH (scaleFactor p.scale))

/-- The count of surface pixels written (R233). -/
def writtenCount : Eng Nat := readWork fun w => w.written

/-- R233: the pseudocode of BLIT. -/
def bodyBlit (v : View) : Eng Staged := do
  raiseIf v.snap.zeroDim .blitZeroDim v.snap.blitSize.toNat
  if v.snap.bpp8 ∧ v.snap.scale ≠ 0 then pure { result0 := some 0, result1 := some 0 }
  else do
    let pix ← blitPixels v
    blitDraw v v.snap.clipRect pix
    let n ← writtenCount
    pure { result0 := some (word n), result1 := some (word (v.snap.destSize.1 + (v.snap.destSize.2 <<< 16))) }

/-- R232: RLE_DECODE. -/
def execRleDecode (s : State) : Host.Outcome State Fault Refusal := .next (s.runCmd bodyRleDecode)

/-- R233: BLIT. -/
def execBlit (s : State) : Host.Outcome State Fault Refusal := .next (s.runCmd bodyBlit)

end Sys2Proof.Machine
end

