-- ==== Sys2Proof/Machine/Control.lean ====
section
/-! DEFINITION. The control command NOP (spec/40_control.md). -/

namespace Sys2Proof.Machine

/-- R150: NOP does nothing. -/
def bodyNop (_ : View) : Eng Staged := pure {}

/-- R150: NOP. -/
def execNop (s : State) : Host.Outcome State Fault Refusal := .next (s.runCmd bodyNop)

end Sys2Proof.Machine
end

