-- ==== Sys2Proof/Machine/Globe.lean ====
section
/-! DEFINITION. The globe projector: tilt ROM, rotation table, phases and the draw (spec/45_globe.md). -/

namespace Sys2Proof.Machine

/-! ### Tables -/

/-- R251: the code of a section. -/
def sectionCode : Section → Nat
  | .farNorth => 0
  | .nearNorth => 1
  | .nearSouth => 2
  | .farSouth => 3

/-- R252: the tilt ROM, entries 0 to 391: a section and a latitude (R40). -/
def tilt (i : Nat) : Section × Nat :=
  if i ≤ 97 then (.farSouth, i + 1)
  else if i ≤ 196 then (.nearSouth, 196 - i)
  else if i ≤ 294 then (.nearNorth, i - 196)
  else (.farNorth, 393 - i)

/-- R253: RESULT0 of TILT_READ. -/
def tiltWord (i : Nat) : Word := word (sectionCode (tilt i).1 + ((tilt i).2 <<< 8))

/-- R253: the pseudocode of TILT_READ. -/
def bodyTiltRead (v : View) : Eng Staged := do
  raiseIf (391 < v.snap.tiltIdx) .indexRange v.snap.tiltIdx
  pure { result0 := some (tiltWord v.snap.tiltIdx) }

/-- R254: the pseudocode of ROT_WRITE. -/
def bodyRotWrite (v : View) : Eng Staged := do
  raiseIf (98 < v.snap.rotIdx) .indexRange v.snap.rotIdx
  rotWriteStart v.snap.rotIdx v.snap.rotStart
  rotWriteLen v.snap.rotIdx v.snap.rotLen
  pure {}

/-- R255: the pseudocode of ROT_READ. -/
def bodyRotRead (v : View) : Eng Staged := do
  raiseIf (98 < v.snap.rotIdx) .indexRange v.snap.rotIdx
  let e ← rotRead v v.snap.rotIdx
  pure { result0 := some (word (e.start.toNat + (e.len.toNat <<< 16))), result1 := some e.phase }

/-! ### Phase and tilt -/

/-- R256: `p0`, entry 0's phase. -/
def phase0 (rot : Nat) : Nat := 398 * rot - (398 * rot) % 65536

/-- R256: `q`, the 16.16 fixed-point quotient. -/
def phaseQuotient (rot : Nat) : Nat := phase0 rot / 398

/-- R256: the phase of an entry other than entry 0, by its row length. -/
def phaseOf (rot : Nat) (len : BitVec 16) : Word := word (2 * phaseQuotient rot * len.toNat)

/-- R256, R257: the phase that entry `i` gets, by its row length; where that was never written it is unspecified, a free
value of the number drawn for this computation (log 31). -/
def newPhase (rot draw i : Nat) : Option (BitVec 16) → Word
  | some len => phaseOf rot len
  | none => Config.unwrittenLenPhase draw i

/-- R256: the phase of entry `i`, for `i` from 1. -/
def computePhase (rot draw i : Nat) : Eng Unit := do
  let len ← rotLenWritten i
  rotWritePhase i (newPhase rot draw i len)

/-- R256: `ComputePhases(rot)`. -/
def computePhases (rot : Nat) : Eng Unit := do
  let draw ← drawNumber
  rotWritePhase 0 (word (phase0 rot))
  loopFrom (computePhase rot draw) 98 1

/-- R257: the pseudocode of GLOBE_PHASE. -/
def bodyGlobePhase (v : View) : Eng Staged := do
  computePhases v.snap.rot
  pure {}

/-- R258: the clamped tilt. -/
def Params.tiltClamped (p : Params) : Int := min (max p.tiltRaw (-96)) 96

/-! ### The draw -/

/-- The OPEN functions of the globe (spec/00_scope.md section 5, D42), as arguments of the draw. -/
structure GlobeFns where
  auxRs : Nat → Nat → Nat
  auxSd : Nat → Nat → Nat
  offset : MapQuery → Int

/-- The implementation's own OPEN functions (log 9). -/
def globeFns : GlobeFns :=
  { auxRs := Config.globeAuxRs, auxSd := Config.globeAuxSd, offset := Config.globeOffset }

/-- R260: `TiltLookup(i)`. -/
def tiltLookup (i : Int) : Eng (Section × Nat) :=
  if i < 0 ∨ 391 < i then raise .globeTiltRange i else pure (tilt i.toNat)

/-- R259: the elevation resource as a stream. -/
def View.elevation (v : View) : Stream := { base := v.snap.globeElevAddr.toNat, len := v.snap.globeElevLen.toNat }

/-- R262: the conditional add, once. -/
def mapOffset (o : Int) (len : Nat) : Int := if o < 0 then o + len else o

/-- R262: `MapRead(o, len)`. -/
def mapRead (v : View) (o : Int) (len : Nat) : Eng Byte :=
  let k := mapOffset o len
  if k < 0 ∨ (v.snap.globeMapLen.toNat : Int) ≤ k then raise .globeMapRange k
  else memRead v (v.snap.globeMapAddr.toNat + k.toNat)

/-- R261: `MapByte(x, row, half, side, sec, lat)`. -/
def mapByte (G : GlobeFns) (v : View) (x row : Nat) (half : Half) (side : Side) (sec : Section) (lat : Nat) : Eng Byte := do
  let ars := G.auxRs x lat
  let asd := G.auxSd x lat
  raiseIf (v.elevation.len ≤ ars) .srcEof ars
  raiseIf (v.elevation.len ≤ asd) .srcEof asd
  let rs ← memRead v (v.elevation.base + ars)
  let sd ← memRead v (v.elevation.base + asd)
  raiseIf (98 < rs.toNat) .globeRowRange rs.toNat
  let e ← rotRead v rs.toNat
  mapRead v
    (G.offset
      { sec := sec, lat := lat, col := x, row := row, half := half, side := side, rowSel := rs.toNat,
        delta := sext 8 sd.toNat, entry := e })
    e.len.toNat

/-- R122, R263: `GlobeColour(m)`. -/
def globeColour (p : Platform) (m : Byte) : Byte :=
  let c := bits m 3 0
  let f := bits m (p.flagShift.val + 1) p.flagShift.val
  let c' := if f = p.flagPattern.toNat ∧ c < 8 then c + 12 else c
  BitVec.ofNat 8 (c' + p.globeBank.toNat)

/-- R264: `GlobePlot(px, py, colour)`. -/
def globePlot (v : View) (px py : Int) (colour : Byte) : Eng Unit :=
  if 0 ≤ px ∧ px < v.snap.surfW ∧ 0 ≤ py ∧ py < v.snap.surfH then
    memWrite v (v.snap.surfBase.toNat + (py * v.snap.surfW + px).toNat) colour
  else pure ()

/-- R259: the screen column of one of the two mirrored pixels. -/
def globeX (p : Params) (x : Nat) : Side → Int
  | .left => p.centerX - (x + 1)
  | .right => p.centerX + x

/-- R259: the screen row of a half's row. -/
def globeY (p : Params) (row : Nat) : Half → Int
  | .upper => p.centerY - row
  | .lower => p.centerY + row

/-- R259: one of the two mirrored pixels of a column. -/
def globeSide (G : GlobeFns) (v : View) (half : Half) (row x : Nat) (sec : Section) (lat : Nat) (side : Side) :
    Eng Unit := do
  let m ← mapByte G v x row half side sec lat
  globePlot v (globeX v.snap x side) (globeY v.snap row half) (globeColour v.plat m)

/-- R259, D56: the elevation of a byte, negated as an exact integer for the lower half. -/
def elevationOf (half : Half) (b : Byte) : Int :=
  match half with
  | .upper => sext 8 b.toNat
  | .lower => -(sext 8 b.toNat)

/-- R259: one column of a run: its elevation, its tilt lookup and its two pixels, left before right. -/
def globeColumn (G : GlobeFns) (v : View) (half : Half) (row x : Nat) : Eng Unit := do
  let b ← inByte v v.elevation
  let place ← tiltLookup (elevationOf half b + 196 + v.snap.tiltClamped)
  globeSide G v half row x place.1 place.2 .left
  globeSide G v half row x place.1 place.2 .right

/-- R121: the run length a length byte encodes, `byte = -length`. -/
def runLength (b : Byte) : Nat := (256 - b.toNat) % 256

/-- R259: the runs of one half from run number `row` on. Every run reads at least one byte of the list, so a bound of
`len` runs is never reached before the resource's end, and the read past it is SRC_EOF(icur) (log 19). -/
def globeRuns (G : GlobeFns) (v : View) (half : Half) : Nat → Nat → Eng Unit
  | 0, _ => raiseEof
  | n + 1, row => do
    let b ← inByte v v.elevation
    if runLength b = 0 then pure ()
    else do
      loop (runLength b) (globeColumn G v half row)
      globeRuns G v half n (row + 1)

/-- R259: one half, from the start of the column list. -/
def globeHalf (G : GlobeFns) (v : View) (half : Half) : Eng Unit := do
  setInputCursor v.plat.collistOff
  globeRuns G v half (v.elevation.len + 1) 0

/-- R259: the pseudocode of GLOBE_DRAW, over the OPEN functions. -/
def drawGlobe (G : GlobeFns) (v : View) : Eng Staged := do
  computePhases v.snap.rot
  globeHalf G v .upper
  globeHalf G v .lower
  pure {}

/-- R259: the pseudocode of GLOBE_DRAW with the implementation's own OPEN functions. -/
def bodyGlobeDraw (v : View) : Eng Staged := drawGlobe globeFns v

/-- R254: ROT_WRITE. -/
def execRotWrite (s : State) : Host.Outcome State Fault Refusal := .next (s.runCmd bodyRotWrite)

/-- R255: ROT_READ. -/
def execRotRead (s : State) : Host.Outcome State Fault Refusal := .next (s.runCmd bodyRotRead)

/-- R253: TILT_READ. -/
def execTiltRead (s : State) : Host.Outcome State Fault Refusal := .next (s.runCmd bodyTiltRead)

/-- R257: GLOBE_PHASE. -/
def execGlobePhase (s : State) : Host.Outcome State Fault Refusal := .next (s.runCmd bodyGlobePhase)

/-- R259: GLOBE_DRAW. -/
def execGlobeDraw (s : State) : Host.Outcome State Fault Refusal := .next (s.runCmd bodyGlobeDraw)

end Sys2Proof.Machine
end

