-- ==== Sys2Proof/Machine/Hsq.lean ====
section
/-! DEFINITION. The HSQ decompressor: header, bit queue, tokens, HSQ_PROBE and HSQ_DECOMPRESS (spec/41_hsq.md). -/

namespace Sys2Proof.Machine

/-- R161: what the header parse returns. -/
structure HsqHeader where
  usize : Nat
  unused : Nat
  csize : Nat
  ok : Bool
  deriving DecidableEq, Repr

/-- R161, R163: the header its six bytes spell. -/
def hsqHeaderOf (h0 h1 h2 h3 h4 h5 : Byte) : HsqHeader where
  usize := le24 h0 h1 h2
  unused := h3.toNat
  csize := le16 h4 h5
  ok := (h0.toNat + h1.toNat + h2.toNat + h3.toNat + h4.toNat + h5.toNat) % 256 == 0xAB

/-- R161: `ParseHeader()`. -/
def parseHeader (v : View) (st : Stream) : Eng HsqHeader := do
  let h0 ← inByte v st
  let h1 ← inByte v st
  let h2 ← inByte v st
  let h3 ← inByte v st
  let h4 ← inByte v st
  let h5 ← inByte v st
  pure (hsqHeaderOf h0 h1 h2 h3 h4 h5)

/-- R162: the pseudocode of HSQ_PROBE. -/
def bodyHsqProbe (v : View) : Eng Staged := do
  let h ← parseHeader v v.source
  pure { result0 := some (word h.usize), result1 := some (word (h.csize + (h.unused <<< 16))), compressed := some h.ok }

/-- R164: the refill, when a bit is needed and none is left (D15, log 20). -/
def refillQueue (v : View) (st : Stream) : Eng Unit := do
  let w ← inWord v st
  modifyWork fun k => { k with queue := BitVec.ofNat 16 w, qbits := 16 }

/-- R164: take the next bit of the queue, least significant first. -/
def takeBit : Eng Bool := do
  let bit ← readWork fun k => bitSet k.queue 0
  modifyWork fun k => { k with queue := k.queue >>> 1, qbits := k.qbits - 1 }
  pure bit

/-- R164: whether the queue is empty. -/
def queueEmpty : Eng Bool := readWork fun k => k.qbits == 0

/-- R164: the refill, if the queue is empty. -/
def refillIfEmpty (v : View) (st : Stream) : Eng Unit := do
  let empty ← queueEmpty
  if empty then refillQueue v st else pure ()

/-- R164: `GetBit()`. -/
def getBit (v : View) (st : Stream) : Eng Bool := do
  refillIfEmpty v st
  takeBit

/-- R167: `Put(v)`. -/
def hsqPut (v : View) (dst usize : Nat) (x : Byte) : Eng Unit := do
  let o ← outputCursor
  raiseIf (usize ≤ o) .hsqOverrun o
  memWrite v (dst + o) x
  setOutputCursor (o + 1)

/-- R167: one byte of a copy. -/
def hsqCopyByte (v : View) (dst usize dist : Nat) : Eng Unit := do
  let o ← outputCursor
  let x ← memRead v (dst + o - dist)
  hsqPut v dst usize x

/-- R167: `Copy(dist, len)`, one byte at a time, re-reading the bytes it has just written. -/
def hsqCopy (v : View) (dst usize dist len : Nat) : Eng Unit := do
  let o ← outputCursor
  raiseIf (o < dist) .hsqBadDistance o
  repeatTimes len (hsqCopyByte v dst usize dist)

/-- R165: the long form, after its two selector bits; true for the end token. -/
def hsqLong (v : View) (st : Stream) (dst usize : Nat) : Eng Bool := do
  let w ← inWord v st
  let dist := 8192 - w / 8
  if w % 8 = 0 then do
    let e ← inByte v st
    if e.toNat = 0 then pure true
    else do
      hsqCopy v dst usize dist (e.toNat + 2)
      pure false
  else do
    hsqCopy v dst usize dist (w % 8 + 2)
    pure false

/-- R165: the short form, after its two selector bits; the first count bit is bit 1 (D16, log 20). -/
def hsqShort (v : View) (st : Stream) (dst usize : Nat) : Eng Unit := do
  let c1 ← getBit v st
  let c0 ← getBit v st
  let b ← inByte v st
  hsqCopy v dst usize (256 - b.toNat) (2 * c1.toNat + c0.toNat + 2)

/-- R165: one token; true for the end token. -/
def hsqToken (v : View) (st : Stream) (dst usize : Nat) : Eng Bool := do
  let literal ← getBit v st
  if literal then do
    let b ← inByte v st
    hsqPut v dst usize b
    pure false
  else do
    let long ← getBit v st
    if long then hsqLong v st dst usize
    else do
      hsqShort v st dst usize
      pure false

/-- R165: the token loop. Every token reads at least one byte of the stream, so a bound of `len - icur` tokens is never
reached before the stream's end, and the read past it is SRC_EOF(icur) (log 19). -/
def hsqTokens (v : View) (st : Stream) (dst usize : Nat) : Nat → Eng Unit
  | 0 => raiseEof
  | n + 1 => do
    let ended ← hsqToken v st dst usize
    if ended then pure () else hsqTokens v st dst usize n

/-- R165: `Decode(usize)`, with an empty bit queue and `ocur = 0` at its start. -/
def hsqDecode (v : View) (st : Stream) (dst usize : Nat) : Eng Unit := hsqTokens v st dst usize (st.len + 1)

/-- R168: one byte of the verbatim copy. -/
def verbatimByte (v : View) (st : Stream) (dst k : Nat) : Eng Unit := do
  let x ← memRead v (st.base + k)
  memWrite v (dst + k) x

/-- R168: the compressed path of HSQ_DECOMPRESS. -/
def hsqCompressed (v : View) (st : Stream) (dst cap usize : Nat) : Eng Staged := do
  raiseIf (cap < usize) .dstOverflow usize
  hsqDecode v st dst usize
  let o ← outputCursor
  raiseIf (o != usize) .hsqShort o
  let k ← inputCursor
  pure { result0 := some (word usize), result1 := some (word k), compressed := some true }

/-- R168: the verbatim path of HSQ_DECOMPRESS. -/
def hsqVerbatim (v : View) (st : Stream) (dst cap : Nat) : Eng Staged := do
  raiseIf (cap < st.len) .dstOverflow st.len
  loop st.len (verbatimByte v st dst)
  pure { result0 := some (word st.len), result1 := some (word st.len), compressed := some false }

/-- R168: the pseudocode of HSQ_DECOMPRESS. -/
def bodyHsqDecompress (v : View) : Eng Staged := do
  let h ← parseHeader v v.source
  if h.ok then hsqCompressed v v.source v.snap.dstAddr.toNat v.snap.dstLen.toNat h.usize
  else hsqVerbatim v v.source v.snap.dstAddr.toNat v.snap.dstLen.toNat

/-- R162: HSQ_PROBE. -/
def execHsqProbe (s : State) : Host.Outcome State Fault Refusal := .next (s.runCmd bodyHsqProbe)

/-- R168: HSQ_DECOMPRESS. -/
def execHsqDecompress (s : State) : Host.Outcome State Fault Refusal := .next (s.runCmd bodyHsqDecompress)

end Sys2Proof.Machine
end

