-- ==== Sys2Proof/Machine/Palette.lean ====
section
/-! DEFINITION. The palette engine: update stream, single-entry access, display expansion, clone, lerp and export
(spec/42_palette.md). -/

namespace Sys2Proof.Machine

/-- R180: one triple of a run; a slot past 255 is read and dropped. -/
def palTriple (v : View) (st : Stream) (bk index k : Nat) : Eng Unit := do
  let r ← inByte v st
  let g ← inByte v st
  let b ← inByte v st
  if index + k ≤ 255 then palWrite bk (index + k) { r := r, g := g, b := b } else pure ()

/-- R117, R180: the length of a run; a count of 0 stands for 256. -/
def palRunLength (count : Byte) : Nat := if count.toNat = 0 then 256 else count.toNat

/-- R180: the pair loop, up to the terminator. Every pair reads two bytes, so a bound of `len` pairs is never reached
before the stream's end, and the read past it is SRC_EOF(icur) (log 19). -/
def palPairs (v : View) (st : Stream) (bk : Nat) : Nat → Eng Unit
  | 0 => raiseEof
  | n + 1 => do
    let index ← inByte v st
    let count ← inByte v st
    if index.toNat = 0x01 ∧ count.toNat = 0x00 then do
      let _ ← inByte v st
      let _ ← inByte v st
      let _ ← inByte v st
      palPairs v st bk n
    else if index.toNat = 0xFF ∧ count.toNat = 0xFF then pure ()
    else do
      loop (palRunLength count) (palTriple v st bk index.toNat)
      palPairs v st bk n

/-- R180: the filler scan; it ends at the first byte that is not 0xFF, or at the stream's end. -/
def palFiller (v : View) (st : Stream) : Nat → Eng Unit
  | 0 => pure ()
  | n + 1 => do
    let k ← inputCursor
    if k < st.len then do
      let b ← memRead v (st.base + k)
      if b.toNat = 0xFF then do
        setInputCursor (k + 1)
        palFiller v st n
      else pure ()
    else pure ()

/-- R180: the pseudocode of PAL_APPLY. -/
def bodyPalApply (v : View) : Eng Staged := do
  palPairs v v.source v.snap.bank (v.source.len + 1)
  palFiller v v.source v.source.len
  let k ← inputCursor
  pure { result0 := some (word k) }

/-- R181: the pseudocode of PAL_READ. -/
def bodyPalRead (v : View) : Eng Staged := do
  let c ← palRead v v.snap.bank v.snap.palIdx
  pure { result0 := some (packColour c) }

/-- R182: the pseudocode of PAL_WRITE. -/
def bodyPalWrite (v : View) : Eng Staged := do
  palWrite v.snap.bank v.snap.palIdx (unpackColour v.snap.palData)
  pure {}

/-- R183: `Expand(c)`, from 6 to 8 bits. -/
def expand (c : Byte) : Byte := BitVec.ofNat 8 ((255 * c.toNat) / 63)

/-- R183: the expansion of each channel. -/
def expandRgb (c : Rgb) : Rgb := { r := expand c.r, g := expand c.g, b := expand c.b }

/-- R183: the pseudocode of PAL_DISPLAY. -/
def bodyPalDisplay (v : View) : Eng Staged := do
  let c ← palRead v v.snap.bank v.snap.palIdx
  pure { result0 := some (packColour (expandRgb c)) }

/-- R184: one entry of the clone. -/
def palCopyEntry (v : View) (i : Nat) : Eng Unit := do
  let c ← palRead v v.snap.srcBank i
  palWrite v.snap.bank i c

/-- R184: the pseudocode of PAL_COPY. -/
def bodyPalCopy (v : View) : Eng Staged := do
  loop 256 (palCopyEntry v)
  pure {}

/-- R185: one channel of the lerp, in exact integers; `div` truncates toward zero. -/
def lerpChannel (a b : Byte) (d : Int) : Byte := BitVec.ofInt 8 (((b.toNat : Int) - a.toNat).tdiv d + a.toNat)

/-- R185: the lerp of two colours. -/
def lerpRgb (a b : Rgb) (d : Int) : Rgb where
  r := lerpChannel a.r b.r d
  g := lerpChannel a.g b.g d
  b := lerpChannel a.b b.b d

/-- R185: the pseudocode of PAL_LERP. -/
def bodyPalLerp (v : View) : Eng Staged := do
  raiseIf (v.snap.lerpD ≤ 0) .palBadDivisor (bits v.snap.lerpDiv 15 0)
  pure { result0 := some (packColour (lerpRgb (unpackColour v.snap.lerpA) (unpackColour v.snap.lerpB) v.snap.lerpD)) }

/-- R186: the three bytes of one exported entry (R123). -/
def palExportEntry (v : View) (i : Nat) : Eng Unit := do
  let c ← palRead v v.snap.bank i
  memWrite v (v.snap.dstAddr.toNat + 3 * i) (expand c.r)
  memWrite v (v.snap.dstAddr.toNat + 3 * i + 1) (expand c.g)
  memWrite v (v.snap.dstAddr.toNat + 3 * i + 2) (expand c.b)

/-- R186: the pseudocode of PAL_EXPORT. -/
def bodyPalExport (v : View) : Eng Staged := do
  raiseIf (v.snap.dstLen.toNat < 768) .dstOverflow 768
  loop 256 (palExportEntry v)
  pure {}

/-- R180: PAL_APPLY. -/
def execPalApply (s : State) : Host.Outcome State Fault Refusal := .next (s.runCmd bodyPalApply)

/-- R181: PAL_READ. -/
def execPalRead (s : State) : Host.Outcome State Fault Refusal := .next (s.runCmd bodyPalRead)

/-- R182: PAL_WRITE. -/
def execPalWrite (s : State) : Host.Outcome State Fault Refusal := .next (s.runCmd bodyPalWrite)

/-- R183: PAL_DISPLAY. -/
def execPalDisplay (s : State) : Host.Outcome State Fault Refusal := .next (s.runCmd bodyPalDisplay)

/-- R184: PAL_COPY. -/
def execPalCopy (s : State) : Host.Outcome State Fault Refusal := .next (s.runCmd bodyPalCopy)

/-- R185: PAL_LERP. -/
def execPalLerp (s : State) : Host.Outcome State Fault Refusal := .next (s.runCmd bodyPalLerp)

/-- R186: PAL_EXPORT. -/
def execPalExport (s : State) : Host.Outcome State Fault Refusal := .next (s.runCmd bodyPalExport)

end Sys2Proof.Machine
end

