-- ==== Sys2Proof/Machine/Surface.lean ====
section
/-! DEFINITION. The sprite header decoder and the two clears (spec/43_surface_sprite.md). -/

namespace Sys2Proof.Machine

/-- R201: the fields of a sprite header. -/
structure SpriteHeader where
  width : Nat
  flags : Nat
  rle : Nat
  height : Nat
  mode : Nat
  deriving DecidableEq, Repr

/-- R118, R201: `SpriteFields(w0, w1)`. -/
def spriteFields (w0 w1 : BitVec 16) : SpriteHeader where
  width := bits w0 8 0
  flags := bits w0 15 9
  rle := bits w0 15 15
  height := bits w1 7 0
  mode := bits w1 15 8

/-- R202: `SpriteValid(width, height)`. -/
def spriteValid (h : SpriteHeader) : Bool := h.width != 0 && h.height != 0

/-- R200: RESULT0 of SPR_HEADER. -/
def spriteResult0 (h : SpriteHeader) : Word := word (h.width + (h.height <<< 16))

/-- R200: RESULT1 of SPR_HEADER. -/
def spriteResult1 (h : SpriteHeader) : Word :=
  word (h.rle + (h.mode <<< 8) + (h.flags <<< 16) + ((if 254 ≤ h.mode then 1 else 0) <<< 24))

/-- R200: the pseudocode of SPR_HEADER. -/
def bodySprHeader (v : View) : Eng Staged := do
  let s0 ← inByte v v.source
  let s1 ← inByte v v.source
  let s2 ← inByte v v.source
  let s3 ← inByte v v.source
  let h := spriteFields (BitVec.ofNat 16 (le16 s0 s1)) (BitVec.ofNat 16 (le16 s2 s3))
  pure { result0 := some (spriteResult0 h), result1 := some (spriteResult1 h), valid := some (spriteValid h) }

/-- R203, R204: fill a W × H byte grid, row by row. -/
def fillGrid (v : View) (base w h : Nat) (x : Byte) : Eng Unit :=
  loop h fun row => loop w fun col => memWrite v (base + row * w + col) x

/-- R203: the pseudocode of SURF_CLEAR. -/
def bodySurfClear (v : View) : Eng Staged := do
  fillGrid v v.snap.surfBase.toNat v.snap.surfW v.snap.surfH v.snap.clearByte
  pure {}

/-- R204: the pseudocode of IMAP_CLEAR. -/
def bodyImapClear (v : View) : Eng Staged := do
  fillGrid v v.snap.imapBase.toNat v.snap.surfW v.snap.surfH 0xFF
  pure {}

/-- R200: SPR_HEADER. -/
def execSprHeader (s : State) : Host.Outcome State Fault Refusal := .next (s.runCmd bodySprHeader)

/-- R203: SURF_CLEAR. -/
def execSurfClear (s : State) : Host.Outcome State Fault Refusal := .next (s.runCmd bodySurfClear)

/-- R204: IMAP_CLEAR. -/
def execImapClear (s : State) : Host.Outcome State Fault Refusal := .next (s.runCmd bodyImapClear)

end Sys2Proof.Machine
end

