-- ==== Sys2Proof/Machine/Dispatch.lean ====
section
/-! DEFINITION. One arm per command: each calls its own meaning. -/

namespace Sys2Proof.Machine

def exec (i : Instr) (s : State) : Host.Outcome State Fault Refusal :=
  match i with
  | .nop => Sys2Proof.Machine.execNop s
  | .hsqProbe => Sys2Proof.Machine.execHsqProbe s
  | .hsqDecompress => Sys2Proof.Machine.execHsqDecompress s
  | .palApply => Sys2Proof.Machine.execPalApply s
  | .palRead => Sys2Proof.Machine.execPalRead s
  | .palWrite => Sys2Proof.Machine.execPalWrite s
  | .palDisplay => Sys2Proof.Machine.execPalDisplay s
  | .palCopy => Sys2Proof.Machine.execPalCopy s
  | .palLerp => Sys2Proof.Machine.execPalLerp s
  | .palExport => Sys2Proof.Machine.execPalExport s
  | .sprHeader => Sys2Proof.Machine.execSprHeader s
  | .surfClear => Sys2Proof.Machine.execSurfClear s
  | .imapClear => Sys2Proof.Machine.execImapClear s
  | .rleDecode => Sys2Proof.Machine.execRleDecode s
  | .blit => Sys2Proof.Machine.execBlit s
  | .rotWrite => Sys2Proof.Machine.execRotWrite s
  | .rotRead => Sys2Proof.Machine.execRotRead s
  | .tiltRead => Sys2Proof.Machine.execTiltRead s
  | .globePhase => Sys2Proof.Machine.execGlobePhase s
  | .globeDraw => Sys2Proof.Machine.execGlobeDraw s

end Sys2Proof.Machine
end

