-- ==== Sys2Proof/WellFormed.lean ====
section
/-! DEFINITION. Well-formedness of a raw command word (R112): two checks. A command itself has no operand, so every
`Instr` is well formed (R110). -/

namespace Sys2Proof

/-- The opcodes R111 assigns, in the table's order. -/
def assignedOpcodes : List (BitVec 8) :=
  [0x00, 0x01, 0x02, 0x10, 0x11, 0x12, 0x13, 0x14, 0x15, 0x16, 0x20, 0x21, 0x22, 0x23, 0x24, 0x30, 0x31, 0x32, 0x33,
    0x34]

/-- R112: the OP field is not reserved. -/
def CmdWord.opAssigned (w : CmdWord) : Bool := assignedOpcodes.contains w.op

/-- R112: the RSVD field is zero. -/
def CmdWord.rsvdZero (w : CmdWord) : Bool := w.rsvd == 0

/-- R112: the word is legal. -/
def CmdWord.wf (w : CmdWord) : Bool := w.opAssigned && w.rsvdZero

/-- R110: a command carries no register number and no immediate, so nothing about it can be ill formed. -/
def Instr.wf (_ : Instr) : Bool := true

end Sys2Proof
end

