-- ==== Sys2Proof/Decode.lean ====
section
/-! DEFINITION. The decoder of the command word (R110 to R113), total and rejecting by name, and the encoder written
from the same table (R111). -/

namespace Sys2Proof

/-- Why a command word, or a string of bytes, is no command (R112). -/
inductive DecodeError where
  /-- R112: CMD[31:8] is not zero. -/
  | reservedField
  /-- R112: the opcode is reserved. -/
  | reservedOp
  /-- Fewer than four bytes: no 32-bit word (R110, the one length). -/
  | shortWord
  deriving DecidableEq, Repr

/-- R111: the command an opcode names. -/
def opInstr (op : BitVec 8) : Option Instr :=
  match op.toNat with
  | 0x00 => some .nop
  | 0x01 => some .hsqProbe
  | 0x02 => some .hsqDecompress
  | 0x10 => some .palApply
  | 0x11 => some .palRead
  | 0x12 => some .palWrite
  | 0x13 => some .palDisplay
  | 0x14 => some .palCopy
  | 0x15 => some .palLerp
  | 0x16 => some .palExport
  | 0x20 => some .sprHeader
  | 0x21 => some .surfClear
  | 0x22 => some .imapClear
  | 0x23 => some .rleDecode
  | 0x24 => some .blit
  | 0x30 => some .rotWrite
  | 0x31 => some .rotRead
  | 0x32 => some .tiltRead
  | 0x33 => some .globePhase
  | 0x34 => some .globeDraw
  | _ => none

/-- R110: the two fields of a command word. -/
def splitWord (w : Word) : CmdWord := { op := w.extractLsb' 0 8, rsvd := w.extractLsb' 8 24 }

/-- R112, R113: the command of a word, or why it is illegal. -/
def decodeWord (w : Word) : Except DecodeError Instr :=
  if (splitWord w).rsvd = 0 then
    match opInstr (splitWord w).op with
    | some i => .ok i
    | none => .error .reservedOp
  else .error .reservedField

/-- R83: four bytes as a byte-addressed bus presents a register, byte 0 holding bits 7:0. -/
def wordOfBytes (b0 b1 b2 b3 : Byte) : Word := b3 ++ b2 ++ b1 ++ b0

/-- The decoder on bytes: one command word and the rest (R110: every command is one 32-bit word). -/
def decode : List Byte → Except DecodeError (Instr × List Byte)
  | b0 :: b1 :: b2 :: b3 :: rest => (decodeWord (wordOfBytes b0 b1 b2 b3)).map fun i => (i, rest)
  | _ => .error .shortWord

/-- R111: the opcode of a command. -/
def opcode : Instr → BitVec 8
  | .nop => 0x00
  | .hsqProbe => 0x01
  | .hsqDecompress => 0x02
  | .palApply => 0x10
  | .palRead => 0x11
  | .palWrite => 0x12
  | .palDisplay => 0x13
  | .palCopy => 0x14
  | .palLerp => 0x15
  | .palExport => 0x16
  | .sprHeader => 0x20
  | .surfClear => 0x21
  | .imapClear => 0x22
  | .rleDecode => 0x23
  | .blit => 0x24
  | .rotWrite => 0x30
  | .rotRead => 0x31
  | .tiltRead => 0x32
  | .globePhase => 0x33
  | .globeDraw => 0x34

/-- R110: the command word of a command, its reserved field zero. -/
def encode (i : Instr) : Word := (0 : BitVec 24) ++ opcode i

/-- R83: the four bytes of a word, bits 7:0 first. -/
def bytesOfWord (w : Word) : List Byte :=
  [w.extractLsb' 0 8, w.extractLsb' 8 8, w.extractLsb' 16 8, w.extractLsb' 24 8]

/-- The command word as bytes. -/
def encodeBytes (i : Instr) : List Byte := bytesOfWord (encode i)

/-- The command the decoder reads from an instruction of `nbits` bits whose bits are `w` (bits above `nbits` are 0). -/
def decodeTableWord (nbits w : Nat) : Option Instr :=
  match decode (bytesOfWord (BitVec.ofNat 32 (w % 2 ^ nbits))) with
  | .ok (i, _) => some i
  | .error _ => none

end Sys2Proof
end

