-- ==== Sys2Proof/Machine/Bodies.lean ====
section
/-! DEFINITION. The pseudocode of each command, for a reset that cuts a running command short (R362). -/

namespace Sys2Proof.Machine

/-- The pseudocode of a command. -/
def body (i : Instr) : View → Eng Staged :=
  match i with
  | .nop => bodyNop
  | .hsqProbe => bodyHsqProbe
  | .hsqDecompress => bodyHsqDecompress
  | .palApply => bodyPalApply
  | .palRead => bodyPalRead
  | .palWrite => bodyPalWrite
  | .palDisplay => bodyPalDisplay
  | .palCopy => bodyPalCopy
  | .palLerp => bodyPalLerp
  | .palExport => bodyPalExport
  | .sprHeader => bodySprHeader
  | .surfClear => bodySurfClear
  | .imapClear => bodyImapClear
  | .rleDecode => bodyRleDecode
  | .blit => bodyBlit
  | .rotWrite => bodyRotWrite
  | .rotRead => bodyRotRead
  | .tiltRead => bodyTiltRead
  | .globePhase => bodyGlobePhase
  | .globeDraw => bodyGlobeDraw

end Sys2Proof.Machine
end

