-- ==== Sys2Proof/Machine/Footprint.lean ====
section
/-! DEFINITION. The regions of system memory each command may read and write (R92), by which the host's obligations while
a command runs are judged (R86). -/

namespace Sys2Proof.Machine

/-- A command that touches no system memory (R92). -/
def Footprint.none : Footprint := { reads := [], writes := [] }

/-- Whether an address lies in one of the regions. -/
def inRegions (rs : List (Nat × Nat)) (a : Nat) : Bool := rs.any fun r => r.1 ≤ a && a < r.1 + r.2

/-- R45, R92: the surface's region. -/
def surfRegion (p : Params) : Nat × Nat := (p.surfBase.toNat, p.surfW * p.surfH)

/-- R46, R92: the index map's region. -/
def imapRegion (p : Params) : Nat × Nat := (p.imapBase.toNat, p.surfW * p.surfH)

/-- R92: the source region SRC_ADDR + [0, SRC_LEN). -/
def srcRegion (p : Params) : Nat × Nat := (p.srcAddr.toNat, p.srcLen.toNat)

/-- The header the first six bytes of the source spell (R161), as memory holds them, also where SRC_LEN or MEM_SIZE ends
before them and the command parses no header (the model's choice, log 29). -/
def headerAt (p : Params) (m : Memory) : HsqHeader :=
  let a := p.srcAddr.toNat
  hsqHeaderOf (m.read a) (m.read (a + 1)) (m.read (a + 2)) (m.read (a + 3)) (m.read (a + 4)) (m.read (a + 5))

/-- R92: the length of HSQ_DECOMPRESS's output region: `usize` when the header checks, SRC_LEN for a verbatim copy. DESIGN
CHOICE (log 29): a command that parses no header, because SRC_LEN is below 6 or a header byte does not exist, has no `usize`
in the spec; its region is that of the six bytes memory holds there. -/
def hsqOutLen (p : Params) (m : Memory) : Nat := if (headerAt p m).ok then (headerAt p m).usize else p.srcLen.toNat

/-- R92: the regions of a command, from its parameters and from memory at its start. -/
def footprint (i : Instr) (p : Params) (m : Memory) : Footprint :=
  match i with
  | .nop => Footprint.none
  | .hsqProbe => { reads := [(p.srcAddr.toNat, 6)], writes := [] }
  | .hsqDecompress =>
    { reads := [srcRegion p, (p.dstAddr.toNat, if (headerAt p m).ok then (headerAt p m).usize else 0)]
      writes := [(p.dstAddr.toNat, hsqOutLen p m)] }
  | .palApply => { reads := [srcRegion p], writes := [] }
  | .palRead => Footprint.none
  | .palWrite => Footprint.none
  | .palDisplay => Footprint.none
  | .palCopy => Footprint.none
  | .palLerp => Footprint.none
  | .palExport => { reads := [], writes := [(p.dstAddr.toNat, 768)] }
  | .sprHeader => { reads := [(p.srcAddr.toNat, 4)], writes := [] }
  | .surfClear => { reads := [], writes := [surfRegion p] }
  | .imapClear => { reads := [], writes := [imapRegion p] }
  | .rleDecode => { reads := [srcRegion p], writes := [(p.dstAddr.toNat, p.blitH * p.pitch)] }
  | .blit =>
    { reads := srcRegion p :: (if p.rle then [(p.scratchAddr.toNat, p.blitH * p.pitch)] else [])
      writes := (if p.rle then [(p.scratchAddr.toNat, p.blitH * p.pitch)] else [])
        ++ surfRegion p :: (if p.imapEn then [imapRegion p] else []) }
  | .rotWrite => Footprint.none
  | .rotRead => Footprint.none
  | .tiltRead => Footprint.none
  | .globePhase => Footprint.none
  | .globeDraw =>
    { reads := [(p.globeElevAddr.toNat, p.globeElevLen.toNat), (p.globeMapAddr.toNat, p.globeMapLen.toNat)]
      writes := [surfRegion p] }

end Sys2Proof.Machine
end

