-- ==== Sys2Proof/Machine/Window.lean ====
section
/-! DEFINITION. The register window: the register map (R33), host reads and writes (R32), the start of a command (R34,
R113) and the two resets (R361, R362). -/

namespace Sys2Proof.Machine

/-- The parameter registers of R33, in order of offset. -/
inductive ParamReg where
  | srcAddr | srcLen | dstAddr | dstLen | scratchAddr | surfBase | surfDim | imapBase | clearVal | blitPos | blitSize
  | blitCfg | clipX | clipY | objId | palSel | palIndex | palData | lerpA | lerpB | lerpDiv | globeRot | globeTilt
  | globeElevAddr | globeElevLen | globeMapAddr | globeMapLen | globeCenter | rotIndex | rotData | tiltIndex
  deriving DecidableEq, Repr

/-- The mapped registers of R33. -/
inductive Reg where
  | id | ctrl | cmd | status | irqEn | errInfo | result0 | result1
  | param (p : ParamReg)
  deriving DecidableEq, Repr

/-- R33: the byte offset of a parameter register. -/
def ParamReg.offset : ParamReg → Nat
  | .srcAddr => 0x020
  | .srcLen => 0x024
  | .dstAddr => 0x028
  | .dstLen => 0x02C
  | .scratchAddr => 0x030
  | .surfBase => 0x034
  | .surfDim => 0x038
  | .imapBase => 0x03C
  | .clearVal => 0x040
  | .blitPos => 0x044
  | .blitSize => 0x048
  | .blitCfg => 0x04C
  | .clipX => 0x050
  | .clipY => 0x054
  | .objId => 0x058
  | .palSel => 0x060
  | .palIndex => 0x064
  | .palData => 0x068
  | .lerpA => 0x06C
  | .lerpB => 0x070
  | .lerpDiv => 0x074
  | .globeRot => 0x080
  | .globeTilt => 0x084
  | .globeElevAddr => 0x088
  | .globeElevLen => 0x08C
  | .globeMapAddr => 0x090
  | .globeMapLen => 0x094
  | .globeCenter => 0x098
  | .rotIndex => 0x09C
  | .rotData => 0x0A0
  | .tiltIndex => 0x0A4

/-- R33: the byte offset of a register. -/
def Reg.offset : Reg → Nat
  | .id => 0x000
  | .ctrl => 0x004
  | .cmd => 0x008
  | .status => 0x00C
  | .irqEn => 0x010
  | .errInfo => 0x014
  | .result0 => 0x018
  | .result1 => 0x01C
  | .param p => p.offset

/-- R33: the register at a byte offset; none where the offset is unmapped. -/
def regAt (off : Nat) : Option Reg :=
  match off with
  | 0x000 => some .id
  | 0x004 => some .ctrl
  | 0x008 => some .cmd
  | 0x00C => some .status
  | 0x010 => some .irqEn
  | 0x014 => some .errInfo
  | 0x018 => some .result0
  | 0x01C => some .result1
  | 0x020 => some (.param .srcAddr)
  | 0x024 => some (.param .srcLen)
  | 0x028 => some (.param .dstAddr)
  | 0x02C => some (.param .dstLen)
  | 0x030 => some (.param .scratchAddr)
  | 0x034 => some (.param .surfBase)
  | 0x038 => some (.param .surfDim)
  | 0x03C => some (.param .imapBase)
  | 0x040 => some (.param .clearVal)
  | 0x044 => some (.param .blitPos)
  | 0x048 => some (.param .blitSize)
  | 0x04C => some (.param .blitCfg)
  | 0x050 => some (.param .clipX)
  | 0x054 => some (.param .clipY)
  | 0x058 => some (.param .objId)
  | 0x060 => some (.param .palSel)
  | 0x064 => some (.param .palIndex)
  | 0x068 => some (.param .palData)
  | 0x06C => some (.param .lerpA)
  | 0x070 => some (.param .lerpB)
  | 0x074 => some (.param .lerpDiv)
  | 0x080 => some (.param .globeRot)
  | 0x084 => some (.param .globeTilt)
  | 0x088 => some (.param .globeElevAddr)
  | 0x08C => some (.param .globeElevLen)
  | 0x090 => some (.param .globeMapAddr)
  | 0x094 => some (.param .globeMapLen)
  | 0x098 => some (.param .globeCenter)
  | 0x09C => some (.param .rotIndex)
  | 0x0A0 => some (.param .rotData)
  | 0x0A4 => some (.param .tiltIndex)
  | _ => none

/-- R33: the bits of a parameter register that are not reserved. -/
def ParamReg.mask : ParamReg → Word
  | .clearVal => 0x000000FF
  | .blitCfg => 0x0000FFFF
  | .objId => 0x0000FFFF
  | .palSel => 0x00000101
  | .palIndex => 0x000000FF
  | .palData => 0x00FFFFFF
  | .lerpA => 0x00FFFFFF
  | .lerpB => 0x00FFFFFF
  | .lerpDiv => 0x0000FFFF
  | .globeRot => 0x0000FFFF
  | .globeTilt => 0x0000FFFF
  | .rotIndex => 0x0000007F
  | .tiltIndex => 0x000001FF
  | .srcAddr | .srcLen | .dstAddr | .dstLen | .scratchAddr | .surfBase | .surfDim | .imapBase | .blitPos | .blitSize
  | .clipX | .clipY | .globeElevAddr | .globeElevLen | .globeMapAddr | .globeMapLen | .globeCenter | .rotData =>
    0xFFFFFFFF

/-- The value of a parameter register. -/
def Params.get (p : Params) : ParamReg → Word
  | .srcAddr => p.srcAddr
  | .srcLen => p.srcLen
  | .dstAddr => p.dstAddr
  | .dstLen => p.dstLen
  | .scratchAddr => p.scratchAddr
  | .surfBase => p.surfBase
  | .surfDim => p.surfDim
  | .imapBase => p.imapBase
  | .clearVal => p.clearVal
  | .blitPos => p.blitPos
  | .blitSize => p.blitSize
  | .blitCfg => p.blitCfg
  | .clipX => p.clipX
  | .clipY => p.clipY
  | .objId => p.objId
  | .palSel => p.palSel
  | .palIndex => p.palIndex
  | .palData => p.palData
  | .lerpA => p.lerpA
  | .lerpB => p.lerpB
  | .lerpDiv => p.lerpDiv
  | .globeRot => p.globeRot
  | .globeTilt => p.globeTilt
  | .globeElevAddr => p.globeElevAddr
  | .globeElevLen => p.globeElevLen
  | .globeMapAddr => p.globeMapAddr
  | .globeMapLen => p.globeMapLen
  | .globeCenter => p.globeCenter
  | .rotIndex => p.rotIndex
  | .rotData => p.rotData
  | .tiltIndex => p.tiltIndex

/-- The parameter registers with one of them set to a value. -/
def Params.set (p : Params) (r : ParamReg) (v : Word) : Params :=
  match r with
  | .srcAddr => { p with srcAddr := v }
  | .srcLen => { p with srcLen := v }
  | .dstAddr => { p with dstAddr := v }
  | .dstLen => { p with dstLen := v }
  | .scratchAddr => { p with scratchAddr := v }
  | .surfBase => { p with surfBase := v }
  | .surfDim => { p with surfDim := v }
  | .imapBase => { p with imapBase := v }
  | .clearVal => { p with clearVal := v }
  | .blitPos => { p with blitPos := v }
  | .blitSize => { p with blitSize := v }
  | .blitCfg => { p with blitCfg := v }
  | .clipX => { p with clipX := v }
  | .clipY => { p with clipY := v }
  | .objId => { p with objId := v }
  | .palSel => { p with palSel := v }
  | .palIndex => { p with palIndex := v }
  | .palData => { p with palData := v }
  | .lerpA => { p with lerpA := v }
  | .lerpB => { p with lerpB := v }
  | .lerpDiv => { p with lerpDiv := v }
  | .globeRot => { p with globeRot := v }
  | .globeTilt => { p with globeTilt := v }
  | .globeElevAddr => { p with globeElevAddr := v }
  | .globeElevLen => { p with globeElevLen := v }
  | .globeMapAddr => { p with globeMapAddr := v }
  | .globeMapLen => { p with globeMapLen := v }
  | .globeCenter => { p with globeCenter := v }
  | .rotIndex => { p with rotIndex := v }
  | .rotData => { p with rotData := v }
  | .tiltIndex => { p with tiltIndex := v }

/-- R31: the identification value. -/
def idValue : Word := 0x48535131

/-- R33: ERR_INFO as the host reads it: while a command runs, the previous command's value (R86), although the register
holds the 0 of the start (R113; log 4). -/
def State.errInfoRead (s : State) : Word :=
  match s.phase with
  | .idle => s.errInfo
  | .running r => r.heldInfo

/-- R33: what a host read of a register returns; reserved bits read 0 (R32 (d)) and CTRL reads 0. -/
def State.readReg (s : State) : Reg → Word
  | .id => idValue
  | .ctrl => 0
  | .cmd => s.cmd
  | .status => s.statusWord
  | .irqEn => s.irqEnWord
  | .errInfo => s.errInfoRead
  | .result0 => s.result0
  | .result1 => s.result1
  | .param p => s.params.get p

/-! ### Starting a command -/

/-- R92: the regions of the command word `v`; an illegal word touches nothing (R112). -/
def State.footOf (s : State) (v : Word) : Footprint :=
  match decodeWord v with
  | .ok i => footprint i s.params s.mem
  | .error _ => Footprint.none

/-- R113: the engine accepts the command word `v` and enters RUNNING; its transition comes after at most `latency` host
turns (log 2). -/
def State.begin (s : State) (v : Word) (latency : Nat) : State :=
  { s with
    cmd := v
    status := s.status.started
    errInfo := 0
    phase := .running
      { cmd := v, snap := s.params, heldInfo := s.errInfo, latency := latency, foot := s.footOf v, contested := [] } }

/-- R370: the host turns a command lasts: any number for a command, none for an illegal word, which ends at once (R112,
log 3). -/
def State.latencyOf (s : State) (v : Word) : Nat :=
  match decodeWord v with
  | .ok _ => Config.cmdLatency s.draws
  | .error _ => 0

/-- R34: a host write to CMD. While RUNNING it is dropped and sets OVR. -/
def State.writeCmd (s : State) (v : Word) : State :=
  match s.phase with
  | .idle => { s.begin v (s.latencyOf v) with draws := s.draws + 1 }
  | .running _ => { s with status := { s.status with ovr := true } }

/-! ### Reset -/

/-- R362: the running command, if there is one, is aborted: a free number of its writes was made (log 11), its staged
results are discarded, and no flag tells of it. -/
def State.abort (s : State) : State :=
  match s.phase with
  | .idle => s
  | .running r =>
    let w := { s.work (some (Config.abortPrefix s.draws)) with draws := s.draws + 1 }
    let t :=
      match decodeWord r.cmd with
      | .error _ => s
      | .ok i =>
        match body i s.view w with
        | .ok _ w' => s.land w'
        | .error _ w' => s.land w'
    { State.settle r.contested t with phase := .idle }

/-- R361 (a), R362: every register of R33 but ID at its reset value. -/
def State.clearRegs (s : State) : State :=
  { s with
    cmd := 0
    status := Status.zero
    doneIe := false
    errIe := false
    errInfo := 0
    result0 := 0
    result1 := 0
    params := Params.zero }

/-- R362: `SoftReset()`. The internal RAMs keep their contents (R41). -/
def State.softReset (s : State) : State := s.abort.clearRegs

/-- R360, R361: power-on reset. The internal RAMs then hold new unspecified values (R41); system memory is not part of
the block (R361 (f)) but keeps what a command had written (log 12). -/
def State.powerOnReset (s : State) : State :=
  { s.abort.clearRegs with pal := [], rotStart := [], rotLen := [], rotPhase := [], epoch := s.epoch + 1 }

/-! ### Host accesses to the window -/

/-- R33, R32: a host write of `v` to a register. Read-only registers ignore it, reserved bits stay 0. -/
def State.writeReg (s : State) (r : Reg) (v : Word) : State :=
  match r with
  | .id => s
  | .ctrl => if bitSet v 0 then s.softReset else s
  | .cmd => s.writeCmd v
  | .status => { s with status := s.status.acknowledge v }
  | .irqEn => { s with doneIe := bitSet v 0, errIe := bitSet v 1 }
  | .errInfo => s
  | .result0 => s
  | .result1 => s
  | .param p => { s with params := s.params.set p (v &&& p.mask) }

/-- R30, R32 (a), (b): the register an access reaches: aligned, 32 bits wide, at a mapped offset of the window. An access
outside the window does not reach the block (log 14). -/
def State.target (s : State) (addr width : Nat) : Option Reg :=
  if width = 4 ∧ s.plat.regBase ≤ addr ∧ addr < s.plat.regBase + 256 ∧ (addr - s.plat.regBase) % 4 = 0 then
    regAt (addr - s.plat.regBase)
  else none

/-- R32: what a host read at a bus address returns. -/
def State.busRead (s : State) (addr width : Nat) : Word :=
  match s.target addr width with
  | some r => s.readReg r
  | none => 0

/-- R32: a host write at a bus address. -/
def State.busWrite (s : State) (addr width : Nat) (v : Word) : State :=
  match s.target addr width with
  | some r => s.writeReg r v
  | none => s

end Sys2Proof.Machine
end

