-- ==== Sys2Proof/Machine/Turn.lean ====
section
/-! DEFINITION. One turn of the machine: a host turn performs the next access of `inbox` (R6, R32, R86), an engine turn
performs the running command (R6, R113). -/

namespace Sys2Proof.Machine

/-- R42: whether the engine runs a command, and which. -/
def State.current (s : State) : Option Running :=
  match s.phase with
  | .idle => none
  | .running r => some r

/-- R86: a host access to system memory that the running command forbids: a write to a byte it reads or writes, or a read
of a byte it writes (R92). A byte touched so before stays contested. -/
def Running.forbids (r : Running) (a : Nat) (isWrite : Bool) : Bool :=
  r.contested.contains a || inRegions r.foot.writes a || (isWrite && inRegions r.foot.reads a)

/-- R86: the byte at `a` becomes contested. -/
def State.contest (s : State) (r : Running) (a : Nat) : State :=
  { s with phase := .running { r with contested := a :: r.contested } }

/-- R86: a host read of a forbidden byte returns an unspecified value, and the byte is contested. -/
def State.contestedRead (s : State) (r : Running) (a : Nat) : State :=
  { s.contest r a with busData := (Config.contestedByte s.draws).setWidth 32, draws := s.draws + 1 }

/-- A host read of the byte at `a`, which exists. -/
def State.hostRead (s : State) (a : Nat) : State :=
  match s.current with
  | some r => if r.forbids a false then s.contestedRead r a else { s with busData := (s.byte a).setWidth 32 }
  | none => { s with busData := (s.byte a).setWidth 32 }

/-- A host write of the byte at `a`, which exists. A forbidden write leaves the byte contested: what it holds is
unspecified until the command ends, and then it is a free value (log 10). -/
def State.hostWrite (s : State) (a : Nat) (x : Byte) : State :=
  match s.current with
  | some r => if r.forbids a true then s.contest r a else { s with mem := s.mem.write a x }
  | none => { s with mem := s.mem.write a x }

/-- One access of the host or the platform (R6, R32, R360). -/
def State.input (s : State) : Input → Host.Outcome State Fault Refusal
  | .read addr width => .next { s with busData := s.busRead addr width }
  | .write addr width v => .next (s.busWrite addr width v)
  | .memRead a => if a < s.plat.memSize then .next (s.hostRead a) else .fault (.noSuchMemory a)
  | .memWrite a x => if a < s.plat.memSize then .next (s.hostWrite a x) else .fault (.noSuchMemory a)
  | .wait =>
    if s.busy then .next { s with busData := s.statusWord, inbox := .wait :: s.inbox }
    else .next { s with busData := s.statusWord }
  | .powerOn => .next s.powerOnReset

/-- A host turn: the next access is made. With none left the block does nothing (R346). -/
def State.hostTurn (s : State) : Host.Outcome State Fault Refusal :=
  match s.inbox with
  | [] => .next s
  | i :: rest => State.input { s with inbox := rest } i

/-- R112: an illegal command word ends at once with ILLEGAL_CMD and the whole word. -/
def State.illegal (s : State) (v : Word) : State := s.raiseError .illegalCmd v.toNat

/-- R86: what the engine's transition leaves once the contested bytes have been settled. -/
def settled : List Nat → Host.Outcome State Fault Refusal → Host.Outcome State Fault Refusal
  | [], o => o
  | a :: as, .next t => .next (State.settle (a :: as) t)
  | _ :: _, .fault f => .fault f
  | _ :: _, .refused r => .refused r

/-- R113: the engine's transition: the command word is decoded and the command runs to its end, or the word is illegal. -/
def State.engineTurn (s : State) (r : Running) : Host.Outcome State Fault Refusal :=
  match decodeWord r.cmd with
  | .ok i => settled r.contested (exec i s)
  | .error _ => settled r.contested (.next (s.illegal r.cmd))

/-- Whose turn it is (log 2): the host's while the engine is IDLE or its command still lasts and the host has an access to
make, otherwise the engine's. -/
def State.turn (s : State) : Host.Outcome State Fault Refusal :=
  match s.phase with
  | .idle => s.hostTurn
  | .running r =>
    match r.latency, s.inbox with
    | 0, _ => s.engineTurn r
    | _ + 1, [] => s.engineTurn r
    | n + 1, _ :: _ => State.hostTurn { s with phase := .running { r with latency := n } }

/-- The machine about to run the command word `v`: the host's write of it to CMD has been accepted (R34, R113) and it is
the engine's turn. -/
def State.placeCommand (s : State) (v : Word) : State := s.begin v 0

end Sys2Proof.Machine
end

