-- ==== Sys2Proof/Machine/Step.lean ====
section
/-! DEFINITION. One step of the machine, and the placing of one command where the next step runs it. -/

namespace Sys2Proof.Machine

/-- R6: one step: a host access or one command's transition. -/
def step (s : State) : Host.Outcome State Fault Refusal := s.turn

/-- The command word of `nbits` bits `w` placed where the very next step runs it: a host write to CMD has been accepted
(log 1). -/
def State.withFetchWord (s : State) (nbits w : Nat) : State := s.placeCommand (BitVec.ofNat 32 (w % 2 ^ nbits))

end Sys2Proof.Machine
end

