-- ==== Sys2Proof/Machine/HostProgram.lean ====
section
/-! DEFINITION. The host programs of R124: each statement and pseudo-statement as the bus accesses it stands for. -/

namespace Sys2Proof.Machine

/-- R124: a statement of a host program. A `wr` with named fields is `wr` with the value they assemble to. -/
inductive Stmt where
  /-- `wr REG, v` -/
  | wr (r : Reg) (v : Word)
  /-- `rd REG` -/
  | rd (r : Reg)
  /-- `cmd OPNAME` -/
  | cmd (i : Instr)
  /-- `wait` -/
  | wait
  /-- `mem a: b0 b1 …` -/
  | mem (a : Nat) (bytes : List Byte)
  /-- `run OPNAME` -/
  | run (i : Instr)
  /-- `ack` -/
  | ack
  /-- `hsq s, n, d, c` -/
  | hsq (src len dst cap : Word)
  /-- `palup s, n, bank` -/
  | palup (src len : Word) (bank : Bool)
  /-- `surface base, w, h` -/
  | surface (base : Word) (w h : BitVec 16)
  deriving DecidableEq, Repr

/-- R124: a 32-bit write of `v` to a register of the window at `base`. -/
def regWrite (base : Nat) (r : Reg) (v : Word) : Input := .write (base + r.offset) 4 v

/-- R124: the bytes `b0, b1, …` written at `a, a + 1, …`. -/
def memWrites : Nat → List Byte → List Input
  | _, [] => []
  | a, b :: bs => .memWrite a b :: memWrites (a + 1) bs

/-- R124: the bus effect of a statement, for a window at `base`. -/
def Stmt.expand (base : Nat) : Stmt → List Input
  | .wr r v => [regWrite base r v]
  | .rd r => [.read (base + r.offset) 4]
  | .cmd i => [regWrite base .cmd (encode i)]
  | .wait => [.wait]
  | .mem a bs => memWrites a bs
  | .run i => [regWrite base .cmd (encode i), .wait]
  | .ack => [regWrite base .status 0x0000000E]
  | .hsq s n d c =>
    [regWrite base (.param .srcAddr) s, regWrite base (.param .srcLen) n, regWrite base (.param .dstAddr) d,
      regWrite base (.param .dstLen) c, regWrite base .cmd (encode .hsqDecompress), .wait]
  | .palup s n bank =>
    [regWrite base (.param .srcAddr) s, regWrite base (.param .srcLen) n,
      regWrite base (.param .palSel) (if bank then 1 else 0), regWrite base .cmd (encode .palApply), .wait]
  | .surface b w h => [regWrite base (.param .surfBase) b, regWrite base (.param .surfDim) (h ++ w)]

/-- R124: a program placed before the block, in front of the accesses already waiting (log 1). -/
def State.load (s : State) (prog : List Stmt) : State :=
  { s with inbox := prog.flatMap (Stmt.expand s.plat.regBase) ++ s.inbox }

end Sys2Proof.Machine
end

