-- ==== Sys2Proof/Safety.lean ====
section
/-! DEFINITION. The terms claims use: the invariant every step keeps, and which regions of system memory a command can
read and write without an error. -/

namespace Sys2Proof.Machine

/-- The constraints on the OPEN parameters (spec/92_eei_decisions.md, open parameters): MEM_SIZE is 1 to 2^32 and the
register window is 256-byte aligned. -/
def Platform.wf (p : Platform) : Prop := 1 ≤ p.memSize ∧ p.memSize ≤ 2 ^ 32 ∧ p.regBase % 256 = 0

/-- R32 (d), R33: every reserved bit of every parameter register is 0. -/
def Params.wf (p : Params) : Prop := ∀ r : ParamReg, p.get r &&& r.mask = p.get r

/-- Every key of a table lies below a bound. -/
def keysBelow {α : Type} (t : List (Nat × α)) (n : Nat) : Prop := ∀ c ∈ t, c.1 < n

/-- R42, R113, R34: what holds while a command runs: its snapshot has no reserved bit set, the flags and ERR_INFO are as
the start left them, CMD still holds its word, and the contested bytes exist. -/
def State.phaseInv (s : State) : Prop :=
  match s.phase with
  | .idle => True
  | .running r =>
    r.snap.wf ∧ s.status.done = false ∧ s.status.err = false ∧ s.errInfo = 0 ∧ s.cmd = r.cmd
      ∧ ∀ a ∈ r.contested, a < s.plat.memSize

/-- The invariant of the machine: legal OPEN parameters, memory in canonical form within MEM_SIZE (R80), RAM tables within
their sizes (R38, R39), reserved bits 0 (R33), ERRCODE one of R331 and not NONE exactly when ERR is set (R35), and a
consistent phase (R42). -/
structure State.Inv (s : State) : Prop where
  plat : s.plat.wf
  memCanonical : s.mem.wf
  memInside : keysBelow s.mem s.plat.memSize
  palSorted : tableSorted s.pal
  palInside : keysBelow s.pal 512
  rotStartSorted : tableSorted s.rotStart
  rotStartInside : keysBelow s.rotStart 99
  rotLenSorted : tableSorted s.rotLen
  rotLenInside : keysBelow s.rotLen 99
  rotPhaseSorted : tableSorted s.rotPhase
  rotPhaseInside : keysBelow s.rotPhase 99
  params : s.params.wf
  errFlag : s.status.err = true ↔ s.status.errcode ≠ 0
  errCode : s.status.errcode.toNat ≤ 0x0E
  phase : s.phaseInv

/-- Every byte of a region exists and is not contested, so the engine reads it as it stands (R80, R86). -/
def State.readable (s : State) (base n : Nat) : Prop :=
  ∀ k, k < n → base + k < s.plat.memSize ∧ base + k ∉ s.contested

/-- Every byte of a region exists, so the engine can write it (R80). -/
def State.writable (s : State) (base n : Nat) : Prop := ∀ k, k < n → base + k < s.plat.memSize

/-- Two regions have no byte in common. -/
def apart (a n b m : Nat) : Prop := a + n ≤ b ∨ b + m ≤ a

/-- An address lies in a region. -/
def inRegion (base n a : Nat) : Prop := base ≤ a ∧ a < base + n

/-- The bytes of a list stand in memory from `base` on. -/
def State.holds (s : State) (base : Nat) (bs : List Byte) : Prop :=
  ∀ k b, bs[k]? = some b → s.byte (base + k) = b

/-- An access of the host to system memory names a byte that exists. -/
def Input.exists (memSize : Nat) : Input → Prop
  | .memRead a => a < memSize
  | .memWrite a _ => a < memSize
  | _ => True

end Sys2Proof.Machine
end

