-- ==== Sys2Proof/Certificates/Slice0/Obligations.lean ====
section
/-! DEFINITION. The statements for the provers, and the plain functions over lists they are said with.

`exec i s` reads its operands from `s.snap`: the running command's snapshot (R37); where `s` is not RUNNING, which no step
meets, the live registers stand in for it (log 18). -/

open Sys2Proof Sys2Proof.Machine

namespace Sys2Proof.Claims

/-- The opcode map of R111, written out. -/
def opcodeTable : List (Word × Instr) :=
  [(0x00, .nop), (0x01, .hsqProbe), (0x02, .hsqDecompress), (0x10, .palApply), (0x11, .palRead), (0x12, .palWrite),
    (0x13, .palDisplay), (0x14, .palCopy), (0x15, .palLerp), (0x16, .palExport), (0x20, .sprHeader), (0x21, .surfClear),
    (0x22, .imapClear), (0x23, .rleDecode), (0x24, .blit), (0x30, .rotWrite), (0x31, .rotRead), (0x32, .tiltRead),
    (0x33, .globePhase), (0x34, .globeDraw)]

/-- A command's end without an error: DONE set, the phase IDLE, everything else as it stands (R334). -/
def ended (s : State) : State := { s with status := { s.status with done := true }, phase := .idle }

/-- A command's end in error (R330), with no partial effect. -/
def failed (s : State) (code : BitVec 8) (info : Word) : State :=
  { s with status := { s.status with errcode := code, err := true, done := true }, errInfo := info, phase := .idle }

/-! ### HSQ streams (R116) -/

/-- One item of a token stream: a bit of the bit queue, or a byte of the byte sequence. -/
inductive Item where
  | bit (b : Bool)
  | byte (x : Byte)
  deriving DecidableEq, Repr

/-- A token of R116 that is not the end token. -/
inductive Token where
  | literal (x : Byte)
  /-- the two count bits and the distance byte -/
  | short (c1 c0 : Bool) (b : Byte)
  /-- a word whose count field is not 0 -/
  | long (w : BitVec 16)
  /-- a word whose count field is 0, and an extended count that is not 0 -/
  | extended (w : BitVec 16) (e : Byte)
  deriving DecidableEq, Repr

/-- A word's two bytes, low byte first (R83). -/
def wordItems (w : BitVec 16) : List Item := [.byte (w.extractLsb' 0 8), .byte (w.extractLsb' 8 8)]

/-- R116: a token as bits and bytes. -/
def Token.items : Token → List Item
  | .literal x => [.bit true, .byte x]
  | .short c1 c0 b => [.bit false, .bit false, .bit c1, .bit c0, .byte b]
  | .long w => .bit false :: .bit true :: wordItems w
  | .extended w e => .bit false :: .bit true :: wordItems w ++ [.byte e]

/-- R116: the end token; its distance field is free (R166). -/
def endItems (w : BitVec 16) : List Item := .bit false :: .bit true :: wordItems w ++ [.byte 0]

/-- The bits among the items, in order. -/
def itemBits : List Item → List Bool
  | [] => []
  | .bit b :: is => b :: itemBits is
  | .byte _ :: is => itemBits is

/-- A number from its bits, least significant first (R164). -/
def bitsValue : List Bool → Nat
  | [] => 0
  | b :: bs => b.toNat + 2 * bitsValue bs

/-- R164: the byte sequence of the items when `n` bits are left in the queue: a refill word, holding the next 16 bits
least significant first (unused ones 0), stands where a bit is needed and none is left. -/
def layout : Nat → List Item → List Byte
  | _, [] => []
  | 0, .bit b :: is =>
    let w := bitsValue ((b :: itemBits is).take 16)
    BitVec.ofNat 8 w :: BitVec.ofNat 8 (w / 256) :: layout 15 is
  | n + 1, .bit _ :: is => layout n is
  | n, .byte x :: is => x :: layout n is

/-- R167: the output after copying `n` bytes from `dist` behind its end, one at a time. -/
def copyForward (dist : Nat) : Nat → List Byte → List Byte
  | 0, out => out
  | n + 1, out => copyForward dist n (out ++ [out.getD (out.length - dist) 0])

/-- R166: the distance and the number of bytes of a back-reference; none for a literal. -/
def Token.copy : Token → Option (Nat × Nat)
  | .literal _ => none
  | .short c1 c0 b => some (256 - b.toNat, 2 * c1.toNat + c0.toNat + 2)
  | .long w => some (8192 - w.toNat / 8, w.toNat % 8 + 2)
  | .extended w e => some (8192 - w.toNat / 8, e.toNat + 2)

/-- R165: the output after one token. -/
def Token.apply (out : List Byte) (k : Token) : List Byte :=
  match k, k.copy with
  | .literal x, _ => out ++ [x]
  | _, some (dist, n) => copyForward dist n out
  | _, none => out

/-- R116: the count fields of a token are those of its form. -/
def Token.grammatical : Token → Prop
  | .long w => w.toNat % 8 ≠ 0
  | .extended w e => w.toNat % 8 = 0 ∧ e.toNat ≠ 0
  | _ => True

/-- R116, R167: the token is one a conforming stream may hold after this output. -/
def Token.conforms (out : List Byte) (k : Token) : Prop :=
  k.grammatical ∧ ∀ d n, k.copy = some (d, n) → d ≤ out.length

/-- Every token of a stream conforms to the output of the tokens before it. -/
def conforming : List Byte → List Token → Prop
  | _, [] => True
  | out, k :: ks => k.conforms out ∧ conforming (k.apply out) ks

/-- The output of a stream's tokens. -/
def expandTokens (out : List Byte) (ks : List Token) : List Byte := ks.foldl Token.apply out

/-- R115: a resource: six header bytes and the items that follow them. -/
def hsqResource (h0 h1 h2 h3 h4 h5 : Byte) (is : List Item) : List Byte := [h0, h1, h2, h3, h4, h5] ++ layout 0 is

/-- R115, R116: a compressed resource: six header bytes, the tokens and the end token. -/
def hsqStream (h0 h1 h2 h3 h4 h5 : Byte) (ks : List Token) (w : BitVec 16) : List Byte :=
  hsqResource h0 h1 h2 h3 h4 h5 (ks.flatMap Token.items ++ endItems w)

/-! ### Palette update streams (R117) -/

/-- An item of an update stream: the skip marker with its three bytes, or a run. -/
inductive PalItem where
  | skip (a b c : Byte)
  | run (index count : Byte) (colours : List Rgb)
  deriving DecidableEq, Repr

/-- R117: the bytes of an item. -/
def PalItem.coded : PalItem → List Byte
  | .skip a b c => [0x01, 0x00, a, b, c]
  | .run index count colours => index :: count :: colours.flatMap fun c => [c.r, c.g, c.b]

/-- R117: a run is neither the skip marker nor the terminator, and holds as many triples as its count says. -/
def PalItem.ok : PalItem → Prop
  | .skip _ _ _ => True
  | .run index count colours =>
    ¬ (index = 0x01 ∧ count = 0x00) ∧ ¬ (index = 0xFF ∧ count = 0xFF)
      ∧ colours.length = if count = 0 then 256 else count.toNat

/-- R180: a bank with consecutive slots set from `index` on. A slot past 255 is no entry of the bank. -/
def setSlots (bank : Nat → Rgb) (index : Nat) : List Rgb → Nat → Rgb
  | [] => bank
  | c :: cs => setSlots (fun i => if i = index then c else bank i) (index + 1) cs

/-- R180: a bank after an item. -/
def PalItem.apply (bank : Nat → Rgb) : PalItem → Nat → Rgb
  | .skip _ _ _ => bank
  | .run index _ colours => setSlots bank index.toNat colours

/-- R180: what takes effect of the items of a stream that ends after `k` bytes: the items that are whole, and of the
one that is not the triples that are. -/
def cutItems : Nat → List PalItem → List PalItem
  | _, [] => []
  | k, it :: its =>
    if it.coded.length ≤ k then it :: cutItems (k - it.coded.length) its
    else
      match it with
      | .skip _ _ _ => []
      | .run index count colours => [.run index count (colours.take ((k - 2) / 3))]

/-! ### Host turns (logs 1 and 2) -/

/-- It is the host's turn when the host has an access to make: the engine is IDLE, or its command lasts. -/
def hostsTurn (s : State) : Prop :=
  match s.phase with
  | .idle => True
  | .running r => 0 < r.latency

/-- The state in which the host's access is made: the accesses left are `rest`, and a running command has one host turn
fewer. -/
def onHostTurn (s : State) (rest : List Input) : State :=
  { s with
    inbox := rest
    phase :=
      match s.phase with
      | .idle => .idle
      | .running r => .running { r with latency := r.latency - 1 } }

/-! ### RLE streams (R119) -/

/-- A run of an RLE stream. -/
inductive Run where
  | same (n : Nat) (x : Byte)
  | plain (bs : List Byte)
  deriving DecidableEq, Repr

/-- R119: the lengths a run can have. -/
def Run.ok : Run → Prop
  | .same n _ => 2 ≤ n ∧ n ≤ 129
  | .plain bs => 1 ≤ bs.length ∧ bs.length ≤ 128

/-- R119: the bytes of the stream that a run takes. -/
def Run.coded : Run → List Byte
  | .same n x => [BitVec.ofNat 8 (257 - n), x]
  | .plain bs => BitVec.ofNat 8 (bs.length - 1) :: bs

/-- R119: the bytes a run stands for. -/
def Run.plainBytes : Run → List Byte
  | .same n x => List.replicate n x
  | .plain bs => bs

/-! ### Drawing (R233 to R241) -/

/-- R237 to R241: the colour that destination pixel (x, y) of the image gets, from the pixel buffer at `pix`; none where
the source pixel is transparent. A scale code of 0 is the factor 256, one source pixel a step. -/
def imagePixel (s : State) (pix x y : Nat) : Option Byte :=
  let p := s.snap
  if p.bpp8 then
    let b := s.byte (pix + y * p.blitW + x)
    if p.palMode = 255 ∧ b = 0 then none else some b
  else
    let f := scaleFactor p.scale
    let sx := x * f / 256
    let sy := y * f / 256
    let b := s.byte (pix + sy * p.pitch + sx / 2)
    let n := if sx % 2 = 0 then b.toNat % 16 else b.toNat / 16
    if n = 0 then none else some (BitVec.ofNat 8 (n + p.palMode))

/-- R236: the destination coordinates of image pixel (x, y) of a dw × dh image. -/
def destPoint (p : Params) (dw dh x y : Nat) : Int × Int :=
  (p.blitX + (if p.flipX then (dw : Int) - x - 1 else x), p.blitY + (if p.flipY then (dh : Int) - y - 1 else y))

/-- R234: a point lies in the clip rect (the surface bounds where CLIP_EN = 0) and in the surface. -/
def drawable (p : Params) (q : Int × Int) : Prop :=
  (p.clipEn = true → p.clipX0 ≤ q.1 ∧ q.1 < p.clipX1 ∧ p.clipY0 ≤ q.2 ∧ q.2 < p.clipY1)
    ∧ 0 ≤ q.1 ∧ q.1 < p.surfW ∧ 0 ≤ q.2 ∧ q.2 < p.surfH

/-- R45, R46: the offset of a surface point. -/
def pointOffset (p : Params) (q : Int × Int) : Nat := q.2.toNat * p.surfW + q.1.toNat

/-- Image pixel (x, y) is plotted with colour `c` at surface point `q`. -/
def plotted (s : State) (pix dw dh x y : Nat) (c : Byte) (q : Int × Int) : Prop :=
  x < dw ∧ y < dh ∧ imagePixel s pix x y = some c ∧ q = destPoint s.snap dw dh x y ∧ drawable s.snap q

/-- R233: the image's size: the sprite's, or the scaled size of R240 for a 4bpp sprite with a scale code. -/
def imageSize (p : Params) : Nat × Nat :=
  if p.bpp8 = true ∨ p.scale = 0 then (p.blitW, p.blitH)
  else (p.blitW * 256 / scaleFactor p.scale, p.blitH * 256 / scaleFactor p.scale)

/-! ### The globe (R259 to R264) -/

/-- R256, R257: the rotation table after `ComputePhases`. The phase of an entry whose length was never written is a free
value (log 31). -/
def phasedRot (s : State) (i : Nat) : RotEntry :=
  { s.rotAt i with
    phase :=
      if i = 0 then BitVec.ofNat 32 (398 * s.snap.rot / 65536 * 65536)
      else
        match tableGet s.rotLen i with
        | some len => BitVec.ofNat 32 (2 * (398 * s.snap.rot / 65536 * 65536 / 398) * len.toNat)
        | none => Config.unwrittenLenPhase s.draws i }

/-- R260 to R263: the colour of one pixel, as a function of memory and of the rotation table, or the code and the
information of the error that ends the draw there. `e` is the column's elevation byte. -/
def globePixel (G : GlobeFns) (s : State) (rot : Nat → RotEntry) (half : Half) (row x : Nat) (e : Byte) (side : Side) :
    Except (BitVec 8 × Int) Byte :=
  let p := s.snap
  let elev := if half = .lower then -sext 8 e.toNat else sext 8 e.toNat
  let i := elev + 196 + min (max p.tiltRaw (-96)) 96
  if i < 0 ∨ 391 < i then .error (0x0C, i)
  else
    let sec := (tilt i.toNat).1
    let lat := (tilt i.toNat).2
    if p.globeElevLen.toNat ≤ G.auxRs x lat then .error (0x02, G.auxRs x lat)
    else if p.globeElevLen.toNat ≤ G.auxSd x lat then .error (0x02, G.auxSd x lat)
    else
      let rs := (s.byte (p.globeElevAddr.toNat + G.auxRs x lat)).toNat
      let sd := sext 8 (s.byte (p.globeElevAddr.toNat + G.auxSd x lat)).toNat
      if 98 < rs then .error (0x0D, rs)
      else
        let o := G.offset
          { sec := sec, lat := lat, col := x, row := row, half := half, side := side, rowSel := rs, delta := sd
            entry := rot rs }
        let k := if o < 0 then o + (rot rs).len.toNat else o
        if k < 0 ∨ p.globeMapLen.toNat ≤ k then .error (0x0E, k)
        else .ok (globeColour s.plat (s.byte (p.globeMapAddr.toNat + k.toNat)))

/-- R259: where a pixel lies. -/
def globePoint (p : Params) (half : Half) (row x : Nat) (side : Side) : Int × Int :=
  (if side = .left then p.centerX - (x + 1) else p.centerX + x,
    if half = .upper then p.centerY - row else p.centerY + row)

/-- R259: the pixels of one half in the order they are drawn, each with its point: row by row, column by column, left
before right. A row is the list of its elevation bytes. -/
def globePixels (G : GlobeFns) (s : State) (rot : Nat → RotEntry) (half : Half) (rows : List (List Byte)) :
    List ((Int × Int) × Except (BitVec 8 × Int) Byte) :=
  rows.zipIdx.flatMap fun (es, row) => es.zipIdx.flatMap fun (e, x) =>
    [Side.left, Side.right].map fun side => (globePoint s.snap half row x side, globePixel G s rot half row x e side)

/-- R264: memory after the pixels are drawn over `m`, up to the first that ends the draw in an error, and that error. -/
def drawPixels (p : Params) :
    List ((Int × Int) × Except (BitVec 8 × Int) Byte) → (Nat → Byte) → (Nat → Byte) × Option (BitVec 8 × Int)
  | [], m => (m, none)
  | (_, .error e) :: _, m => (m, some e)
  | (q, .ok c) :: js, m =>
    drawPixels p js
      (if 0 ≤ q.1 ∧ q.1 < p.surfW ∧ 0 ≤ q.2 ∧ q.2 < p.surfH then
        fun a => if a = p.surfBase.toNat + pointOffset p q then c else m a
      else m)

/-- R121, R259: how a column list ends: with its terminator, or with the elevation resource, between two runs or
inside a run of which only some elevation bytes are there. -/
inductive ListEnd where
  | stop
  | missing
  | partway (n : Nat) (es : List Byte)
  deriving DecidableEq, Repr

/-- R121: the bytes of a run header and its elevations. -/
def codedRow (n : Nat) (es : List Byte) : List Byte := BitVec.ofNat 8 (256 - n) :: es

/-- R121: the bytes of a column list. -/
def columnList (rows : List (List Byte)) (fin : ListEnd) : List Byte :=
  rows.flatMap (fun es => codedRow es.length es) ++
    match fin with
    | .stop => [0]
    | .missing => []
    | .partway n es => codedRow n es

/-- R259: the pixels of a draw over a column list, and the SRC_EOF that ends it where the list has no terminator. -/
def drawnPixels (G : GlobeFns) (s : State) (rot : Nat → RotEntry) (rows : List (List Byte)) (fin : ListEnd) :
    List ((Int × Int) × Except (BitVec 8 × Int) Byte) :=
  let eof := ((0, 0), .error (0x02, (s.snap.globeElevLen.toNat : Int)))
  match fin with
  | .stop => globePixels G s rot .upper rows ++ globePixels G s rot .lower rows
  | .missing => globePixels G s rot .upper rows ++ [eof]
  | .partway _ es => globePixels G s rot .upper (rows ++ [es]) ++ [eof]

end Sys2Proof.Claims

open Sys2Proof.Claims

/-! ### Encoding -/

/-- R111, R112: a word is the command of a row of the opcode map, or it is no command. -/
def Obligations.WordDecodesExactlyByTheOpcodeMap : Prop :=
  ∀ (w : Word) (i : Instr), decodeWord w = .ok i ↔ (w, i) ∈ opcodeTable

/-- R83, R110: decoding bytes and encoding a command agree in both directions: a byte string decodes to a command and a
rest exactly when it is that command's four bytes followed by that rest. -/
def Obligations.DecodeAndEncodeAgreeOnBytes : Prop :=
  ∀ (bs rest : List Byte) (i : Instr), decode bs = .ok (i, rest) ↔ bs = encodeBytes i ++ rest

/-- R111: words of each family decode to the commands they stand for (a sanity statement). -/
def Obligations.SampleWordsDecode : Prop :=
  decode [0x00, 0, 0, 0] = .ok (.nop, []) ∧ decode [0x02, 0, 0, 0] = .ok (.hsqDecompress, [])
    ∧ decode [0x15, 0, 0, 0] = .ok (.palLerp, []) ∧ decode [0x20, 0, 0, 0] = .ok (.sprHeader, [])
    ∧ decode [0x24, 0, 0, 0] = .ok (.blit, []) ∧ decode [0x34, 0, 0, 0] = .ok (.globeDraw, [])
    ∧ decode [0x02, 1, 0, 0] = .error .reservedField ∧ decode [0x03, 0, 0, 0] = .error .reservedOp

/-! ### Starting and running commands -/

/-- R113: a step on the engine's turn runs the decoded command, and then the bytes the host touched against R86 are
settled; with none, the step is exactly `exec`. -/
def Obligations.StepRunsTheDecodedCommand : Prop :=
  ∀ (s : State) (r : Running) (i : Instr), s.phase = .running r → decodeWord r.cmd = .ok i →
    (r.latency = 0 ∨ s.inbox = []) →
    (r.contested = [] → step s = exec i s)
      ∧ ∃ t, exec i s = .next t ∧ step s = .next (State.settle r.contested t)

/-- R112, R113 (log 3: "at once" is read as latency 0, whatever accesses wait): an illegal word written to CMD is
accepted, and the next step ends it with ILLEGAL_CMD and the whole word; system memory, the palette RAM, the
rotation-table RAM and every other register stay as they are. -/
def Obligations.IllegalWordEndsWithIllegalCmd : Prop :=
  ∀ (s : State) (v : Word), s.phase = .idle → (¬ ∃ i, (v, i) ∈ opcodeTable) →
    ∃ t, step (s.busWrite (s.plat.regBase + 0x008) 4 v) = .next t
      ∧ t = { failed s 0x01 v with cmd := v, draws := t.draws }

/-- R34, R113, R37, R86: a host write to CMD while IDLE latches the word, clears DONE, ERR, ERRCODE and ERR_INFO,
copies the parameter registers and enters RUNNING, and every other register, RAM and byte of memory stays; while
RUNNING it is dropped and sets OVR. A read of CMD returns the word last latched. While the command runs the ERR_INFO
register holds the 0 of its start (R113), and a host read of ERR_INFO returns the previous command's value (R86); that
the two rules are met so is log 4. -/
def Obligations.CmdWriteStartsOrIsDropped : Prop :=
  ∀ (s : State) (v : Word),
    let t := s.busWrite (s.plat.regBase + 0x008) 4 v
    (s.phase = .idle →
      (∃ r : Running, r.cmd = v ∧ r.snap = s.params ∧
        t = { s with
          cmd := v, errInfo := 0, phase := .running r, draws := t.draws
          status := { s.status with done := false, err := false, errcode := 0 } })
      ∧ t.busy = true ∧ t.busRead (s.plat.regBase + 0x008) 4 = v
      ∧ t.busRead (s.plat.regBase + 0x014) 4 = s.errInfo)
    ∧ (s.busy = true →
      t = { s with status := { s.status with ovr := true } } ∧ t.busRead (s.plat.regBase + 0x008) 4 = s.cmd)

/-- R113, R370: a legal command word written to CMD by a host that then makes no access: the very next step is `exec` of
the decoded command, on the state the write left, whatever the command's latency (log 2). -/
def Obligations.AcceptedCommandRuns : Prop :=
  ∀ (s : State) (v : Word) (i : Instr), s.phase = .idle → s.inbox = [] → decodeWord v = .ok i →
    let t := s.busWrite (s.plat.regBase + 0x008) 4 v
    step t = exec i t ∧ t.snap = s.params ∧ t.contested = [] ∧ t.mem = s.mem ∧ t.pal = s.pal
      ∧ t.rotStart = s.rotStart ∧ t.rotLen = s.rotLen ∧ t.rotPhase = s.rotPhase

/-- R330, R334, R339: every command, on every state, ends in one transition: the engine is IDLE, DONE is set, and no
register but STATUS, ERR_INFO, RESULT0 and RESULT1 changes; OVR is kept. -/
def Obligations.EveryCommandEndsIdleAndDone : Prop :=
  ∀ (i : Instr) (s : State), ∃ t, exec i s = .next t ∧ t.phase = .idle ∧ t.status.done = true
    ∧ t.status.ovr = s.status.ovr ∧ t.plat = s.plat ∧ t.inbox = s.inbox ∧ t.busData = s.busData ∧ t.cmd = s.cmd
    ∧ t.doneIe = s.doneIe ∧ t.errIe = s.errIe ∧ t.params = s.params ∧ t.epoch = s.epoch

/-- R35, R333: a command that ends in error leaves RESULT0, RESULT1, COMPRESSED and VALID unchanged, and its ERRCODE
is one of R331's; one that ends without an error leaves ERRCODE and ERR_INFO unchanged. -/
def Obligations.ErrorEndLeavesResults : Prop :=
  ∀ (i : Instr) (s t : State), s.status.err = false → exec i s = .next t →
    (t.status.err = true → t.result0 = s.result0 ∧ t.result1 = s.result1 ∧ t.status.compressed = s.status.compressed
      ∧ t.status.valid = s.status.valid ∧ 0x01 ≤ t.status.errcode.toNat ∧ t.status.errcode.toNat ≤ 0x0E)
    ∧ (t.status.err = false → t.status.errcode = s.status.errcode ∧ t.errInfo = s.errInfo)

/-- R35, R38, R39, R82: only HSQ_PROBE and HSQ_DECOMPRESS change COMPRESSED and only SPR_HEADER changes VALID; only
PAL_APPLY, PAL_WRITE and PAL_COPY change the palette RAM, only ROT_WRITE changes a rotation entry's start and length,
and only GLOBE_PHASE and GLOBE_DRAW change its phase. -/
def Obligations.FlagsAndRamsHaveTheirOwnCommands : Prop :=
  ∀ (i : Instr) (s t : State), exec i s = .next t →
    (i ≠ .hsqProbe → i ≠ .hsqDecompress → t.status.compressed = s.status.compressed)
      ∧ (i ≠ .sprHeader → t.status.valid = s.status.valid)
      ∧ (i ≠ .palApply → i ≠ .palWrite → i ≠ .palCopy → t.pal = s.pal)
      ∧ (i ≠ .rotWrite → t.rotStart = s.rotStart ∧ t.rotLen = s.rotLen)
      ∧ (i ≠ .globePhase → i ≠ .globeDraw → t.rotPhase = s.rotPhase)

/-- R92: no command changes a byte of system memory outside the regions R92 gives it, whether it ends well or in
error. -/
def Obligations.CommandsWriteOnlyTheirRegions : Prop :=
  ∀ (i : Instr) (s t : State), s.contested = [] → exec i s = .next t →
    ∀ a, inRegions (footprint i s.snap s.mem).writes a = false → t.byte a = s.byte a

/-- R370 (log 2): a running command ends after at most its latency in host turns, unless the host's own access faults:
within `latency + 1` steps the engine is IDLE again. -/
def Obligations.RunningCommandEndsWithinItsLatency : Prop :=
  ∀ (s : State) (r : Running), s.phase = .running r →
    ∃ k, k ≤ r.latency + 1 ∧
      ((∃ t : State, Host.Core.run Sys2Proof.core k s = .next t ∧ t.phase = .idle)
        ∨ ∃ f : Fault, Host.Core.run Sys2Proof.core k s = .fault f)

/-- R80, R6 (log 15): a step is never refused, and it faults only on a host access of its own to a byte that does not
exist. -/
def Obligations.StepFaultsOnlyOnMissingHostBytes : Prop :=
  ∀ s : State, (∀ r, step s ≠ .refused r) ∧
    ∀ f, step s = .fault f → ∃ a i rest, s.inbox = i :: rest ∧ s.plat.memSize ≤ a ∧ f = .noSuchMemory a
      ∧ (i = .memRead a ∨ ∃ x, i = .memWrite a x)

/-! ### The register window -/

/-- R32 (a) to (c), R33: an access of another width, at an unaligned offset or at an unmapped offset reads 0 and writes
nothing; writes to ERR_INFO, RESULT0 and RESULT1 are ignored; CTRL reads 0 and a write of it with bit 0 clear has no
effect. -/
def Obligations.AccessesWithoutEffect : Prop :=
  ∀ (s : State) (v : Word),
    (∀ off width : Nat, off < 256 →
      (width ≠ 4 ∨ off % 4 ≠ 0 ∨ off = 0x05C ∨ off = 0x078 ∨ off = 0x07C ∨ 0x0A8 ≤ off) →
      s.busRead (s.plat.regBase + off) width = 0 ∧ s.busWrite (s.plat.regBase + off) width v = s)
    ∧ s.busWrite (s.plat.regBase + 0x014) 4 v = s ∧ s.busWrite (s.plat.regBase + 0x018) 4 v = s
    ∧ s.busWrite (s.plat.regBase + 0x01C) 4 v = s ∧ s.busRead (s.plat.regBase + 0x004) 4 = 0
    ∧ (v.getLsbD 0 = false → s.busWrite (s.plat.regBase + 0x004) 4 v = s)

/-- R31: ID reads 0x48535131 in every state, and a write to it is ignored. -/
def Obligations.IdIsConstant : Prop :=
  ∀ (s : State) (v : Word),
    s.busRead (s.plat.regBase + 0x000) 4 = 0x48535131 ∧ s.busWrite (s.plat.regBase + 0x000) 4 v = s

/-- R32 (d), R33, R37: a host write to a parameter register reads back with the reserved bits 0, changes no other
register and nothing else, and leaves a running command's snapshot alone. -/
def Obligations.ParameterWriteReadsBack : Prop :=
  ∀ (s : State) (p : ParamReg) (v : Word),
    let t := s.busWrite (s.plat.regBase + p.offset) 4 v
    t.busRead (s.plat.regBase + p.offset) 4 = v &&& p.mask
      ∧ (∀ q : ParamReg, q ≠ p → t.busRead (s.plat.regBase + q.offset) 4 = s.busRead (s.plat.regBase + q.offset) 4)
      ∧ t = { s with params := t.params } ∧ (s.busy = true → t.snap = s.snap)

/-- R32 (e), R33, R338: a write to STATUS clears DONE, ERR and OVR where the written bit is 1, ERRCODE with ERR, and
keeps every other flag, ERR_INFO (R338 against row 0x00 of R331, log 30) and everything else; a write to IRQ_EN reads
back its two enables, the reserved bits 0, and changes nothing else. -/
def Obligations.StatusAndIrqEnableWrites : Prop :=
  ∀ (s : State) (v : Word),
    let t := s.busWrite (s.plat.regBase + 0x00C) 4 v
    let u := s.busWrite (s.plat.regBase + 0x010) 4 v
    (t.status.done = (s.status.done && !v.getLsbD 1) ∧ t.status.err = (s.status.err && !v.getLsbD 2)
      ∧ t.status.ovr = (s.status.ovr && !v.getLsbD 3)
      ∧ t.status.errcode = (if v.getLsbD 2 = true then 0 else s.status.errcode)
      ∧ t.status.compressed = s.status.compressed ∧ t.status.valid = s.status.valid ∧ t = { s with status := t.status })
    ∧ u.busRead (s.plat.regBase + 0x010) 4 = v &&& 0x3 ∧ u = { s with doneIe := u.doneIe, errIe := u.errIe }

/-- R33, R35, R42: the bits of STATUS as the host reads it, the reserved ones 0. -/
def Obligations.StatusReadsItsFlags : Prop :=
  ∀ s : State,
    let w := s.busRead (s.plat.regBase + 0x00C) 4
    w.getLsbD 0 = s.busy ∧ w.getLsbD 1 = s.status.done ∧ w.getLsbD 2 = s.status.err ∧ w.getLsbD 3 = s.status.ovr
      ∧ w.getLsbD 4 = s.status.compressed ∧ w.getLsbD 5 = s.status.valid ∧ w.extractLsb' 6 2 = 0
      ∧ w.extractLsb' 8 8 = s.status.errcode ∧ w.extractLsb' 16 16 = 0

/-- R44: the interrupt line, by the bits of STATUS and IRQ_EN as the host reads them; it is 0 at reset. -/
def Obligations.InterruptLineFollowsStatusAndEnables : Prop :=
  (∀ s : State,
    let st := s.busRead (s.plat.regBase + 0x00C) 4
    let en := s.busRead (s.plat.regBase + 0x010) 4
    s.irq = ((st.getLsbD 1 && en.getLsbD 0) || (st.getLsbD 2 && en.getLsbD 1)))
  ∧ State.reset.irq = false

/-! ### Reset -/

/-- R361 (a) to (c): right after power-on reset every register but ID reads 0, ID reads its value, the engine is IDLE
and the interrupt line is 0. -/
def Obligations.ResetLeavesRegistersZero : Prop :=
  (∀ r : Reg, State.reset.readReg r = if r = .id then 0x48535131 else 0) ∧ State.reset.phase = .idle
    ∧ State.reset.irq = false

/-- R362: a write of 1 to CTRL.SRESET leaves every register but ID at 0, the engine IDLE and the interrupt line 0, in
whatever state it finds the block; an IDLE block keeps its memory and its internal RAMs. -/
def Obligations.SoftResetClearsTheRegisters : Prop :=
  ∀ (s : State) (v : Word), v.getLsbD 0 = true →
    let t := s.busWrite (s.plat.regBase + 0x004) 4 v
    (∀ r : Reg, t.readReg r = if r = .id then 0x48535131 else 0) ∧ t.phase = .idle ∧ t.irq = false
      ∧ (s.phase = .idle → t.mem = s.mem ∧ t.pal = s.pal ∧ t.rotStart = s.rotStart ∧ t.rotLen = s.rotLen
        ∧ t.rotPhase = s.rotPhase)

/-- R362, R92 (log 11): a soft reset that aborts a command changes no byte of system memory outside the command's
regions. -/
def Obligations.SoftResetLeavesOtherMemory : Prop :=
  ∀ (s : State) (r : Running) (i : Instr) (v : Word), v.getLsbD 0 = true → s.phase = .running r →
    r.contested = [] → decodeWord r.cmd = .ok i →
    ∀ a, inRegions (footprint i r.snap s.mem).writes a = false →
      (s.busWrite (s.plat.regBase + 0x004) 4 v).byte a = s.byte a

/-- R361 (a), (b), (f), R346: a power-on reset of an IDLE block changes no system memory, and its registers are then
as after `State.reset`. -/
def Obligations.PowerOnResetKeepsSystemMemory : Prop :=
  ∀ (s : State) (rest : List Input), s.phase = .idle → s.inbox = .powerOn :: rest →
    ∃ t, step s = .next t ∧ t.mem = s.mem ∧ t.inbox = rest ∧ t.phase = .idle
      ∧ ∀ r : Reg, t.readReg r = State.reset.readReg r

/-! ### The invariant -/

/-- The invariant holds right after reset. -/
def Obligations.ResetMeetsTheInvariant : Prop := State.reset.Inv

/-- Every step that goes on keeps the invariant: legal parameters, canonical memory within MEM_SIZE (the canonical
form rests on log 5), RAM tables within their sizes, reserved register bits 0, ERRCODE in step with ERR, and a
consistent phase: while a command runs, DONE and ERR are clear and the ERR_INFO register is 0 (R113, log 4), CMD holds
its word, and the bytes contested against R86 exist (log 10). It changes no OPEN parameter (log 8). -/
def Obligations.EveryStepKeepsTheInvariant : Prop :=
  ∀ s t : State, s.Inv → step s = .next t → t.Inv ∧ t.plat = s.plat

/-! ### Host accesses to a running command's bytes -/

/-- R86 (log 10): a byte the host touched against R86 holds a free value once the command has ended. -/
def Obligations.ContestedByteEndsOpen : Prop :=
  ∀ (s t : State) (r : Running) (a : Nat), s.phase = .running r → (r.latency = 0 ∨ s.inbox = []) → a ∈ r.contested →
    step s = .next t → ∃ n, t.byte a = Config.contestedByte n

/-- R6, R86 (logs 1, 2, 10): a host write of a byte, with the engine IDLE or the byte outside the running command's
regions and not touched against R86 before, lands: the byte is then `x` and nothing else has changed. A host read of a
byte, with the engine IDLE or the byte outside the regions the running command writes and not touched against R86
before, returns it. -/
def Obligations.HostByteAccessesLand : Prop :=
  ∀ (s : State) (a : Nat) (rest : List Input), a < s.plat.memSize → hostsTurn s →
    (∀ x, s.inbox = .memWrite a x :: rest →
      (∀ r, s.phase = .running r →
        a ∉ r.contested ∧ inRegions r.foot.reads a = false ∧ inRegions r.foot.writes a = false) →
      ∃ t, step s = .next t ∧ t = { onHostTurn s rest with mem := t.mem } ∧ t.byte a = x ∧ ∀ b, b ≠ a → t.byte b = s.byte b)
    ∧ (s.inbox = .memRead a :: rest →
      (∀ r, s.phase = .running r → a ∉ r.contested ∧ inRegions r.foot.writes a = false) →
      step s = .next { onHostTurn s rest with busData := (s.byte a).setWidth 32 })

/-- R6, R32, R124, R360 (logs 1, 2, 25): on a host turn the step makes the next access: a register write does what R32
to R37 say of it, a register read returns the register's value to the host and changes nothing else, a `wait` reads
STATUS and stays in front while BUSY is 1, and a power-on reset resets the block. -/
def Obligations.StepMakesTheHostsRegisterAccess : Prop :=
  ∀ (s : State) (rest : List Input), hostsTurn s →
    (∀ a width v, s.inbox = .write a width v :: rest → step s = .next ((onHostTurn s rest).busWrite a width v))
    ∧ (∀ a width, s.inbox = .read a width :: rest →
      step s = .next { onHostTurn s rest with busData := s.busRead a width })
    ∧ (s.inbox = .wait :: rest →
      step s = .next { onHostTurn s (if s.busy = true then .wait :: rest else rest) with
        busData := s.busRead (s.plat.regBase + 0x00C) 4 })
    ∧ (s.inbox = .powerOn :: rest → step s = .next (onHostTurn s rest).powerOnReset)

/-! ### Control and HSQ -/

/-- R150: NOP ends at once; RESULT0, RESULT1 and everything but DONE and the phase stay. -/
def Obligations.NopOnlyEnds : Prop := ∀ s : State, exec .nop s = .next (ended s)

/-- R162: HSQ_PROBE of a readable header reports its fields and its checksum; of a stream shorter than six bytes it ends
with SRC_EOF(SRC_LEN). -/
def Obligations.HsqProbeReportsTheHeader : Prop :=
  ∀ s : State,
    let b := fun k => (s.byte (s.snap.srcAddr.toNat + k)).toNat
    (6 ≤ s.snap.srcLen.toNat → s.readable s.snap.srcAddr.toNat 6 →
      exec .hsqProbe s = .next { ended s with
        result0 := BitVec.ofNat 32 (b 0 + 256 * b 1 + 65536 * b 2)
        result1 := BitVec.ofNat 32 (b 4 + 256 * b 5 + 65536 * b 3)
        status := { s.status with
          done := true, compressed := decide ((b 0 + b 1 + b 2 + b 3 + b 4 + b 5) % 256 = 0xAB) } })
    ∧ (s.snap.srcLen.toNat < 6 → s.readable s.snap.srcAddr.toNat s.snap.srcLen.toNat →
      exec .hsqProbe s = .next (failed s 0x02 s.snap.srcLen))

/-- R168, R163: HSQ_DECOMPRESS of a resource whose checksum does not hold copies it verbatim. The destination may
overlap the source where a forward copy is safe. -/
def Obligations.HsqDecompressCopiesVerbatim : Prop :=
  ∀ s : State,
    let src := s.snap.srcAddr.toNat
    let len := s.snap.srcLen.toNat
    let dst := s.snap.dstAddr.toNat
    6 ≤ len → (headerAt s.snap s.mem).ok = false → len ≤ s.snap.dstLen.toNat → s.readable src len →
    s.writable dst len → (dst ≤ src ∨ src + len ≤ dst) →
    ∃ t, exec .hsqDecompress s = .next t
      ∧ t = { ended s with
          mem := t.mem, result0 := s.snap.srcLen, result1 := s.snap.srcLen
          status := { s.status with done := true, compressed := false } }
      ∧ (∀ k, k < len → t.byte (dst + k) = s.byte (src + k))
      ∧ ∀ a, ¬ inRegion dst len a → t.byte a = s.byte a

/-- R167, R168, R331: how HSQ_DECOMPRESS ends in error. An output that would not fit in DST_LEN ends it with
DST_OVERFLOW and the size, and nothing is written. After tokens that conform, the end token before the declared size
ends it with HSQ_SHORT, a distance that reaches before the output with HSQ_BAD_DISTANCE, each with the output cursor
and the output so far written; a token that runs past the declared size ends it with HSQ_OVERRUN and that size, and
the bytes up to it are written. `more` is what follows in the stream; the order of bits and bytes is that of R164 and
R165 (log 20). -/
def Obligations.HsqDecompressErrorEnds : Prop :=
  ∀ s : State,
    let src := s.snap.srcAddr.toNat
    let dst := s.snap.dstAddr.toNat
    (6 ≤ s.snap.srcLen.toNat → s.readable src 6 → s.snap.dstLen.toNat < hsqOutLen s.snap s.mem →
      exec .hsqDecompress s = .next (failed s 0x03 (BitVec.ofNat 32 (hsqOutLen s.snap s.mem))))
    ∧ ∀ (h0 h1 h2 h3 h4 h5 : Byte) (ks : List Token) (last more : List Item),
      let usize := h0.toNat + 256 * h1.toNat + 65536 * h2.toNat
      let stream := hsqResource h0 h1 h2 h3 h4 h5 (ks.flatMap Token.items ++ last ++ more)
      let out := expandTokens [] ks
      let endsWith := fun (code : BitVec 8) (info : Nat) (bytes : List Byte) =>
        ∃ t, exec .hsqDecompress s = .next t ∧ t = { failed s code (BitVec.ofNat 32 info) with mem := t.mem }
          ∧ t.holds dst bytes ∧ ∀ a, ¬ inRegion dst bytes.length a → t.byte a = s.byte a
      (h0.toNat + h1.toNat + h2.toNat + h3.toNat + h4.toNat + h5.toNat) % 256 = 0xAB → usize ≤ s.snap.dstLen.toNat →
      conforming [] ks → out.length ≤ usize → s.holds src stream → stream.length ≤ s.snap.srcLen.toNat →
      s.readable src stream.length → s.readable dst usize → apart src stream.length dst usize →
      (∀ w : BitVec 16, w.toNat % 8 = 0 → last = endItems w → out.length < usize → endsWith 0x07 out.length out)
      ∧ (∀ (k : Token) (d n : Nat), k.grammatical → last = k.items → k.copy = some (d, n) → out.length < d →
        endsWith 0x05 out.length out)
      ∧ ∀ k : Token, k.conforms out → last = k.items → usize < (k.apply out).length →
        endsWith 0x06 usize ((k.apply out).take usize)

/-- The spec's own derived round trip of R169, from R161 and R164 to R168: for every conforming token stream with a
correct header, HSQ_DECOMPRESS writes exactly the bytes the tokens stand for, and reports their number and the number
of stream bytes consumed. The moment of a refill (R164) and the order of the short form's count bits (R165) are the
spec's general knowledge (D15, D16; log 20). -/
def Obligations.HsqDecompressInvertsConformingStreams : Prop :=
  ∀ (s : State) (h0 h1 h2 h3 h4 h5 : Byte) (ks : List Token) (w : BitVec 16),
    let src := s.snap.srcAddr.toNat
    let dst := s.snap.dstAddr.toNat
    let stream := hsqStream h0 h1 h2 h3 h4 h5 ks w
    let out := expandTokens [] ks
    (h0.toNat + h1.toNat + h2.toNat + h3.toNat + h4.toNat + h5.toNat) % 256 = 0xAB →
    h0.toNat + 256 * h1.toNat + 65536 * h2.toNat = out.length → w.toNat % 8 = 0 → conforming [] ks →
    s.holds src stream → stream.length ≤ s.snap.srcLen.toNat → out.length ≤ s.snap.dstLen.toNat →
    s.readable src stream.length → s.readable dst out.length → apart src stream.length dst out.length →
    ∃ t, exec .hsqDecompress s = .next t
      ∧ t = { ended s with
          mem := t.mem, result0 := BitVec.ofNat 32 out.length, result1 := BitVec.ofNat 32 stream.length
          status := { s.status with done := true, compressed := true } }
      ∧ t.holds dst out ∧ ∀ a, ¬ inRegion dst out.length a → t.byte a = s.byte a

/-! ### Palette -/

/-- R180, R117: PAL_APPLY of a stream of runs and skip markers, closed by the terminator and filler, writes the runs'
slots of the bank in order, dropping those past 255, and reports the offset of the first byte after the filler; the
other bank stays. A stream that SRC_LEN ends before its terminator is complete ends it with SRC_EOF(SRC_LEN), with
every whole triple before that written. -/
def Obligations.PalApplyAppliesItsStream : Prop :=
  ∀ (s : State) (items : List PalItem) (filler : Nat),
    let src := s.snap.srcAddr.toNat
    let len := s.snap.srcLen.toNat
    let bank := s.snap.bank
    let coded := items.flatMap PalItem.coded ++ [0xFF, 0xFF]
    let stream := coded ++ List.replicate filler 0xFF
    let leaves := fun (t : State) (its : List PalItem) =>
      (∀ i, i < 256 → t.palAt bank i = its.foldl PalItem.apply (s.palAt bank) i)
        ∧ ∀ b i, i < 256 → b ≠ bank → t.palAt b i = s.palAt b i
    (∀ it ∈ items, it.ok) →
    (stream.length ≤ len → s.holds src stream → s.readable src stream.length →
      (len = stream.length ∨ s.readable (src + stream.length) 1 ∧ s.byte (src + stream.length) ≠ 0xFF) →
      ∃ t, exec .palApply s = .next t
        ∧ t = { ended s with pal := t.pal, result0 := BitVec.ofNat 32 stream.length } ∧ leaves t items)
    ∧ (len < coded.length → s.holds src (coded.take len) → s.readable src len →
      ∃ t, exec .palApply s = .next t ∧ t = { failed s 0x02 s.snap.srcLen with pal := t.pal }
        ∧ leaves t (cutItems len items))

/-- The spec's own derived laws of R187, from R180: the terminator-only update leaves the table unchanged, and the
full-run update sets all 256 entries to its triples, in order. -/
def Obligations.PaletteUpdateLaws : Prop :=
  ∀ s : State,
    let src := s.snap.srcAddr.toNat
    let at' := fun k => s.byte (src + k)
    (s.snap.srcLen = 2 → s.readable src 2 → at' 0 = 0xFF → at' 1 = 0xFF →
      exec .palApply s = .next { ended s with result0 := 2 })
    ∧ (s.snap.srcLen = 772 → s.readable src 772 → at' 0 = 0 → at' 1 = 0 → at' 770 = 0xFF → at' 771 = 0xFF →
      ∃ t, exec .palApply s = .next t ∧ t = { ended s with pal := t.pal, result0 := 772 }
        ∧ ∀ i, i < 256 →
          t.palAt s.snap.bank i = { r := at' (2 + 3 * i), g := at' (3 + 3 * i), b := at' (4 + 3 * i) })

/-- R181: PAL_READ returns the entry, r in bits 7:0, g in 15:8, b in 23:16. -/
def Obligations.PalReadReturnsTheEntry : Prop :=
  ∀ s : State,
    let c := s.palAt s.snap.bank s.snap.palIdx
    exec .palRead s = .next { ended s with result0 := (0 : BitVec 8) ++ c.b ++ c.g ++ c.r }

/-- R182: PAL_WRITE sets the entry to the three channel bytes of PAL_DATA, whatever their values, and no other entry. -/
def Obligations.PalWriteSetsOneEntry : Prop :=
  ∀ s : State, ∃ t, exec .palWrite s = .next t ∧ t = { ended s with pal := t.pal }
    ∧ t.palAt s.snap.bank s.snap.palIdx
        = { r := s.snap.palData.extractLsb' 0 8, g := s.snap.palData.extractLsb' 8 8, b := s.snap.palData.extractLsb' 16 8 }
    ∧ ∀ b i, i < 256 → (b, i) ≠ (s.snap.bank, s.snap.palIdx) → t.palAt b i = s.palAt b i

/-- R183: PAL_DISPLAY returns each channel expanded by (255 c) div 63, low 8 bits kept; for a 6-bit channel the low 8
bits are the whole quotient, and 0 and 63 become 0 and 255. -/
def Obligations.PalDisplayExpandsTheEntry : Prop :=
  (∀ s : State,
    let c := s.palAt s.snap.bank s.snap.palIdx
    let e := fun x : Byte => BitVec.ofNat 8 (255 * x.toNat / 63)
    exec .palDisplay s = .next { ended s with result0 := (0 : BitVec 8) ++ e c.b ++ e c.g ++ e c.r })
  ∧ (∀ x : Byte, x.toNat ≤ 63 → (expand x).toNat = 255 * x.toNat / 63) ∧ expand 0 = 0 ∧ expand 63 = 255

/-- R184: PAL_COPY makes the destination bank equal to the source bank, entry by entry, and leaves the other entries. -/
def Obligations.PalCopyClonesTheBank : Prop :=
  ∀ s : State, ∃ t, exec .palCopy s = .next t ∧ t = { ended s with pal := t.pal }
    ∧ (∀ i, i < 256 → t.palAt s.snap.bank i = s.palAt s.snap.srcBank i)
    ∧ ∀ b i, i < 256 → b ≠ s.snap.bank → t.palAt b i = s.palAt b i

/-- R185, R331: PAL_LERP with a positive divisor returns (b - a) div d + a in each channel, the division truncating
toward zero; a divisor that is not positive ends it with PAL_BAD_DIVISOR and the 16-bit field. -/
def Obligations.PalLerpInterpolates : Prop :=
  ∀ s : State,
    let d := (s.snap.lerpDiv.extractLsb' 0 16).toInt
    let ch := fun k => BitVec.ofInt 8
      ((((s.snap.lerpB.extractLsb' k 8).toNat : Int) - (s.snap.lerpA.extractLsb' k 8).toNat).tdiv d
        + (s.snap.lerpA.extractLsb' k 8).toNat)
    (0 < d → exec .palLerp s = .next { ended s with result0 := (0 : BitVec 8) ++ ch 16 ++ ch 8 ++ ch 0 })
    ∧ (d ≤ 0 → exec .palLerp s = .next (failed s 0x0A ((s.snap.lerpDiv.extractLsb' 0 16).setWidth 32)))

/-- The spec's own derivation in R185's corner cases: the lerp of one channel lies between its operands, so it fits in
8 bits; a divisor of 1 gives b. -/
def Obligations.LerpStaysBetweenItsOperands : Prop :=
  ∀ (a b : Byte) (d : Int), 0 < d →
    (((lerpChannel a b d).toNat : Int) = ((b.toNat : Int) - a.toNat).tdiv d + a.toNat)
      ∧ min a.toNat b.toNat ≤ (lerpChannel a b d).toNat ∧ (lerpChannel a b d).toNat ≤ max a.toNat b.toNat
      ∧ lerpChannel a b 1 = b

/-- R186, R123: PAL_EXPORT writes the 768 bytes of the expanded table, and nothing else; an output buffer under 768
bytes ends it with DST_OVERFLOW(768) before any write. -/
def Obligations.PalExportWritesTheDisplayTable : Prop :=
  ∀ s : State,
    let dst := s.snap.dstAddr.toNat
    (768 ≤ s.snap.dstLen.toNat → s.writable dst 768 →
      ∃ t, exec .palExport s = .next t ∧ t = { ended s with mem := t.mem }
        ∧ (∀ i, i < 256 →
            let c := s.palAt s.snap.bank i
            t.byte (dst + 3 * i) = expand c.r ∧ t.byte (dst + 3 * i + 1) = expand c.g
              ∧ t.byte (dst + 3 * i + 2) = expand c.b)
        ∧ ∀ a, ¬ inRegion dst 768 a → t.byte a = s.byte a)
    ∧ (s.snap.dstLen.toNat < 768 → exec .palExport s = .next (failed s 0x03 768))

/-! ### Sprite header and surface -/

/-- R200 to R202, R118: SPR_HEADER of a readable header reports its fields; VALID says that width and height are not
0. Of a stream shorter than four bytes it ends with SRC_EOF(SRC_LEN). -/
def Obligations.SprHeaderReportsTheHeader : Prop :=
  ∀ s : State,
    let b := fun k => s.byte (s.snap.srcAddr.toNat + k)
    let w0 : BitVec 16 := b 1 ++ b 0
    let width := w0.extractLsb' 0 9
    let flags := w0.extractLsb' 9 7
    (4 ≤ s.snap.srcLen.toNat → s.readable s.snap.srcAddr.toNat 4 →
      exec .sprHeader s = .next { ended s with
        result0 := BitVec.ofNat 32 (width.toNat + 65536 * (b 2).toNat)
        result1 := BitVec.ofNat 32 ((w0.getLsbD 15).toNat + 256 * (b 3).toNat + 65536 * flags.toNat
          + 16777216 * (if 254 ≤ (b 3).toNat then 1 else 0))
        status := { s.status with done := true, valid := decide (width ≠ 0 ∧ b 2 ≠ 0) } })
    ∧ (s.snap.srcLen.toNat < 4 → s.readable s.snap.srcAddr.toNat s.snap.srcLen.toNat →
      exec .sprHeader s = .next (failed s 0x02 s.snap.srcLen))

/-- R203, R333: SURF_CLEAR fills the W × H bytes at SURF_BASE with CLEAR_VAL and changes nothing else, and an empty
surface is no error; a surface that reaches past MEM_SIZE ends it with BUS_ERROR at the first missing byte, and the
bytes before that stay written. -/
def Obligations.SurfClearFillsTheSurface : Prop :=
  ∀ s : State,
    let base := s.snap.surfBase.toNat
    let n := s.snap.surfW * s.snap.surfH
    (s.writable base n →
      ∃ t, exec .surfClear s = .next t ∧ t = { ended s with mem := t.mem }
        ∧ (∀ a, inRegion base n a → t.byte a = s.snap.clearVal.extractLsb' 0 8)
        ∧ ∀ a, ¬ inRegion base n a → t.byte a = s.byte a)
    ∧ (s.plat.memSize < base + n → 0 < n →
      ∃ t, exec .surfClear s = .next t
        ∧ t = { failed s 0x04 (BitVec.ofNat 32 (max base s.plat.memSize)) with mem := t.mem }
        ∧ (∀ a, base ≤ a → a < s.plat.memSize → t.byte a = s.snap.clearVal.extractLsb' 0 8)
        ∧ ∀ a, ¬ (base ≤ a ∧ a < s.plat.memSize) → t.byte a = s.byte a)

/-- R204: IMAP_CLEAR fills the W × H bytes at IMAP_BASE with 0xFF and changes nothing else. -/
def Obligations.ImapClearFillsTheIndexMap : Prop :=
  ∀ s : State,
    let base := s.snap.imapBase.toNat
    let n := s.snap.surfW * s.snap.surfH
    s.writable base n →
    ∃ t, exec .imapClear s = .next t ∧ t = { ended s with mem := t.mem }
      ∧ (∀ a, inRegion base n a → t.byte a = 0xFF) ∧ ∀ a, ¬ inRegion base n a → t.byte a = s.byte a

/-! ### RLE and blit -/

/-- R232, R233, R331: a zero width or height ends RLE_DECODE and BLIT with BLIT_ZERO_DIM and the BLIT_SIZE register;
an output that would not fit in DST_LEN ends RLE_DECODE with DST_OVERFLOW and its size before any write; a raw source
shorter than its pixels ends BLIT with SRC_EOF(SRC_LEN) before any pixel. -/
def Obligations.BlitChecksItsSizeFirst : Prop :=
  ∀ s : State,
    (s.snap.blitW = 0 ∨ s.snap.blitH = 0 →
      exec .rleDecode s = .next (failed s 0x09 s.snap.blitSize) ∧ exec .blit s = .next (failed s 0x09 s.snap.blitSize))
    ∧ (s.snap.blitW ≠ 0 → s.snap.blitH ≠ 0 → s.snap.dstLen.toNat < s.snap.blitH * s.snap.pitch →
      exec .rleDecode s = .next (failed s 0x03 (BitVec.ofNat 32 (s.snap.blitH * s.snap.pitch))))
    ∧ (s.snap.blitW ≠ 0 → s.snap.blitH ≠ 0 → ¬ (s.snap.bpp8 = true ∧ s.snap.scale ≠ 0) → s.snap.rle = false →
      s.snap.srcLen.toNat < s.snap.blitH * s.snap.pitch →
      exec .blit s = .next (failed s 0x02 s.snap.srcLen))

/-- R230 to R232, R119: RLE_DECODE of a stream of runs that fill each row exactly writes the bytes the runs stand for,
and reports the bytes read and written. -/
def Obligations.RleDecodeInvertsItsRuns : Prop :=
  ∀ (s : State) (rows : List (List Run)),
    let src := s.snap.srcAddr.toNat
    let dst := s.snap.dstAddr.toNat
    let stream := (rows.flatten).flatMap Run.coded
    let out := (rows.flatten).flatMap Run.plainBytes
    s.snap.blitW ≠ 0 → s.snap.blitH ≠ 0 → rows.length = s.snap.blitH →
    (∀ row ∈ rows, (row.flatMap Run.plainBytes).length = s.snap.pitch ∧ ∀ r ∈ row, r.ok) →
    s.holds src stream → stream.length ≤ s.snap.srcLen.toNat → out.length ≤ s.snap.dstLen.toNat →
    s.readable src stream.length → s.writable dst out.length → apart src stream.length dst out.length →
    ∃ t, exec .rleDecode s = .next t
      ∧ t = { ended s with
          mem := t.mem, result0 := BitVec.ofNat 32 stream.length, result1 := BitVec.ofNat 32 out.length }
      ∧ out.length = s.snap.blitH * s.snap.pitch
      ∧ t.holds dst out ∧ ∀ a, ¬ inRegion dst out.length a → t.byte a = s.byte a

/-- R231, R331: a first run longer than the row ends RLE_DECODE with RLE_OVERRUN(0), and nothing is written. -/
def Obligations.RleOverrunWritesNothing : Prop :=
  ∀ s : State,
    let c := (s.byte s.snap.srcAddr.toNat).toNat
    s.snap.blitW ≠ 0 → s.snap.blitH ≠ 0 → s.snap.blitH * s.snap.pitch ≤ s.snap.dstLen.toNat →
    1 ≤ s.snap.srcLen.toNat → s.readable s.snap.srcAddr.toNat 1 →
    s.snap.pitch < (if 128 ≤ c then 257 - c else c + 1) →
    exec .rleDecode s = .next (failed s 0x08 0)

/-- R242: an 8bpp draw with a scale code draws nothing and ends well with both results 0. -/
def Obligations.ScaledEightBppDrawsNothing : Prop :=
  ∀ s : State, s.snap.blitW ≠ 0 → s.snap.blitH ≠ 0 → s.snap.bpp8 = true → s.snap.scale ≠ 0 →
    exec .blit s = .next { ended s with result0 := 0, result1 := 0 }

/-- R233 to R241: a raw BLIT writes exactly the plotted pixels of its image, each with its colour, and the object byte
at the same point of the index map when one is supplied; every other byte stays. RESULT0 is the number of pixels
plotted and RESULT1 the image's size. That a scaled draw reads source column x * f / 256 is R241's own derivation from
its accumulators (log 22). -/
def Obligations.BlitDrawsItsImage : Prop :=
  ∀ s : State,
    let p := s.snap
    let pix := p.srcAddr.toNat
    let surf := p.surfBase.toNat
    let imap := p.imapBase.toNat
    let area := p.surfW * p.surfH
    let size := p.blitH * p.pitch
    let dw := (imageSize p).1
    let dh := (imageSize p).2
    p.blitW ≠ 0 → p.blitH ≠ 0 → ¬ (p.bpp8 = true ∧ p.scale ≠ 0) → p.rle = false → size ≤ p.srcLen.toNat →
    s.readable pix size → s.writable surf area → apart pix size surf area →
    (p.imapEn = true → s.writable imap area ∧ apart pix size imap area ∧ apart surf area imap area) →
    ∃ t, exec .blit s = .next t
      ∧ (∃ pts : Finset (Nat × Nat), (∀ x y, (x, y) ∈ pts ↔ ∃ c q, plotted s pix dw dh x y c q)
          ∧ t = { ended s with
              mem := t.mem, result0 := BitVec.ofNat 32 pts.card, result1 := BitVec.ofNat 32 (dw + 65536 * dh) })
      ∧ (∀ x y c q, plotted s pix dw dh x y c q →
          t.byte (surf + pointOffset p q) = c
            ∧ (p.imapEn = true → t.byte (imap + pointOffset p q) = BitVec.ofNat 8 (min p.objIdNat 255)))
      ∧ ∀ a,
          (∀ x y c q, plotted s pix dw dh x y c q →
            a ≠ surf + pointOffset p q ∧ (p.imapEn = true → a ≠ imap + pointOffset p q)) →
          t.byte a = s.byte a

/-- The spec's own derivation of R243 from R233: an RLE error (SRC_EOF or RLE_OVERRUN) of a BLIT leaves every byte
outside the scratch buffer unchanged, the surface and the index map among them. -/
def Obligations.RleErrorLeavesTheSurface : Prop :=
  ∀ s t : State, s.snap.rle = true → s.status.err = false → exec .blit s = .next t → t.status.err = true →
    t.status.errcode ≠ 0x04 →
    ∀ a, ¬ inRegion s.snap.scratchAddr.toNat (s.snap.blitH * s.snap.pitch) a → t.byte a = s.byte a

/-- R232, R233: a BLIT with RLE draws what a raw BLIT draws from the buffer that RLE_DECODE leaves in the scratch
region. -/
def Obligations.RleBlitIsDecodeThenBlit : Prop :=
  ∀ (s d t : State) (r : Running), s.phase = .running r → s.snap.rle = true → s.status.err = false →
    r.contested = [] → s.snap.blitH * s.snap.pitch < 2 ^ 32 → ¬ (s.snap.bpp8 = true ∧ s.snap.scale ≠ 0) →
    let size := s.snap.blitH * s.snap.pitch
    let decodeSnap := { s.snap with dstAddr := s.snap.scratchAddr, dstLen := BitVec.ofNat 32 size }
    let drawSnap := { s.snap with
      srcAddr := s.snap.scratchAddr, srcLen := BitVec.ofNat 32 size, blitCfg := s.snap.blitCfg &&& ~~~1 }
    exec .rleDecode { s with phase := .running { r with snap := decodeSnap } } = .next d → d.status.err = false →
    exec .blit { s with mem := d.mem, phase := .running { r with snap := drawSnap } } = .next t →
    exec .blit s = .next t

/-! ### Globe -/

/-- R253: TILT_READ of an index up to 391 returns the entry's section code and latitude, range by range (R251, R252); an
index past the table ends it with INDEX_RANGE and the index. -/
def Obligations.TiltReadReturnsTheRom : Prop :=
  ∀ s : State,
    let i := s.snap.tiltIdx
    (i ≤ 391 →
      exec .tiltRead s = .next { ended s with
        result0 := BitVec.ofNat 32
          (if i ≤ 97 then 3 + 256 * (i + 1) else if i ≤ 196 then 2 + 256 * (196 - i)
            else if i ≤ 294 then 1 + 256 * (i - 196) else 0 + 256 * (393 - i)) })
    ∧ (391 < i → exec .tiltRead s = .next (failed s 0x0B (BitVec.ofNat 32 i)))

/-- R254: ROT_WRITE of an index up to 98 sets that entry's start and length; its phase and every other entry stay; an
index past the table ends it with INDEX_RANGE and the index. -/
def Obligations.RotWriteLoadsOneEntry : Prop :=
  ∀ s : State,
    let k := s.snap.rotIdx
    (k ≤ 98 →
      ∃ t, exec .rotWrite s = .next t ∧ t = { ended s with rotStart := t.rotStart, rotLen := t.rotLen }
        ∧ t.rotAt k
            = { start := s.snap.rotData.extractLsb' 0 16, len := s.snap.rotData.extractLsb' 16 16
                phase := (s.rotAt k).phase }
        ∧ ∀ i, i ≠ k → t.rotAt i = s.rotAt i)
    ∧ (98 < k → exec .rotWrite s = .next (failed s 0x0B (BitVec.ofNat 32 k)))

/-- R255: ROT_READ of an index up to 98 returns the entry's start and length in RESULT0 and its phase in RESULT1; an
index past the table ends it with INDEX_RANGE and the index. -/
def Obligations.RotReadReturnsTheEntry : Prop :=
  ∀ s : State,
    let k := s.snap.rotIdx
    (k ≤ 98 →
      exec .rotRead s = .next { ended s with
        result0 := (s.rotAt k).len ++ (s.rotAt k).start, result1 := (s.rotAt k).phase })
    ∧ (98 < k → exec .rotRead s = .next (failed s 0x0B (BitVec.ofNat 32 k)))

/-- R256, R257: GLOBE_PHASE sets entry 0's phase to 398 times the rotation rounded down to a multiple of 65536, and
every other entry's to twice the fixed-point quotient by 398 times its length, modulo 2^32; starts, lengths and
everything else stay. The phase of an entry whose length was never written is unspecified: a free value (log 31). -/
def Obligations.GlobePhaseComputesThePhases : Prop :=
  ∀ s : State, ∃ t, exec .globePhase s = .next t ∧ t = { ended s with rotPhase := t.rotPhase, draws := t.draws }
    ∧ ∀ i, t.rotAt i = if i ≤ 98 then phasedRot s i else s.rotAt i

/-- R259, R256: GLOBE_DRAW of an empty column list recomputes the phases and writes no pixel; of a list that would
start at or past the end of the elevation resource it ends with SRC_EOF and that offset, the phases recomputed. The
phase of an entry whose length was never written is not R256's product but the free value of R257, in the form the
model gives it (log 31). -/
def Obligations.GlobeDrawOfAnEmptyList : Prop :=
  ∀ s : State,
    let off := s.plat.collistOff
    let a := s.snap.globeElevAddr.toNat + off
    (off < s.snap.globeElevLen.toNat → s.readable a 1 → s.byte a = 0 →
      ∃ t, exec .globeDraw s = .next t ∧ t = { ended s with rotPhase := t.rotPhase, draws := t.draws }
        ∧ ∀ i, t.rotAt i = if i ≤ 98 then phasedRot s i else s.rotAt i)
    ∧ (s.snap.globeElevLen.toNat ≤ off →
      ∃ t, exec .globeDraw s = .next t
        ∧ t = { failed s 0x02 (BitVec.ofNat 32 off) with rotPhase := t.rotPhase, draws := t.draws }
        ∧ ∀ i, t.rotAt i = if i ≤ 98 then phasedRot s i else s.rotAt i)

/-- R258: a GLOBE_DRAW reads the tilt only through its clamp: with any tilt and with that tilt clamped to -96 to
96 it ends in the same state. -/
def Obligations.GlobeDrawReadsTheClampedTilt : Prop :=
  ∀ (s : State) (r : Running), s.phase = .running r →
    exec .globeDraw s
      = exec .globeDraw { s with phase := .running { r with
          snap := { r.snap with globeTilt := (BitVec.ofInt 16 (min (max r.snap.tiltRaw (-96)) 96)).setWidth 32 } } }

/-- R256 to R264, R121: for every choice of the OPEN functions (log 9; GLOBE_DRAW is the draw with the
implementation's own), the globe draw over a column list of runs plots the pixels of the upper half and then of the
lower half, row by row, each with the colour of its map byte where it lies in the surface, and changes no other byte.
The first pixel whose tilt index, row selector, auxiliary offset or map offset is out of range ends it with
GLOBE_TILT_RANGE, GLOBE_ROW_RANGE, SRC_EOF or GLOBE_MAP_RANGE, and a list that the elevation resource ends before its
terminator with SRC_EOF(GLOBE_ELEV_LEN); the pixels before stay plotted. The phases are recomputed in every case
(an entry whose length was never written: log 31). -/
def Obligations.GlobeDrawDrawsItsColumnList : Prop :=
  ∀ (G : GlobeFns) (s : State) (rows : List (List Byte)) (fin : ListEnd),
    let p := s.snap
    let elev := p.globeElevAddr.toNat
    let len := p.globeElevLen.toNat
    let list := columnList rows fin
    let surf := p.surfBase.toNat
    let area := p.surfW * p.surfH
    let drawn := drawPixels p (drawnPixels G s (phasedRot s) rows fin) s.byte
    (∀ es ∈ rows, 1 ≤ es.length ∧ es.length ≤ 255) → (∀ n es, fin = .partway n es → es.length < n ∧ n ≤ 255) →
    (fin = .stop → s.plat.collistOff + list.length ≤ len) → (fin ≠ .stop → s.plat.collistOff + list.length = len) →
    s.holds (elev + s.plat.collistOff) list → s.readable elev len → s.readable p.globeMapAddr.toNat p.globeMapLen.toNat →
    s.writable surf area → apart elev len surf area → apart p.globeMapAddr.toNat p.globeMapLen.toNat surf area →
    ∃ t, s.runCmd (drawGlobe G) = t ∧ (G = globeFns → exec .globeDraw s = .next t)
      ∧ (drawn.2 = none → t = { ended s with mem := t.mem, rotPhase := t.rotPhase, draws := t.draws })
      ∧ (∀ code info, drawn.2 = some (code, info) →
          t = { failed s code (BitVec.ofInt 32 info) with mem := t.mem, rotPhase := t.rotPhase, draws := t.draws })
      ∧ (∀ a, t.byte a = drawn.1 a) ∧ ∀ i, t.rotAt i = if i ≤ 98 then phasedRot s i else s.rotAt i

/-- R263: the colour of a map byte: its low four bits, plus 12 where the flag field is the pattern and they are below 8,
plus the bank, modulo 256. -/
def Obligations.GlobeColourFollowsTheMapByte : Prop :=
  ∀ (p : Platform) (m : Byte),
    let c := m.toNat % 16
    let f := m.toNat / 2 ^ p.flagShift.val % 4
    (globeColour p m).toNat
      = (c + (if f = p.flagPattern.toNat ∧ c < 8 then 12 else 0) + p.globeBank.toNat) % 256
end

