-- ==== Sys2Proof/Laws/Table.lean ====
section
/-! SUPPORT. Read after write for the tables and for system memory, and the canonical form that every memory operation
keeps. -/

namespace Sys2Proof.Machine

variable {α : Type}

@[simp] theorem tableGet_nil (a : Nat) : tableGet ([] : List (Nat × α)) a = none := rfl

theorem tableGet_cons (k : Nat) (x : α) (t : List (Nat × α)) (a : Nat) :
    tableGet ((k, x) :: t) a = if a = k then some x else tableGet t a := rfl

@[simp] theorem tableGet_put_same (t : List (Nat × α)) (a : Nat) (y : α) : tableGet (tablePut t a y) a = some y := by
  induction t with
  | nil => simp [tablePut, tableGet]
  | cons c t ih =>
    obtain ⟨k, x⟩ := c
    simp only [tablePut]
    split
    · simp [tableGet]
    · split <;> simp_all [tableGet]

theorem tableGet_put_other (t : List (Nat × α)) {a b : Nat} (y : α) (h : b ≠ a) :
    tableGet (tablePut t a y) b = tableGet t b := by
  induction t with
  | nil => simp [tablePut, tableGet, h]
  | cons c t ih =>
    obtain ⟨k, x⟩ := c
    simp only [tablePut]
    split
    · simp [tableGet, h]
    · split
      · subst_vars; simp [tableGet, h]
      · simp [tableGet, ih]

/-- Everything a table write does to a read. -/
theorem tableGet_put (t : List (Nat × α)) (a b : Nat) (y : α) :
    tableGet (tablePut t a y) b = if b = a then some y else tableGet t b := by
  by_cases h : b = a
  · subst h; simp
  · simp [h, tableGet_put_other t y h]

/-- Everything the removal of a key does to a read. -/
theorem tableGet_erase (t : List (Nat × α)) (a b : Nat) :
    tableGet (tableErase t a) b = if b = a then none else tableGet t b := by
  induction t with
  | nil => simp [tableErase]
  | cons c t ih =>
    obtain ⟨k, x⟩ := c
    simp only [tableErase]
    split
    · subst_vars; rw [ih]; split <;> simp_all [tableGet]
    · simp only [tableGet_cons, ih]; split <;> split <;> simp_all

theorem mem_tablePut {t : List (Nat × α)} {a : Nat} {y : α} {c : Nat × α} (h : c ∈ tablePut t a y) :
    c = (a, y) ∨ c ∈ t := by
  induction t with
  | nil => simpa [tablePut] using h
  | cons d t ih =>
    obtain ⟨k, x⟩ := d
    simp only [tablePut] at h
    split at h
    · simpa using h
    · split at h
      · rcases List.mem_cons.1 h with h | h
        · exact .inl h
        · exact .inr (List.mem_cons_of_mem _ h)
      · rcases List.mem_cons.1 h with h | h
        · exact .inr (h ▸ List.mem_cons_self)
        · exact (ih h).imp id (List.mem_cons_of_mem _)

theorem mem_tableErase {t : List (Nat × α)} {a : Nat} {c : Nat × α} (h : c ∈ tableErase t a) : c ∈ t := by
  induction t with
  | nil => simp [tableErase] at h
  | cons d t ih =>
    obtain ⟨k, x⟩ := d
    simp only [tableErase] at h
    split at h
    · exact List.mem_cons_of_mem _ (ih h)
    · rcases List.mem_cons.1 h with h | h
      · exact h ▸ List.mem_cons_self
      · exact List.mem_cons_of_mem _ (ih h)

theorem tableSorted_put {t : List (Nat × α)} (h : tableSorted t) (a : Nat) (y : α) : tableSorted (tablePut t a y) := by
  induction t with
  | nil => simp [tablePut]
  | cons d t ih =>
    obtain ⟨k, x⟩ := d
    obtain ⟨h1, h2⟩ := List.pairwise_cons.1 h
    simp only [tablePut]
    split
    next hlt =>
      refine List.pairwise_cons.2 ⟨?_, h⟩
      intro c hc
      rcases List.mem_cons.1 hc with hc | hc
      · simpa [hc] using hlt
      · exact Nat.lt_trans hlt (h1 c hc)
    next hge =>
      split
      next heq => exact List.pairwise_cons.2 ⟨fun c hc => by simpa [heq] using h1 c hc, h2⟩
      next hne =>
        refine List.pairwise_cons.2 ⟨?_, ih h2⟩
        intro c hc
        rcases mem_tablePut hc with hc | hc
        · subst hc
          show k < a
          omega
        · exact h1 c hc

theorem tableSorted_erase {t : List (Nat × α)} (h : tableSorted t) (a : Nat) : tableSorted (tableErase t a) := by
  induction t with
  | nil => exact h
  | cons d t ih =>
    obtain ⟨k, x⟩ := d
    obtain ⟨h1, h2⟩ := List.pairwise_cons.1 h
    simp only [tableErase]
    split
    · exact ih h2
    · exact List.pairwise_cons.2 ⟨fun c hc => h1 c (mem_tableErase hc), ih h2⟩

/-- Everything a memory write does to a read (R80). -/
theorem Memory.read_write (m : Memory) (a b : Nat) (x : Byte) :
    (m.write a x).read b = if b = a then x else m.read b := by
  unfold Memory.read Memory.write
  split
  next h => rw [tableGet_erase]; split <;> simp [h]
  next h => rw [tableGet_put]; split <;> simp

@[simp] theorem Memory.read_write_same (m : Memory) (a : Nat) (x : Byte) : (m.write a x).read a = x := by
  simp [Memory.read_write]

theorem Memory.read_write_other (m : Memory) {a b : Nat} (x : Byte) (h : b ≠ a) : (m.write a x).read b = m.read b := by
  simp [Memory.read_write, h]

/-- Every memory write keeps the canonical form. -/
theorem Memory.write_wf {m : Memory} (h : m.wf) (a : Nat) (x : Byte) : (m.write a x).wf := by
  obtain ⟨hs, hz⟩ := h
  unfold Memory.write
  split
  · exact ⟨tableSorted_erase hs a, fun c hc => hz c (mem_tableErase hc)⟩
  next hx =>
    refine ⟨tableSorted_put hs a x, fun c hc => ?_⟩
    rcases mem_tablePut hc with hc | hc
    · subst hc; exact hx
    · exact hz c hc

/-- A memory write adds at most its own address. -/
theorem Memory.mem_write {m : Memory} {a : Nat} {x : Byte} {c : Host.Cell} (h : c ∈ m.write a x) : c.1 = a ∨ c ∈ m := by
  unfold Memory.write at h
  split at h
  · exact .inr (mem_tableErase h)
  · rcases mem_tablePut h with h | h
    · exact .inl (by rw [h])
    · exact .inr h

/-- A palette read after a palette write. -/
theorem palEntry_put (epoch : Nat) (t : List (Nat × Rgb)) (a b : Nat) (c : Rgb) :
    palEntry epoch (tablePut t a c) b = if b = a then c else palEntry epoch t b := by
  unfold palEntry; rw [tableGet_put]; split <;> simp

/-- A read of a row start after a write of one. -/
theorem rotStartAt_put (epoch : Nat) (t : List (Nat × BitVec 16)) (a b : Nat) (c : BitVec 16) :
    rotStartAt epoch (tablePut t a c) b = if b = a then c else rotStartAt epoch t b := by
  unfold rotStartAt; rw [tableGet_put]; split <;> simp

/-- A read of a row length after a write of one. -/
theorem rotLenAt_put (epoch : Nat) (t : List (Nat × BitVec 16)) (a b : Nat) (c : BitVec 16) :
    rotLenAt epoch (tablePut t a c) b = if b = a then c else rotLenAt epoch t b := by
  unfold rotLenAt; rw [tableGet_put]; split <;> simp

/-- A rotation-phase read after a rotation-phase write. -/
theorem rotPhaseAt_put (epoch : Nat) (t : List (Nat × Word)) (a b : Nat) (c : Word) :
    rotPhaseAt epoch (tablePut t a c) b = if b = a then c else rotPhaseAt epoch t b := by
  unfold rotPhaseAt; rw [tableGet_put]; split <;> simp

end Sys2Proof.Machine
end

