-- ==== Sys2Proof/Laws/Eng.lean ====
section
/-! SUPPORT. The pseudocode's building blocks: what each primitive can do, said once, and the induction over a command's
pseudocode (`Keeps`), packaged once. -/

namespace Sys2Proof.Machine

variable {α β : Type}

/-! ### Sequencing -/

@[simp] theorem eng_pure (a : α) (w : Work) : (pure a : Eng α) w = .ok a w := rfl

/-- Sequencing, by how the first part ends. -/
theorem eng_bind (x : Eng α) (f : α → Eng β) (w : Work) :
    (x >>= f) w = match x w with
      | .ok a w' => f a w'
      | .error e w' => .error e w' := by
  show EStateM.bind x f w = _
  unfold EStateM.bind
  cases x w <;> rfl

/-- Sequencing after a part that ends well. -/
theorem eng_bind_ok {x : Eng α} {f : α → Eng β} {w w' : Work} {a : α} (h : x w = .ok a w') : (x >>= f) w = f a w' := by
  rw [eng_bind, h]

/-- Sequencing after a part that stops. -/
theorem eng_bind_error {x : Eng α} {f : α → Eng β} {w w' : Work} {e : Stop} (h : x w = .error e w') :
    (x >>= f) w = .error e w' := by
  rw [eng_bind, h]

@[simp] theorem raise_apply (e : CmdError) (i : Int) (w : Work) : (raise e i : Eng α) w = .error (.raised e i) w := rfl

theorem raiseIf_apply (c : Bool) (e : CmdError) (i : Int) (w : Work) :
    raiseIf c e i w = if c then .error (.raised e i) w else .ok () w := by
  unfold raiseIf; cases c <;> rfl

/-! ### Primitives, when they end well -/

@[simp] theorem readWork_apply (f : Work → α) (w : Work) : readWork f w = .ok (f w) w := rfl
@[simp] theorem modifyWork_apply (f : Work → Work) (w : Work) : modifyWork f w = .ok () (f w) := rfl
@[simp] theorem inputCursor_apply (w : Work) : inputCursor w = .ok w.icur w := rfl
@[simp] theorem setInputCursor_apply (k : Nat) (w : Work) : setInputCursor k w = .ok () { w with icur := k } := rfl
@[simp] theorem outputCursor_apply (w : Work) : outputCursor w = .ok w.ocur w := rfl
@[simp] theorem setOutputCursor_apply (k : Nat) (w : Work) : setOutputCursor k w = .ok () { w with ocur := k } := rfl

theorem spend_ok {w : Work} (hq : w.quota = none) : spend w = .ok () w := by
  unfold spend; rw [hq]

/-- R80: a read of a byte that exists and is not contested. -/
theorem memRead_ok {v : View} {a : Nat} {w : Work} (h : a < v.plat.memSize) (hc : a ∉ v.contested) :
    memRead v a w = .ok (w.mem.read a) w := by
  simp [memRead, h, hc]

/-- R80: a read of a byte that does not exist. -/
theorem memRead_busError {v : View} {a : Nat} {w : Work} (h : v.plat.memSize ≤ a) :
    memRead v a w = .error (.raised .busError a) w := by
  simp [memRead, Nat.not_lt.2 h]

/-- R80: a write of a byte that exists, by a command that nothing cuts short. -/
theorem memWrite_ok {v : View} {a : Nat} {x : Byte} {w : Work} (h : a < v.plat.memSize) (hq : w.quota = none) :
    memWrite v a x w = .ok () { w with mem := w.mem.write a x } := by
  unfold memWrite; rw [if_pos h, eng_bind_ok (spend_ok hq)]; rfl

/-- R80: a write of a byte that does not exist. -/
theorem memWrite_busError {v : View} {a : Nat} {x : Byte} {w : Work} (h : v.plat.memSize ≤ a) :
    memWrite v a x w = .error (.raised .busError a) w := by
  simp [memWrite, Nat.not_lt.2 h]

/-- R10: a stream read inside the stream. -/
theorem inByte_ok {v : View} {st : Stream} {w : Work} (hk : w.icur < st.len) (hm : st.base + w.icur < v.plat.memSize)
    (hc : st.base + w.icur ∉ v.contested) :
    inByte v st w = .ok (w.mem.read (st.base + w.icur)) { w with icur := w.icur + 1 } := by
  unfold inByte
  rw [eng_bind_ok (inputCursor_apply w), if_pos hk, eng_bind_ok (memRead_ok hm hc), eng_bind_ok (setInputCursor_apply _ w)]
  rfl

/-- R10: a stream read at or past the stream's end. -/
theorem inByte_eof {v : View} {st : Stream} {w : Work} (hk : st.len ≤ w.icur) :
    inByte v st w = .error (.raised .srcEof w.icur) w := by
  unfold inByte
  rw [eng_bind_ok (inputCursor_apply w), if_neg (Nat.not_lt.2 hk)]
  rfl

theorem palRead_apply (v : View) (b i : Nat) (w : Work) :
    palRead v b i w = .ok (palEntry v.epoch w.pal (palKey b i)) w := rfl

theorem rotRead_apply (v : View) (i : Nat) (w : Work) :
    rotRead v i w = .ok (rotEntryAt v.epoch w.rotStart w.rotLen w.rotPhase i) w := rfl

theorem palWrite_ok {b i : Nat} {c : Rgb} {w : Work} (hq : w.quota = none) :
    palWrite b i c w = .ok () { w with pal := tablePut w.pal (palKey b i) c } := by
  unfold palWrite; rw [eng_bind_ok (spend_ok hq)]; rfl

@[simp] theorem rotLenWritten_apply (i : Nat) (w : Work) : rotLenWritten i w = .ok (tableGet w.rotLen i) w := rfl

@[simp] theorem drawNumber_apply (w : Work) : drawNumber w = .ok w.draws { w with draws := w.draws + 1 } := rfl

theorem rotWriteStart_ok {i : Nat} {x : BitVec 16} {w : Work} (hq : w.quota = none) :
    rotWriteStart i x w = .ok () { w with rotStart := tablePut w.rotStart i x } := by
  unfold rotWriteStart; rw [eng_bind_ok (spend_ok hq)]; rfl

theorem rotWriteLen_ok {i : Nat} {x : BitVec 16} {w : Work} (hq : w.quota = none) :
    rotWriteLen i x w = .ok () { w with rotLen := tablePut w.rotLen i x } := by
  unfold rotWriteLen; rw [eng_bind_ok (spend_ok hq)]; rfl

theorem rotWritePhase_ok {i : Nat} {p : Word} {w : Work} (hq : w.quota = none) :
    rotWritePhase i p w = .ok () { w with rotPhase := tablePut w.rotPhase i p } := by
  unfold rotWritePhase; rw [eng_bind_ok (spend_ok hq)]; rfl

/-! ### Loops -/

@[simp] theorem loopFrom_zero (f : Nat → Eng Unit) (k : Nat) (w : Work) : loopFrom f 0 k w = .ok () w := rfl

theorem loopFrom_succ (f : Nat → Eng Unit) (n k : Nat) : loopFrom f (n + 1) k = (f k >>= fun _ => loopFrom f n (k + 1)) :=
  rfl

/-- A loop whose every call ends well reaches its end, and what each call establishes holds there. -/
theorem loopFrom_ok {f : Nat → Eng Unit} (P : Nat → Work → Prop) {n k : Nat}
    (hstep : ∀ j w, k ≤ j → j < k + n → P j w → ∃ w', f j w = .ok () w' ∧ P (j + 1) w') {w : Work} (h0 : P k w) :
    ∃ w', loopFrom f n k w = .ok () w' ∧ P (k + n) w' := by
  induction n generalizing k w with
  | zero => exact ⟨w, rfl, h0⟩
  | succ n ih =>
    obtain ⟨w1, e1, h1⟩ := hstep k w (Nat.le_refl k) (by omega) h0
    obtain ⟨w2, e2, h2⟩ := ih (k := k + 1) (fun j u hj hj' => hstep j u (by omega) (by omega)) h1
    refine ⟨w2, ?_, ?_⟩
    · rw [loopFrom_succ, eng_bind_ok e1, e2]
    · have : k + (n + 1) = k + 1 + n := by omega
      rw [this]; exact h2

/-- `loopFrom_ok` for `loop`. -/
theorem loop_ok {f : Nat → Eng Unit} (P : Nat → Work → Prop) {n : Nat}
    (hstep : ∀ j w, j < n → P j w → ∃ w', f j w = .ok () w' ∧ P (j + 1) w') {w : Work} (h0 : P 0 w) :
    ∃ w', loop n f w = .ok () w' ∧ P n w' := by
  obtain ⟨w', e, h⟩ := loopFrom_ok (f := f) P (n := n) (k := 0) (fun j u _ hj => hstep j u (by omega)) h0
  exact ⟨w', e, by simpa using h⟩

/-! ### What a command's pseudocode keeps -/

/-- However `x` ends, the working state it leaves is related by `R` to the one it began with, and it is cut short only when
its quota of writes is used up. -/
def Keeps (R : Work → Work → Prop) (x : Eng α) : Prop :=
  ∀ w, match x w with
    | .ok _ w' => R w w'
    | .error e w' => R w w' ∧ (e = .cut → w'.quota = some 0)

/-- A relation that holds of no change and of one change after another. -/
structure Chain (R : Work → Work → Prop) : Prop where
  refl : ∀ w, R w w
  trans : ∀ {a b c}, R a b → R b c → R a c

variable {R : Work → Work → Prop}

theorem keeps_pure (hR : Chain R) (a : α) : Keeps R (pure a : Eng α) := fun w => hR.refl w

theorem keeps_raise (hR : Chain R) (e : CmdError) (i : Int) : Keeps R (raise e i : Eng α) :=
  fun w => ⟨hR.refl w, by intro h; cases h⟩

theorem keeps_raiseEof (hR : Chain R) : Keeps R (raiseEof : Eng α) := fun w => ⟨hR.refl w, by intro h; cases h⟩

theorem keeps_raiseIf (hR : Chain R) (c : Bool) (e : CmdError) (i : Int) : Keeps R (raiseIf c e i) := by
  unfold raiseIf; split
  · exact keeps_raise hR e i
  · exact keeps_pure hR ()

theorem keeps_bind (hR : Chain R) {x : Eng α} {f : α → Eng β} (hx : Keeps R x) (hf : ∀ a, Keeps R (f a)) :
    Keeps R (x >>= f) := by
  intro w
  rw [eng_bind]
  have h1 := hx w
  cases h : x w with
  | ok a w' =>
    rw [h] at h1
    have h2 := hf a w'
    simp only
    cases h' : f a w' with
    | ok b w'' => rw [h'] at h2; exact hR.trans h1 h2
    | error e w'' => rw [h'] at h2; exact ⟨hR.trans h1 h2.1, h2.2⟩
  | error e w' => rw [h] at h1; exact h1

theorem keeps_ite {c : Prop} [Decidable c] {x y : Eng α} (hx : Keeps R x) (hy : Keeps R y) :
    Keeps R (if c then x else y) := by
  split
  · exact hx
  · exact hy

theorem keeps_loopFrom (hR : Chain R) {f : Nat → Eng Unit} {n k : Nat} (h : ∀ j, k ≤ j → j < k + n → Keeps R (f j)) :
    Keeps R (loopFrom f n k) := by
  induction n generalizing k with
  | zero => exact keeps_pure hR ()
  | succ n ih =>
    rw [loopFrom_succ]
    exact keeps_bind hR (h k (Nat.le_refl k) (by omega)) fun _ => ih fun j hj hj' => h j (by omega) (by omega)

theorem keeps_loop (hR : Chain R) {f : Nat → Eng Unit} {n : Nat} (h : ∀ j, j < n → Keeps R (f j)) : Keeps R (loop n f) :=
  keeps_loopFrom hR fun j _ hj => h j (by omega)

theorem keeps_repeatTimes (hR : Chain R) {f : Eng Unit} {n : Nat} (h : Keeps R f) : Keeps R (repeatTimes n f) :=
  keeps_loop hR fun _ _ => h

theorem keeps_readWork (hR : Chain R) (f : Work → α) : Keeps R (readWork f) := fun w => hR.refl w

theorem keeps_modifyWork {f : Work → Work} (h : ∀ w, R w (f w)) : Keeps R (modifyWork f) := fun w => h w

/-- What a read of system memory keeps: it changes nothing but the count of free values. -/
theorem keeps_memRead (hR : Chain R) (hd : ∀ w n, R w { w with draws := n }) (v : View) (a : Nat) :
    Keeps R (memRead v a) := by
  intro w
  by_cases h : a < v.plat.memSize
  · by_cases hc : a ∈ v.contested
    · simpa [memRead, h, hc] using hd w (w.draws + 1)
    · simpa [memRead, h, hc] using hR.refl w
  · simpa [memRead, h] using hR.refl w

theorem keeps_spend (hR : Chain R) (hq : ∀ w n, w.quota = some (n + 1) → R w { w with quota := some n }) :
    Keeps R spend := by
  intro w
  cases h : w.quota with
  | none => simpa [spend, h] using hR.refl w
  | some n =>
    cases n with
    | zero => simpa [spend, h] using hR.refl w
    | succ n => simpa [spend, h] using hq w n h

/-- What a write of system memory keeps: it changes one byte that exists, or nothing. -/
theorem keeps_memWrite (hR : Chain R) (hq : ∀ w n, w.quota = some (n + 1) → R w { w with quota := some n }) (v : View) (a : Nat) (x : Byte)
    (hm : a < v.plat.memSize → ∀ w, R w { w with mem := w.mem.write a x }) : Keeps R (memWrite v a x) := by
  unfold memWrite
  split
  next h => exact keeps_bind hR (keeps_spend hR hq) fun _ => keeps_modifyWork (hm h)
  · exact keeps_raise hR _ _

theorem keeps_palWrite (hR : Chain R) (hq : ∀ w n, w.quota = some (n + 1) → R w { w with quota := some n }) (b i : Nat) (c : Rgb)
    (hp : ∀ w, R w { w with pal := tablePut w.pal (palKey b i) c }) : Keeps R (palWrite b i c) :=
  keeps_bind hR (keeps_spend hR hq) fun _ => keeps_modifyWork hp

theorem keeps_drawNumber (hd : ∀ w n, R w { w with draws := n }) : Keeps R drawNumber := fun w => hd w _

theorem keeps_rotWriteStart (hR : Chain R) (hq : ∀ w n, w.quota = some (n + 1) → R w { w with quota := some n }) (i : Nat)
    (x : BitVec 16) (hp : ∀ w, R w { w with rotStart := tablePut w.rotStart i x }) : Keeps R (rotWriteStart i x) :=
  keeps_bind hR (keeps_spend hR hq) fun _ => keeps_modifyWork hp

theorem keeps_rotWriteLen (hR : Chain R) (hq : ∀ w n, w.quota = some (n + 1) → R w { w with quota := some n }) (i : Nat)
    (x : BitVec 16) (hp : ∀ w, R w { w with rotLen := tablePut w.rotLen i x }) : Keeps R (rotWriteLen i x) :=
  keeps_bind hR (keeps_spend hR hq) fun _ => keeps_modifyWork hp

theorem keeps_rotWritePhase (hR : Chain R) (hq : ∀ w n, w.quota = some (n + 1) → R w { w with quota := some n }) (i : Nat) (p : Word)
    (hp : ∀ w, R w { w with rotPhase := tablePut w.rotPhase i p }) : Keeps R (rotWritePhase i p) :=
  keeps_bind hR (keeps_spend hR hq) fun _ => keeps_modifyWork hp

theorem keeps_inByte (hR : Chain R) (hd : ∀ w n, R w { w with draws := n }) (hi : ∀ w n, R w { w with icur := n })
    (v : View) (st : Stream) : Keeps R (inByte v st) := by
  refine keeps_bind hR (keeps_readWork hR _) fun k => ?_
  refine keeps_ite ?_ (keeps_raiseEof hR)
  exact keeps_bind hR (keeps_memRead hR hd v _) fun b =>
    keeps_bind hR (keeps_modifyWork fun w => hi w _) fun _ => keeps_pure hR b

theorem keeps_inWord (hR : Chain R) (hd : ∀ w n, R w { w with draws := n }) (hi : ∀ w n, R w { w with icur := n })
    (v : View) (st : Stream) : Keeps R (inWord v st) :=
  keeps_bind hR (keeps_inByte hR hd hi v st) fun _ => keeps_bind hR (keeps_inByte hR hd hi v st) fun _ => keeps_pure hR _

/-! ### How a command ends -/

/-- Everything running a command can do: its writes land, and it ends well with its staged results, in one error, or cut. -/
theorem runCmd_cases (s : State) (b : View → Eng Staged) :
    (∃ g w, b s.view (s.work none) = .ok g w ∧ s.runCmd b = (s.land w).commitDone g) ∨
    (∃ e i w, b s.view (s.work none) = .error (.raised e i) w ∧ s.runCmd b = (s.land w).raiseError e i) ∨
    (∃ w, b s.view (s.work none) = .error .cut w ∧ s.runCmd b = { s.land w with phase := .idle }) := by
  unfold State.runCmd
  cases h : b s.view (s.work none) with
  | ok g w => exact .inl ⟨g, w, rfl, rfl⟩
  | error e w =>
    cases e with
    | raised e i => exact .inr (.inl ⟨e, i, w, rfl, rfl⟩)
    | cut => exact .inr (.inr ⟨w, rfl, rfl⟩)

theorem runCmd_ok {s : State} {b : View → Eng Staged} {g : Staged} {w : Work} (h : b s.view (s.work none) = .ok g w) :
    s.runCmd b = (s.land w).commitDone g := by
  simp [State.runCmd, h, State.finish]

theorem runCmd_raised {s : State} {b : View → Eng Staged} {e : CmdError} {i : Int} {w : Work}
    (h : b s.view (s.work none) = .error (.raised e i) w) : s.runCmd b = (s.land w).raiseError e i := by
  simp [State.runCmd, h, State.finish]

end Sys2Proof.Machine
end

