-- ==== Sys2Proof/Laws/Frame.lean ====
section
/-! SUPPORT. What each command's pseudocode can change, said once: every change of the working state is a step of one of
the kinds of `Closed`, and every store lies in the command's regions of R92 (`body_frame`). -/

namespace Sys2Proof.Machine

variable {α β : Type}

/-- From every working state that meets `P`, `x` leaves one related by `R`, and one that meets `Q` where it ends well. -/
def Triple (P : Work → Prop) (R : Work → Work → Prop) (x : Eng α) (Q : α → Work → Prop) : Prop :=
  ∀ w, P w → match x w with
    | .ok a w' => R w w' ∧ Q a w'
    | .error e w' => R w w' ∧ (e = .cut → w'.quota = some 0)

variable {P : Work → Prop} {R : Work → Work → Prop} {Q : α → Work → Prop}

theorem triple_pure (hR : Chain R) {a : α} (h : ∀ w, P w → Q a w) : Triple P R (pure a : Eng α) Q :=
  fun w hw => ⟨hR.refl w, h w hw⟩

theorem triple_bind (hR : Chain R) {x : Eng α} {f : α → Eng β} {Q' : β → Work → Prop} (hx : Triple P R x Q)
    (hf : ∀ a, Triple (Q a) R (f a) Q') : Triple P R (x >>= f) Q' := by
  intro w hw
  rw [eng_bind]
  have h1 := hx w hw
  cases h : x w with
  | ok a w' =>
    rw [h] at h1
    have h2 := hf a w' h1.2
    simp only
    cases h' : f a w' with
    | ok b w'' => rw [h'] at h2; exact ⟨hR.trans h1.1 h2.1, h2.2⟩
    | error e w'' => rw [h'] at h2; exact ⟨hR.trans h1.1 h2.1, h2.2⟩
  | error e w' => rw [h] at h1; exact h1

/-- A part that keeps `R` from everywhere, with nothing said of where it ends. -/
theorem triple_of_keeps {x : Eng α} (h : Keeps R x) : Triple P R x fun _ _ => True := by
  intro w _
  have h1 := h w
  cases hx : x w with
  | ok a w' => rw [hx] at h1; exact ⟨h1, trivial⟩
  | error e w' => rw [hx] at h1; exact h1

/-- A triple from everywhere. -/
theorem keeps_of_triple {x : Eng α} (h : Triple (fun _ => True) R x Q) : Keeps R x := by
  intro w
  have h1 := h w trivial
  cases hx : x w with
  | ok a w' => rw [hx] at h1; exact h1.1
  | error e w' => rw [hx] at h1; exact h1

/-- A check: past it, the condition is false. -/
theorem triple_raiseIf (hR : Chain R) {c : Bool} {e : CmdError} {i : Int} :
    Triple P R (raiseIf c e i) fun _ w => P w ∧ c = false := by
  intro w hw
  rw [raiseIf_apply]
  cases c
  · exact ⟨hR.refl w, hw, rfl⟩
  · exact ⟨hR.refl w, by intro h; cases h⟩

theorem triple_readWork (hR : Chain R) (f : Work → α) : Triple P R (readWork f) fun a w => P w ∧ a = f w :=
  fun w hw => ⟨hR.refl w, hw, rfl⟩

/-- A loop with an invariant over its counter. -/
theorem triple_loopFrom (hR : Chain R) {f : Nat → Eng Unit} (I : Nat → Work → Prop) {n k : Nat}
    (h : ∀ j, k ≤ j → j < k + n → Triple (I j) R (f j) fun _ => I (j + 1)) :
    Triple (I k) R (loopFrom f n k) fun _ => I (k + n) := by
  induction n generalizing k with
  | zero => exact triple_pure hR fun w hw => hw
  | succ n ih =>
    rw [loopFrom_succ]
    refine triple_bind hR (h k (Nat.le_refl k) (by omega)) fun _ => ?_
    have := ih (k := k + 1) fun j hj hj' => h j (by omega) (by omega)
    rwa [show k + 1 + n = k + (n + 1) by omega] at this

theorem triple_loop (hR : Chain R) {f : Nat → Eng Unit} (I : Nat → Work → Prop) {n : Nat}
    (h : ∀ j, j < n → Triple (I j) R (f j) fun _ => I (j + 1)) : Triple (I 0) R (loop n f) fun _ => I n := by
  have := triple_loopFrom hR (f := f) I (n := n) (k := 0) fun j _ hj => h j (by omega)
  rwa [Nat.zero_add] at this

/-- What a command may change: bytes of system memory, the palette RAM, the two parts of the rotation RAM. -/
structure Allowed where
  mem : Nat → Prop
  pal : Prop
  rotRow : Prop
  rotPhase : Prop

/-- A relation that every single change of a command is an instance of. -/
structure Closed (memSize : Nat) (A : Allowed) (R : Work → Work → Prop) : Prop extends Chain R where
  draws : ∀ w n, R w { w with draws := n }
  quota : ∀ w n, w.quota = some (n + 1) → R w { w with quota := some n }
  icur : ∀ w n, R w { w with icur := n }
  ocur : ∀ w n, R w { w with ocur := n }
  queue : ∀ w q n, R w { w with queue := q, qbits := n }
  written : ∀ w n, R w { w with written := n }
  mem : ∀ a, a < memSize → A.mem a → ∀ w x, R w { w with mem := w.mem.write a x }
  pal : A.pal → ∀ k, k < 512 → ∀ w c, R w { w with pal := tablePut w.pal k c }
  rotStart : A.rotRow → ∀ k, k < 99 → ∀ w x, R w { w with rotStart := tablePut w.rotStart k x }
  rotLen : A.rotRow → ∀ k, k < 99 → ∀ w x, R w { w with rotLen := tablePut w.rotLen k x }
  rotPhase : A.rotPhase → ∀ k, k < 99 → ∀ w p, R w { w with rotPhase := tablePut w.rotPhase k p }

section
variable {v : View} {A : Allowed} {R : Work → Work → Prop}

/-! ### Shared operations -/

theorem Closed.store (hR : Closed v.plat.memSize A R) {a : Nat} {x : Byte} (h : A.mem a) : Keeps R (memWrite v a x) :=
  keeps_memWrite hR.toChain hR.quota v a x fun ha w => hR.mem a ha h w x

theorem Closed.load (hR : Closed v.plat.memSize A R) (a : Nat) : Keeps R (memRead v a) :=
  keeps_memRead hR.toChain hR.draws v a

theorem Closed.byte (hR : Closed v.plat.memSize A R) (st : Stream) : Keeps R (inByte v st) :=
  keeps_inByte hR.toChain hR.draws hR.icur v st

theorem Closed.word (hR : Closed v.plat.memSize A R) (st : Stream) : Keeps R (inWord v st) :=
  keeps_inWord hR.toChain hR.draws hR.icur v st

theorem Closed.setOut (hR : Closed v.plat.memSize A R) (k : Nat) : Keeps R (setOutputCursor k) :=
  keeps_modifyWork fun w => hR.ocur w k

theorem Closed.setIn (hR : Closed v.plat.memSize A R) (k : Nat) : Keeps R (setInputCursor k) :=
  keeps_modifyWork fun w => hR.icur w k

/-- A palette key of a bank bit and an 8-bit index. -/
theorem palKey_lt {b i : Nat} (hb : b ≤ 1) (hi : i ≤ 255) : palKey b i < 512 := by unfold palKey; omega

theorem Params.bank_le (p : Params) : p.bank ≤ 1 := by
  have : p.bank < 2 := Nat.mod_lt _ (by decide)
  omega

theorem Params.palIdx_le (p : Params) : p.palIdx ≤ 255 := by
  have : p.palIdx < 256 := Nat.mod_lt _ (by decide)
  omega

theorem Closed.palPut (hR : Closed v.plat.memSize A R) (hp : A.pal) {b i : Nat} {c : Rgb} (hb : b ≤ 1) (hi : i ≤ 255) :
    Keeps R (palWrite b i c) :=
  keeps_palWrite hR.toChain hR.quota b i c fun w => hR.pal hp _ (palKey_lt hb hi) w c

/-! ### HSQ -/

theorem parseHeader_keeps (hR : Closed v.plat.memSize A R) (st : Stream) : Keeps R (parseHeader v st) := by
  have b := hR.byte st
  exact keeps_bind hR.toChain b fun _ => keeps_bind hR.toChain b fun _ => keeps_bind hR.toChain b fun _ =>
    keeps_bind hR.toChain b fun _ => keeps_bind hR.toChain b fun _ => keeps_bind hR.toChain b fun _ =>
      keeps_pure hR.toChain _

theorem getBit_keeps (hR : Closed v.plat.memSize A R) (st : Stream) : Keeps R (getBit v st) := by
  refine keeps_bind hR.toChain (keeps_bind hR.toChain (keeps_readWork hR.toChain _) fun e => ?_) fun _ => ?_
  · refine keeps_ite ?_ (keeps_pure hR.toChain _)
    exact keeps_bind hR.toChain (hR.word st) fun _ => keeps_modifyWork fun w => hR.queue w _ _
  · exact keeps_bind hR.toChain (keeps_readWork hR.toChain _) fun _ =>
      keeps_bind hR.toChain (keeps_modifyWork fun w => hR.queue w _ _) fun _ => keeps_pure hR.toChain _

theorem hsqPut_keeps (hR : Closed v.plat.memSize A R) {dst usize : Nat} (hm : ∀ o, o < usize → A.mem (dst + o)) (x : Byte) :
    Keeps R (hsqPut v dst usize x) := by
  refine keeps_bind hR.toChain (keeps_readWork hR.toChain _) fun o => keeps_of_triple (Q := fun _ _ => True) ?_
  refine triple_bind hR.toChain (triple_raiseIf hR.toChain) fun _ w hw => ?_
  have ho : o < usize := by simpa using hw.2
  exact triple_of_keeps (P := fun _ => True)
    (keeps_bind hR.toChain (hR.store (hm o ho)) fun _ => hR.setOut _) w trivial

theorem hsqCopy_keeps (hR : Closed v.plat.memSize A R) {dst usize : Nat} (hm : ∀ o, o < usize → A.mem (dst + o))
    (dist len : Nat) : Keeps R (hsqCopy v dst usize dist len) := by
  refine keeps_bind hR.toChain (keeps_readWork hR.toChain _) fun o => ?_
  refine keeps_bind hR.toChain (keeps_raiseIf hR.toChain _ _ _) fun _ => keeps_repeatTimes hR.toChain ?_
  exact keeps_bind hR.toChain (keeps_readWork hR.toChain _) fun o =>
    keeps_bind hR.toChain (hR.load _) fun x => hsqPut_keeps hR hm x

theorem hsqToken_keeps (hR : Closed v.plat.memSize A R) {dst usize : Nat} (hm : ∀ o, o < usize → A.mem (dst + o))
    (st : Stream) : Keeps R (hsqToken v st dst usize) := by
  have bit := getBit_keeps hR st
  have byte := hR.byte st
  have word := hR.word st
  have copy := hsqCopy_keeps hR hm
  have ret : ∀ b : Bool, Keeps R (pure b : Eng Bool) := fun b => keeps_pure hR.toChain b
  refine keeps_bind hR.toChain bit fun l => keeps_ite ?_ (keeps_bind hR.toChain bit fun g => keeps_ite ?_ ?_)
  · exact keeps_bind hR.toChain byte fun x => keeps_bind hR.toChain (hsqPut_keeps hR hm x) fun _ => ret _
  · refine keeps_bind hR.toChain word fun w => keeps_ite ?_ (keeps_bind hR.toChain (copy _ _) fun _ => ret _)
    exact keeps_bind hR.toChain byte fun e => keeps_ite (ret _) (keeps_bind hR.toChain (copy _ _) fun _ => ret _)
  · refine keeps_bind hR.toChain ?_ fun _ => ret _
    exact keeps_bind hR.toChain bit fun _ => keeps_bind hR.toChain bit fun _ => keeps_bind hR.toChain byte fun _ => copy _ _

theorem hsqTokens_keeps (hR : Closed v.plat.memSize A R) {dst usize : Nat} (hm : ∀ o, o < usize → A.mem (dst + o))
    (st : Stream) (n : Nat) : Keeps R (hsqTokens v st dst usize n) := by
  induction n with
  | zero => exact keeps_raiseEof hR.toChain
  | succ n ih =>
    exact keeps_bind hR.toChain (hsqToken_keeps hR hm st) fun _ => keeps_ite (keeps_pure hR.toChain _) ih

theorem hsqCompressed_keeps (hR : Closed v.plat.memSize A R) {dst usize : Nat} (hm : ∀ o, o < usize → A.mem (dst + o))
    (st : Stream) (cap : Nat) : Keeps R (hsqCompressed v st dst cap usize) :=
  keeps_bind hR.toChain (keeps_raiseIf hR.toChain _ _ _) fun _ =>
    keeps_bind hR.toChain (hsqTokens_keeps hR hm st _) fun _ =>
      keeps_bind hR.toChain (keeps_readWork hR.toChain _) fun _ =>
        keeps_bind hR.toChain (keeps_raiseIf hR.toChain _ _ _) fun _ =>
          keeps_bind hR.toChain (keeps_readWork hR.toChain _) fun _ => keeps_pure hR.toChain _

theorem hsqVerbatim_keeps (hR : Closed v.plat.memSize A R) {dst : Nat} {st : Stream}
    (hm : ∀ o, o < st.len → A.mem (dst + o)) (cap : Nat) : Keeps R (hsqVerbatim v st dst cap) := by
  refine keeps_bind hR.toChain (keeps_raiseIf hR.toChain _ _ _) fun _ => ?_
  refine keeps_bind hR.toChain (keeps_loop hR.toChain fun k hk => ?_) fun _ => keeps_pure hR.toChain _
  exact keeps_bind hR.toChain (hR.load _) fun _ => hR.store (hm k hk)

/-! ### Palette -/

theorem palPairs_keeps (hR : Closed v.plat.memSize A R) (hp : A.pal) (st : Stream) {bk : Nat} (hb : bk ≤ 1) (n : Nat) :
    Keeps R (palPairs v st bk n) := by
  have byte := hR.byte st
  induction n with
  | zero => exact keeps_raiseEof hR.toChain
  | succ n ih =>
    refine keeps_bind hR.toChain byte fun i => keeps_bind hR.toChain byte fun c => ?_
    refine keeps_ite ?_ (keeps_ite (keeps_pure hR.toChain _) (keeps_bind hR.toChain ?_ fun _ => ih))
    · exact keeps_bind hR.toChain byte fun _ => keeps_bind hR.toChain byte fun _ => keeps_bind hR.toChain byte fun _ => ih
    · refine keeps_loop hR.toChain fun k _ => ?_
      refine keeps_bind hR.toChain byte fun _ => keeps_bind hR.toChain byte fun _ => keeps_bind hR.toChain byte fun _ => ?_
      split
      next h => exact hR.palPut hp hb h
      · exact keeps_pure hR.toChain _

theorem palFiller_keeps (hR : Closed v.plat.memSize A R) (st : Stream) (n : Nat) : Keeps R (palFiller v st n) := by
  induction n with
  | zero => exact keeps_pure hR.toChain _
  | succ n ih =>
    refine keeps_bind hR.toChain (keeps_readWork hR.toChain _) fun k => keeps_ite ?_ (keeps_pure hR.toChain _)
    refine keeps_bind hR.toChain (hR.load _) fun b => keeps_ite ?_ (keeps_pure hR.toChain _)
    exact keeps_bind hR.toChain (hR.setIn _) fun _ => ih

/-! ### Surface and RLE -/

/-- A grid fill stores inside its w × h bytes. -/
theorem fillGrid_keeps (hR : Closed v.plat.memSize A R) {base w h : Nat} (hm : ∀ o, o < w * h → A.mem (base + o)) (x : Byte) :
    Keeps R (fillGrid v base w h x) := by
  refine keeps_loop hR.toChain fun row hrow => keeps_loop hR.toChain fun col hcol => hR.store ?_
  have : row * w + col < w * h := by
    calc row * w + col < row * w + w := by omega
      _ = (row + 1) * w := by ring
      _ ≤ h * w := Nat.mul_le_mul_right w hrow
      _ = w * h := Nat.mul_comm h w
  simpa [Nat.add_assoc] using hm _ this

theorem rlePut_triple (hR : Closed v.plat.memSize A R) {out total : Nat} (hm : ∀ o, o < total → A.mem (out + o)) {k : Nat}
    (hk : k < total) (x : Byte) :
    Triple (fun w => w.ocur = k) R (rlePut v out x) fun _ w => w.ocur = k + 1 := by
  intro w hw
  subst hw
  have hs := hR.store (x := x) (hm w.ocur hk) w
  unfold rlePut
  rw [eng_bind_ok (outputCursor_apply w), eng_bind]
  cases h : memWrite v (out + w.ocur) x w with
  | ok u w' =>
    rw [h] at hs
    exact ⟨hR.trans hs (hR.ocur w' _), rfl⟩
  | error e w' => rw [h] at hs; exact hs

/-- Reading the stream leaves the output cursor. -/
theorem inByte_ocur (hR : Closed v.plat.memSize A R) (st : Stream) {k : Nat} :
    Triple (fun w => w.ocur = k) R (inByte v st) fun _ w => w.ocur = k := by
  intro w hw
  have h1 := hR.byte st w
  have h2 : Keeps (fun a b : Work => b.ocur = a.ocur) (inByte v st) :=
    keeps_inByte (R := fun a b : Work => b.ocur = a.ocur) ⟨fun _ => rfl, fun h h' => h'.trans h⟩ (fun _ _ => rfl)
      (fun _ _ => rfl) v st
  have h2 := h2 w
  cases h : inByte v st w with
  | ok a w' => rw [h] at h1 h2; exact ⟨h1, h2.trans hw⟩
  | error e w' => rw [h] at h1; exact h1

/-- The bytes of one run are stored at the output cursor, which moves by their number. -/
theorem rleBytes_triple (hR : Closed v.plat.memSize A R) (st : Stream) {out total : Nat}
    (hm : ∀ o, o < total → A.mem (out + o)) {k : Nat} {c : Byte} (hk : k + rleLength c ≤ total) :
    Triple (fun w => w.ocur = k) R (rleBytes v st out c) fun _ w => w.ocur = k + rleLength c := by
  unfold rleBytes
  split
  · refine triple_bind hR.toChain (inByte_ocur hR st) fun x => ?_
    exact triple_loop hR.toChain (fun j w => w.ocur = k + j) fun j hj => rlePut_triple hR hm (by omega) x
  · refine triple_loop hR.toChain (fun j w => w.ocur = k + j) fun j hj => ?_
    exact triple_bind hR.toChain (inByte_ocur hR st) fun x => rlePut_triple hR hm (by omega) x

/-- A run has at least one byte. -/
theorem rleLength_pos (c : Byte) : 1 ≤ rleLength c := by unfold rleLength; split <;> omega

/-- One run stores at the output cursor, inside the room it is given, and moves the cursor by its length. -/
theorem rleRun_triple (hR : Closed v.plat.memSize A R) (st : Stream) {out total : Nat}
    (hm : ∀ o, o < total → A.mem (out + o)) {k room : Nat} (hk : k + room ≤ total) :
    Triple (fun w => w.ocur = k) R (rleRun v st out room) fun n w => w.ocur = k + n ∧ 1 ≤ n ∧ n ≤ room := by
  unfold rleRun
  refine triple_bind hR.toChain (Q := fun _ w => w.ocur = k) ?_ fun cpos => ?_
  · intro w hw; exact ⟨hR.refl w, hw⟩
  refine triple_bind hR.toChain (inByte_ocur hR st) fun c => ?_
  refine triple_bind hR.toChain (triple_raiseIf hR.toChain) fun _ => ?_
  intro w hw
  have hn : rleLength c ≤ room := by simpa using hw.2
  exact triple_bind hR.toChain (rleBytes_triple hR st hm (by omega)) (fun _ =>
    triple_pure hR.toChain fun w hw => ⟨hw, rleLength_pos c, hn⟩) w hw.1

/-- One row stores `pitch` bytes at most, and fills it exactly where it ends well. -/
theorem rleRow_triple (hR : Closed v.plat.memSize A R) (st : Stream) {out total pitch k : Nat}
    (hm : ∀ o, o < total → A.mem (out + o)) (hk : k + pitch ≤ total) (n emitted : Nat) (he : emitted ≤ pitch)
    (hn : pitch - emitted ≤ n) :
    Triple (fun w => w.ocur = k + emitted) R (rleRow v st out pitch n emitted) fun _ w => w.ocur = k + pitch := by
  induction n generalizing emitted with
  | zero =>
    have : emitted = pitch := by omega
    subst this
    exact triple_pure hR.toChain fun w hw => hw
  | succ n ih =>
    unfold rleRow
    split
    next hlt =>
      refine triple_bind hR.toChain (rleRun_triple hR st hm (k := k + emitted) (by omega)) fun len w hw => ?_
      exact ih (emitted + len) (by omega) (by omega) w (by show w.ocur = _; omega)
    next hge =>
      have : emitted = pitch := by omega
      subst this
      exact triple_pure hR.toChain fun w hw => hw

/-- R231: the decoder stores inside its `height × pitch` bytes. -/
theorem rleDecode_keeps (hR : Closed v.plat.memSize A R) (st : Stream) {out height pitch : Nat}
    (hm : ∀ o, o < height * pitch → A.mem (out + o)) : Keeps R (rleDecode v st out height pitch) := by
  refine keeps_of_triple (Q := fun _ _ => True) ?_
  unfold rleDecode
  refine triple_bind hR.toChain (Q := fun _ w => w.ocur = 0) ?_ fun _ => ?_
  · intro w _; exact ⟨hR.ocur w 0, rfl⟩
  intro w hw
  have h := triple_loop hR.toChain (f := fun _ => rleRow v st out pitch pitch 0) (fun j u => u.ocur = j * pitch)
    (n := height) (fun j hj => by
      have hb : j * pitch + pitch ≤ height * pitch := by
        calc j * pitch + pitch = (j + 1) * pitch := by ring
          _ ≤ height * pitch := Nat.mul_le_mul_right pitch hj
      have := rleRow_triple hR st hm hb pitch 0 (by omega) (by omega)
      simpa [Nat.add_mul, Nat.add_comm] using this) w (by simpa using hw)
  cases hx : loop height (fun _ => rleRow v st out pitch pitch 0) w with
  | ok a w' => rw [hx] at h; exact ⟨h.1, trivial⟩
  | error e w' => rw [hx] at h; exact h

/-! ### Drawing -/

/-- A point of the clip rect lies in the surface, and so does its offset. -/
theorem clipRect_offset {p : Params} {x y : Int} (h : p.clipRect.contains x y = true) :
    0 ≤ x ∧ x < p.surfW ∧ 0 ≤ y ∧ y < p.surfH ∧ pixelOffset p.surfW x y < p.surfW * p.surfH := by
  simp only [Rect.contains, Bool.and_eq_true, decide_eq_true_eq] at h
  simp only [Params.clipRect, clamp] at h
  obtain ⟨⟨⟨h1, h2⟩, h3⟩, h4⟩ := h
  have hx : 0 ≤ x := by omega
  have hx' : x < p.surfW := by omega
  have hy : 0 ≤ y := by omega
  have hy' : y < p.surfH := by omega
  refine ⟨hx, hx', hy, hy', ?_⟩
  obtain ⟨a, rfl⟩ := Int.eq_ofNat_of_zero_le hx
  obtain ⟨b, rfl⟩ := Int.eq_ofNat_of_zero_le hy
  have ha : a < p.surfW := by exact_mod_cast hx'
  have hb : b < p.surfH := by exact_mod_cast hy'
  have e : pixelOffset p.surfW (a : Int) (b : Int) = b * p.surfW + a := by
    unfold pixelOffset; rw [← Int.natCast_mul, ← Int.natCast_add]; rfl
  rw [e]
  calc b * p.surfW + a < b * p.surfW + p.surfW := by omega
    _ = (b + 1) * p.surfW := by ring
    _ ≤ p.surfH * p.surfW := Nat.mul_le_mul_right _ hb
    _ = p.surfW * p.surfH := Nat.mul_comm _ _

/-- A plot stores in the surface and, with an index map, in the index map. -/
theorem plot_keeps (hR : Closed v.plat.memSize A R)
    (hs : ∀ o, o < v.snap.surfW * v.snap.surfH → A.mem (v.snap.surfBase.toNat + o))
    (hi : v.snap.imapEn = true → ∀ o, o < v.snap.surfW * v.snap.surfH → A.mem (v.snap.imapBase.toNat + o))
    (x y : Int) (c : Byte) : Keeps R (plot v v.snap.clipRect x y c) := by
  unfold plot
  split
  next h =>
    have ho := (clipRect_offset h).2.2.2.2
    refine keeps_bind hR.toChain (hR.store (hs _ ho)) fun _ => keeps_bind hR.toChain ?_ fun _ => ?_
    · unfold markOwner
      split
      next he => exact hR.store (hi he _ ho)
      · exact keeps_pure hR.toChain _
    · exact keeps_modifyWork fun w => hR.written w _
  · exact keeps_pure hR.toChain _

theorem blitDraw_keeps (hR : Closed v.plat.memSize A R)
    (hs : ∀ o, o < v.snap.surfW * v.snap.surfH → A.mem (v.snap.surfBase.toNat + o))
    (hi : v.snap.imapEn = true → ∀ o, o < v.snap.surfW * v.snap.surfH → A.mem (v.snap.imapBase.toNat + o)) (pix : Nat) :
    Keeps R (blitDraw v v.snap.clipRect pix) := by
  have plot := plot_keeps hR hs hi
  have nib : ∀ p dw dh sx sy x y, Keeps R (drawNibble v v.snap.clipRect pix p dw dh sx sy x y) := by
    intro p dw dh sx sy x y
    refine keeps_bind hR.toChain (keeps_bind hR.toChain (hR.load _) fun _ => keeps_pure hR.toChain _) fun n => ?_
    exact keeps_ite (keeps_pure hR.toChain _) (plot _ _ _)
  unfold blitDraw
  refine keeps_ite ?_ (keeps_ite ?_ ?_)
  · refine keeps_loop hR.toChain fun y _ => keeps_loop hR.toChain fun x _ => ?_
    exact keeps_bind hR.toChain (hR.load _) fun b => keeps_ite (keeps_pure hR.toChain _) (plot _ _ _)
  · exact keeps_loop hR.toChain fun y _ => keeps_loop hR.toChain fun x _ => nib _ _ _ _ _ _ _
  · exact keeps_loop hR.toChain fun y _ => keeps_loop hR.toChain fun x _ => nib _ _ _ _ _ _ _

/-! ### Globe -/

theorem computePhases_keeps (hR : Closed v.plat.memSize A R) (hp : A.rotPhase) (rot : Nat) :
    Keeps R (computePhases rot) := by
  refine keeps_bind hR.toChain (keeps_drawNumber hR.draws) fun _ => keeps_bind hR.toChain
    (keeps_rotWritePhase hR.toChain hR.quota 0 _ fun w => hR.rotPhase hp 0 (by omega) w _) fun _ => ?_
  refine keeps_loopFrom hR.toChain fun j hj hj' => keeps_bind hR.toChain (keeps_readWork hR.toChain _) fun e => ?_
  exact keeps_rotWritePhase hR.toChain hR.quota j _ fun w => hR.rotPhase hp j (by omega) w _

theorem globePlot_keeps (hR : Closed v.plat.memSize A R)
    (hs : ∀ o, o < v.snap.surfW * v.snap.surfH → A.mem (v.snap.surfBase.toNat + o)) (x y : Int) (c : Byte) :
    Keeps R (globePlot v x y c) := by
  unfold globePlot
  split
  next h =>
    obtain ⟨hx, hx', hy, hy'⟩ := h
    refine hR.store (hs _ ?_)
    obtain ⟨a, rfl⟩ := Int.eq_ofNat_of_zero_le hx
    obtain ⟨b, rfl⟩ := Int.eq_ofNat_of_zero_le hy
    have ha : a < v.snap.surfW := by exact_mod_cast hx'
    have hb : b < v.snap.surfH := by exact_mod_cast hy'
    have e : ((b : Int) * v.snap.surfW + a).toNat = b * v.snap.surfW + a := by
      rw [← Int.natCast_mul, ← Int.natCast_add]; rfl
    rw [e]
    calc b * v.snap.surfW + a < b * v.snap.surfW + v.snap.surfW := by omega
      _ = (b + 1) * v.snap.surfW := by ring
      _ ≤ v.snap.surfH * v.snap.surfW := Nat.mul_le_mul_right _ hb
      _ = v.snap.surfW * v.snap.surfH := Nat.mul_comm _ _
  · exact keeps_pure hR.toChain _

theorem mapByte_keeps (G : GlobeFns) (hR : Closed v.plat.memSize A R) (x row : Nat) (half : Half) (side : Side)
    (sec : Section) (lat : Nat) : Keeps R (mapByte G v x row half side sec lat) := by
  refine keeps_bind hR.toChain (keeps_raiseIf hR.toChain _ _ _) fun _ => ?_
  refine keeps_bind hR.toChain (keeps_raiseIf hR.toChain _ _ _) fun _ => ?_
  refine keeps_bind hR.toChain (hR.load _) fun rs => keeps_bind hR.toChain (hR.load _) fun sd => ?_
  refine keeps_bind hR.toChain (keeps_raiseIf hR.toChain _ _ _) fun _ => ?_
  refine keeps_bind hR.toChain (keeps_readWork hR.toChain _) fun e => ?_
  exact keeps_ite (keeps_raise hR.toChain _ _) (hR.load _)

theorem drawGlobe_keeps (G : GlobeFns) (hR : Closed v.plat.memSize A R) (hp : A.rotPhase)
    (hs : ∀ o, o < v.snap.surfW * v.snap.surfH → A.mem (v.snap.surfBase.toNat + o)) : Keeps R (drawGlobe G v) := by
  have side : ∀ half row x sec lat sd, Keeps R (globeSide G v half row x sec lat sd) := fun half row x sec lat sd =>
    keeps_bind hR.toChain (mapByte_keeps G hR _ _ _ _ _ _) fun m => globePlot_keeps hR hs _ _ _
  have column : ∀ half row x, Keeps R (globeColumn G v half row x) := by
    intro half row x
    refine keeps_bind hR.toChain (hR.byte _) fun b => keeps_bind hR.toChain ?_ fun place =>
      keeps_bind hR.toChain (side _ _ _ _ _ _) fun _ => side _ _ _ _ _ _
    exact keeps_ite (keeps_raise hR.toChain _ _) (keeps_pure hR.toChain _)
  have runs : ∀ half n row, Keeps R (globeRuns G v half n row) := by
    intro half n
    induction n with
    | zero => exact fun _ => keeps_raiseEof hR.toChain
    | succ n ih =>
      intro row
      refine keeps_bind hR.toChain (hR.byte _) fun b => keeps_ite (keeps_pure hR.toChain _) ?_
      exact keeps_bind hR.toChain (keeps_loop hR.toChain fun k _ => column _ _ _) fun _ => ih _
  have halves : ∀ half, Keeps R (globeHalf G v half) := fun half =>
    keeps_bind hR.toChain (hR.setIn _) fun _ => runs _ _ _
  exact keeps_bind hR.toChain (computePhases_keeps hR hp _) fun _ => keeps_bind hR.toChain (halves _) fun _ =>
    keeps_bind hR.toChain (halves _) fun _ => keeps_pure hR.toChain _

/-! ### Every command -/

/-- A byte of one of the regions lies in the regions. -/
theorem inRegions_of_mem {rs : List (Nat × Nat)} {r : Nat × Nat} (hr : r ∈ rs) {o : Nat} (ho : o < r.2) :
    inRegions rs (r.1 + o) = true := by
  unfold inRegions
  rw [List.any_eq_true]
  exact ⟨r, hr, by simp; omega⟩

/-- A byte read off an uncontested stream is the byte in memory. -/
theorem inByte_value (hR : Closed v.plat.memSize A R) (hc : v.contested = []) (st : Stream) {m : Memory} {k : Nat} :
    Triple (fun w => w.mem = m ∧ w.icur = k) R (inByte v st)
      fun b w => (w.mem = m ∧ w.icur = k + 1) ∧ b = m.read (st.base + k) := by
  rintro w ⟨rfl, rfl⟩
  by_cases hk : w.icur < st.len
  · by_cases ha : st.base + w.icur < v.plat.memSize
    · rw [inByte_ok hk ha (by simp [hc])]
      exact ⟨hR.icur w _, ⟨rfl, rfl⟩, rfl⟩
    · unfold inByte
      rw [eng_bind_ok (inputCursor_apply w), if_pos hk, eng_bind_error (memRead_busError (by omega))]
      exact ⟨hR.refl w, by intro h; cases h⟩
  · rw [inByte_eof (by omega)]; exact ⟨hR.refl w, by intro h; cases h⟩

/-- The header read off an uncontested source is the one memory holds at the start (R161). -/
theorem parseHeader_value (hR : Closed v.plat.memSize A R) (hc : v.contested = []) {m : Memory} :
    Triple (fun w => w.mem = m ∧ w.icur = 0) R (parseHeader v v.source) fun h _ => h = headerAt v.snap m := by
  unfold parseHeader
  refine triple_bind hR.toChain (inByte_value hR hc _) fun h0 => ?_
  intro w0 hw0
  refine triple_bind hR.toChain (inByte_value hR hc _ (m := m) (k := 1)) (fun h1 => ?_) w0 hw0.1
  intro w1 hw1
  refine triple_bind hR.toChain (inByte_value hR hc _ (m := m) (k := 2)) (fun h2 => ?_) w1 hw1.1
  intro w2 hw2
  refine triple_bind hR.toChain (inByte_value hR hc _ (m := m) (k := 3)) (fun h3 => ?_) w2 hw2.1
  intro w3 hw3
  refine triple_bind hR.toChain (inByte_value hR hc _ (m := m) (k := 4)) (fun h4 => ?_) w3 hw3.1
  intro w4 hw4
  refine triple_bind hR.toChain (inByte_value hR hc _ (m := m) (k := 5)) (fun h5 => ?_) w4 hw4.1
  refine triple_pure hR.toChain fun w5 hw5 => ?_
  rw [hw0.2, hw1.2, hw2.2, hw3.2, hw4.2, hw5.2]
  rfl

/-- R92: everything a command's pseudocode can change, on whatever state: bytes of the command's regions (any byte that
exists, where the host contests bytes of a header), the palette RAM for PAL_APPLY, PAL_WRITE and PAL_COPY, the rotation
rows for ROT_WRITE, the rotation phases for GLOBE_PHASE and GLOBE_DRAW. -/
theorem body_frame (hR : Closed v.plat.memSize A R) (i : Instr) {m : Memory}
    (hmem : (∀ a, A.mem a) ∨ (v.contested = [] ∧ ∀ a, inRegions (footprint i v.snap m).writes a = true → A.mem a))
    (hpal : i = .palApply ∨ i = .palWrite ∨ i = .palCopy → A.pal) (hrow : i = .rotWrite → A.rotRow)
    (hphase : i = .globePhase ∨ i = .globeDraw → A.rotPhase) :
    Triple (fun w => w.mem = m ∧ w.icur = 0) R (body i v) fun _ _ => True := by
  have hm : ∀ r ∈ (footprint i v.snap m).writes, ∀ o, o < r.2 → A.mem (r.1 + o) := by
    intro r hr o ho
    rcases hmem with h | ⟨_, h⟩
    · exact h _
    · exact h _ (inRegions_of_mem hr ho)
  have byte := hR.byte v.source
  have ret : ∀ g : Staged, Keeps R (pure g : Eng Staged) := fun g => keeps_pure hR.toChain g
  have of : ∀ {x : Eng Staged}, Keeps R x → Triple (fun w => w.mem = m ∧ w.icur = 0) R x fun _ _ => True :=
    fun h => triple_of_keeps h
  have check := fun (c : Bool) (e : CmdError) (n : Int) => keeps_raiseIf (R := R) hR.toChain c e n
  cases i with
  | nop => exact of (ret _)
  | hsqProbe => exact of (keeps_bind hR.toChain (parseHeader_keeps hR _) fun _ => ret _)
  | hsqDecompress =>
    rcases hmem with hall | ⟨hc, hin⟩
    · refine of (keeps_bind hR.toChain (parseHeader_keeps hR _) fun h => keeps_ite ?_ ?_)
      · exact hsqCompressed_keeps hR (fun _ _ => hall _) _ _
      · exact hsqVerbatim_keeps hR (fun _ _ => hall _) _
    · refine triple_bind hR.toChain (parseHeader_value hR hc) fun h w hw => ?_
      obtain rfl : h = headerAt v.snap m := hw
      have hm' : ∀ o, o < hsqOutLen v.snap m → A.mem (v.snap.dstAddr.toNat + o) :=
        fun o ho => hm (v.snap.dstAddr.toNat, hsqOutLen v.snap m) (by simp [footprint]) o ho
      revert w
      split
      next hok =>
        refine fun w => triple_of_keeps (P := fun _ => True) (hsqCompressed_keeps hR (fun o ho => hm' o ?_) _ _) w trivial
        simpa [hsqOutLen, hok] using ho
      next hok =>
        refine fun w => triple_of_keeps (P := fun _ => True) (hsqVerbatim_keeps hR (fun o ho => hm' o ?_) _) w trivial
        simpa [hsqOutLen, hok, View.source] using ho
  | palApply =>
    refine of (keeps_bind hR.toChain (palPairs_keeps hR (hpal (by simp)) _ v.snap.bank_le _) fun _ => ?_)
    exact keeps_bind hR.toChain (palFiller_keeps hR _ _) fun _ => keeps_bind hR.toChain (keeps_readWork hR.toChain _) fun _ =>
      ret _
  | palRead => exact of (keeps_bind hR.toChain (keeps_readWork hR.toChain _) fun _ => ret _)
  | palWrite =>
    exact of (keeps_bind hR.toChain (hR.palPut (hpal (by simp)) v.snap.bank_le v.snap.palIdx_le) fun _ => ret _)
  | palDisplay => exact of (keeps_bind hR.toChain (keeps_readWork hR.toChain _) fun _ => ret _)
  | palCopy =>
    refine of (keeps_bind hR.toChain (keeps_loop hR.toChain fun k hk => ?_) fun _ => ret _)
    exact keeps_bind hR.toChain (keeps_readWork hR.toChain _) fun _ =>
      hR.palPut (hpal (by simp)) v.snap.bank_le (by omega)
  | palLerp => exact of (keeps_bind hR.toChain (check _ _ _) fun _ => ret _)
  | palExport =>
    refine of (keeps_bind hR.toChain (check _ _ _) fun _ => keeps_bind hR.toChain (keeps_loop hR.toChain fun k hk => ?_)
      fun _ => ret _)
    have hd : ∀ o, o < 768 → A.mem (v.snap.dstAddr.toNat + o) :=
      fun o ho => hm (v.snap.dstAddr.toNat, 768) (by simp [footprint]) o ho
    refine keeps_bind hR.toChain (keeps_readWork hR.toChain _) fun _ => ?_
    exact keeps_bind hR.toChain (hR.store (hd _ (by omega))) fun _ => keeps_bind hR.toChain (hR.store (hd (3 * k + 1) (by omega)))
      fun _ => hR.store (hd (3 * k + 2) (by omega))
  | sprHeader =>
    exact of (keeps_bind hR.toChain byte fun _ => keeps_bind hR.toChain byte fun _ => keeps_bind hR.toChain byte fun _ =>
      keeps_bind hR.toChain byte fun _ => ret _)
  | surfClear =>
    exact of (keeps_bind hR.toChain (fillGrid_keeps hR (hm (surfRegion v.snap) (by simp [footprint])) _) fun _ => ret _)
  | imapClear =>
    exact of (keeps_bind hR.toChain (fillGrid_keeps hR (hm (imapRegion v.snap) (by simp [footprint])) _) fun _ => ret _)
  | rleDecode =>
    have hd := hm (v.snap.dstAddr.toNat, v.snap.blitH * v.snap.pitch) (by simp [footprint])
    exact of (keeps_bind hR.toChain (check _ _ _) fun _ => keeps_bind hR.toChain (check _ _ _) fun _ =>
      keeps_bind hR.toChain (rleDecode_keeps hR _ hd) fun _ => keeps_bind hR.toChain (keeps_readWork hR.toChain _) fun _ =>
        ret _)
  | blit =>
    have hs := hm (surfRegion v.snap) (by simp [footprint])
    have hi : v.snap.imapEn = true → ∀ o, o < v.snap.surfW * v.snap.surfH → A.mem (v.snap.imapBase.toNat + o) :=
      fun he => hm (imapRegion v.snap) (by simp [footprint, he])
    refine of (keeps_bind hR.toChain (check _ _ _) fun _ => keeps_ite (ret _) (keeps_bind hR.toChain ?_ fun pix => ?_))
    · unfold blitPixels
      split
      next hr =>
        have hd := hm (v.snap.scratchAddr.toNat, v.snap.blitH * v.snap.pitch) (by simp [footprint, hr])
        exact keeps_bind hR.toChain (rleDecode_keeps hR _ hd) fun _ => keeps_pure hR.toChain _
      · exact keeps_bind hR.toChain (check _ _ _) fun _ => keeps_pure hR.toChain _
    · exact keeps_bind hR.toChain (blitDraw_keeps hR hs hi pix) fun _ =>
        keeps_bind hR.toChain (keeps_readWork hR.toChain _) fun _ => ret _
  | rotWrite =>
    refine of (keeps_of_triple (Q := fun _ _ => True) ?_)
    refine triple_bind hR.toChain (triple_raiseIf hR.toChain) fun _ w hw => ?_
    have hk : v.snap.rotIdx < 99 := by have := hw.2; simp at this; omega
    refine triple_of_keeps (P := fun _ => True) ?_ w trivial
    exact keeps_bind hR.toChain (keeps_rotWriteStart hR.toChain hR.quota _ _ fun w => hR.rotStart (hrow rfl) _ hk w _)
      fun _ => keeps_bind hR.toChain (keeps_rotWriteLen hR.toChain hR.quota _ _ fun w => hR.rotLen (hrow rfl) _ hk w _)
        fun _ => ret _
  | rotRead =>
    exact of (keeps_bind hR.toChain (check _ _ _) fun _ => keeps_bind hR.toChain (keeps_readWork hR.toChain _) fun _ => ret _)
  | tiltRead => exact of (keeps_bind hR.toChain (check _ _ _) fun _ => ret _)
  | globePhase => exact of (keeps_bind hR.toChain (computePhases_keeps hR (hphase (by simp)) _) fun _ => ret _)
  | globeDraw =>
    exact of (drawGlobe_keeps _ hR (hphase (by simp)) (hm (surfRegion v.snap) (by simp [footprint])))

end

/-- `exec` runs the pseudocode of `body`, for every command. -/
theorem exec_eq_body (i : Instr) (s : State) : exec i s = .next (s.runCmd (body i)) := by cases i <;> rfl

/-- A command that nothing cuts short never stops as cut: it has no quota, and no change gives it one. -/
theorem body_not_cut (i : Instr) (v : View) {w w' : Work} (hi : w.icur = 0) (hq : w.quota = none) :
    body i v w ≠ .error .cut w' := by
  intro h
  have hR : Closed v.plat.memSize ⟨fun _ => True, True, True, True⟩
      (fun a b : Work => a.quota = none → b.quota = none) :=
    { refl := fun _ h => h, trans := fun h h' hq => h' (h hq), draws := fun _ _ h => h,
      quota := fun w n h h' => (by rw [h] at h'; cases h'), icur := fun _ _ h => h, ocur := fun _ _ h => h,
      queue := fun _ _ _ h => h, written := fun _ _ h => h, mem := fun _ _ _ _ _ h => h, pal := fun _ _ _ _ _ h => h,
      rotStart := fun _ _ _ _ _ h => h, rotLen := fun _ _ _ _ _ h => h, rotPhase := fun _ _ _ _ _ h => h }
  have := body_frame hR i (m := w.mem) (.inl fun _ => trivial) (fun _ => trivial) (fun _ => trivial) (fun _ => trivial) w
    ⟨rfl, hi⟩
  rw [h] at this
  have h1 := this.1 hq
  rw [this.2 rfl] at h1
  cases h1

/-- How a command ends: its writes land, and its staged results are committed or one error is reported. -/
theorem exec_ends (i : Instr) (s : State) :
    (∃ g w, body i s.view (s.work none) = .ok g w ∧ exec i s = .next ((s.land w).commitDone g)) ∨
    (∃ e n w, body i s.view (s.work none) = .error (.raised e n) w ∧ exec i s = .next ((s.land w).raiseError e n)) := by
  rw [exec_eq_body]
  rcases runCmd_cases s (body i) with ⟨g, w, h, e⟩ | ⟨e, n, w, h, e'⟩ | ⟨w, h, _⟩
  · exact .inl ⟨g, w, h, by rw [e]⟩
  · exact .inr ⟨e, n, w, h, by rw [e']⟩
  · exact absurd h (body_not_cut i s.view rfl rfl)

end Sys2Proof.Machine
end

