-- ==== Sys2Proof/Laws/PerInstr.lean ====
section
/-! SUPPORT. The laws of every command as syntax: its word is legal and decodes to it, from a word, from bytes and from a
row of the opcode table. -/

namespace Sys2Proof.Laws.RoundTrip

/-- R110, R111: the command is well formed, its word is legal, and every form of the decoder reads it back. -/
def Statement (i : Instr) : Prop :=
  i.wf = true ∧ (splitWord (encode i)).wf = true ∧ decodeWord (encode i) = .ok i
    ∧ decode (encodeBytes i) = .ok (i, []) ∧ decodeTableWord 32 (encode i).toNat = some i

theorem nop : Statement .nop := ⟨rfl, rfl, rfl, rfl, rfl⟩
theorem hsqProbe : Statement .hsqProbe := ⟨rfl, rfl, rfl, rfl, rfl⟩
theorem hsqDecompress : Statement .hsqDecompress := ⟨rfl, rfl, rfl, rfl, rfl⟩
theorem palApply : Statement .palApply := ⟨rfl, rfl, rfl, rfl, rfl⟩
theorem palRead : Statement .palRead := ⟨rfl, rfl, rfl, rfl, rfl⟩
theorem palWrite : Statement .palWrite := ⟨rfl, rfl, rfl, rfl, rfl⟩
theorem palDisplay : Statement .palDisplay := ⟨rfl, rfl, rfl, rfl, rfl⟩
theorem palCopy : Statement .palCopy := ⟨rfl, rfl, rfl, rfl, rfl⟩
theorem palLerp : Statement .palLerp := ⟨rfl, rfl, rfl, rfl, rfl⟩
theorem palExport : Statement .palExport := ⟨rfl, rfl, rfl, rfl, rfl⟩
theorem sprHeader : Statement .sprHeader := ⟨rfl, rfl, rfl, rfl, rfl⟩
theorem surfClear : Statement .surfClear := ⟨rfl, rfl, rfl, rfl, rfl⟩
theorem imapClear : Statement .imapClear := ⟨rfl, rfl, rfl, rfl, rfl⟩
theorem rleDecode : Statement .rleDecode := ⟨rfl, rfl, rfl, rfl, rfl⟩
theorem blit : Statement .blit := ⟨rfl, rfl, rfl, rfl, rfl⟩
theorem rotWrite : Statement .rotWrite := ⟨rfl, rfl, rfl, rfl, rfl⟩
theorem rotRead : Statement .rotRead := ⟨rfl, rfl, rfl, rfl, rfl⟩
theorem tiltRead : Statement .tiltRead := ⟨rfl, rfl, rfl, rfl, rfl⟩
theorem globePhase : Statement .globePhase := ⟨rfl, rfl, rfl, rfl, rfl⟩
theorem globeDraw : Statement .globeDraw := ⟨rfl, rfl, rfl, rfl, rfl⟩

end Sys2Proof.Laws.RoundTrip
end

