-- ==== Sys2Proof/Laws/State.lean ====
section
/-! SUPPORT. One lemma per field per update of the state, so that no later proof unfolds a record update. -/

namespace Sys2Proof.Machine

@[simp] theorem State.land_plat (s : State) (w : Work) : (s.land w).plat = s.plat := rfl
@[simp] theorem State.land_inbox (s : State) (w : Work) : (s.land w).inbox = s.inbox := rfl
@[simp] theorem State.land_busData (s : State) (w : Work) : (s.land w).busData = s.busData := rfl
@[simp] theorem State.land_cmd (s : State) (w : Work) : (s.land w).cmd = s.cmd := rfl
@[simp] theorem State.land_status (s : State) (w : Work) : (s.land w).status = s.status := rfl
@[simp] theorem State.land_doneIe (s : State) (w : Work) : (s.land w).doneIe = s.doneIe := rfl
@[simp] theorem State.land_errIe (s : State) (w : Work) : (s.land w).errIe = s.errIe := rfl
@[simp] theorem State.land_errInfo (s : State) (w : Work) : (s.land w).errInfo = s.errInfo := rfl
@[simp] theorem State.land_result0 (s : State) (w : Work) : (s.land w).result0 = s.result0 := rfl
@[simp] theorem State.land_result1 (s : State) (w : Work) : (s.land w).result1 = s.result1 := rfl
@[simp] theorem State.land_params (s : State) (w : Work) : (s.land w).params = s.params := rfl
@[simp] theorem State.land_pal (s : State) (w : Work) : (s.land w).pal = w.pal := rfl
@[simp] theorem State.land_rotStart (s : State) (w : Work) : (s.land w).rotStart = w.rotStart := rfl
@[simp] theorem State.land_rotLen (s : State) (w : Work) : (s.land w).rotLen = w.rotLen := rfl
@[simp] theorem State.land_rotPhase (s : State) (w : Work) : (s.land w).rotPhase = w.rotPhase := rfl
@[simp] theorem State.land_phase (s : State) (w : Work) : (s.land w).phase = s.phase := rfl
@[simp] theorem State.land_mem (s : State) (w : Work) : (s.land w).mem = w.mem := rfl
@[simp] theorem State.land_draws (s : State) (w : Work) : (s.land w).draws = w.draws := rfl
@[simp] theorem State.land_epoch (s : State) (w : Work) : (s.land w).epoch = s.epoch := rfl

@[simp] theorem State.raiseError_plat (s : State) (e : CmdError) (i : Int) : (s.raiseError e i).plat = s.plat := rfl
@[simp] theorem State.raiseError_inbox (s : State) (e : CmdError) (i : Int) : (s.raiseError e i).inbox = s.inbox := rfl
@[simp] theorem State.raiseError_busData (s : State) (e : CmdError) (i : Int) : (s.raiseError e i).busData = s.busData := rfl
@[simp] theorem State.raiseError_cmd (s : State) (e : CmdError) (i : Int) : (s.raiseError e i).cmd = s.cmd := rfl
@[simp] theorem State.raiseError_status (s : State) (e : CmdError) (i : Int) : (s.raiseError e i).status = s.status.failed e.code := rfl
@[simp] theorem State.raiseError_doneIe (s : State) (e : CmdError) (i : Int) : (s.raiseError e i).doneIe = s.doneIe := rfl
@[simp] theorem State.raiseError_errIe (s : State) (e : CmdError) (i : Int) : (s.raiseError e i).errIe = s.errIe := rfl
@[simp] theorem State.raiseError_errInfo (s : State) (e : CmdError) (i : Int) : (s.raiseError e i).errInfo = BitVec.ofInt 32 i := rfl
@[simp] theorem State.raiseError_result0 (s : State) (e : CmdError) (i : Int) : (s.raiseError e i).result0 = s.result0 := rfl
@[simp] theorem State.raiseError_result1 (s : State) (e : CmdError) (i : Int) : (s.raiseError e i).result1 = s.result1 := rfl
@[simp] theorem State.raiseError_params (s : State) (e : CmdError) (i : Int) : (s.raiseError e i).params = s.params := rfl
@[simp] theorem State.raiseError_pal (s : State) (e : CmdError) (i : Int) : (s.raiseError e i).pal = s.pal := rfl
@[simp] theorem State.raiseError_rotStart (s : State) (e : CmdError) (i : Int) : (s.raiseError e i).rotStart = s.rotStart := rfl
@[simp] theorem State.raiseError_rotLen (s : State) (e : CmdError) (i : Int) : (s.raiseError e i).rotLen = s.rotLen := rfl
@[simp] theorem State.raiseError_rotPhase (s : State) (e : CmdError) (i : Int) : (s.raiseError e i).rotPhase = s.rotPhase := rfl
@[simp] theorem State.raiseError_phase (s : State) (e : CmdError) (i : Int) : (s.raiseError e i).phase = .idle := rfl
@[simp] theorem State.raiseError_mem (s : State) (e : CmdError) (i : Int) : (s.raiseError e i).mem = s.mem := rfl
@[simp] theorem State.raiseError_draws (s : State) (e : CmdError) (i : Int) : (s.raiseError e i).draws = s.draws := rfl
@[simp] theorem State.raiseError_epoch (s : State) (e : CmdError) (i : Int) : (s.raiseError e i).epoch = s.epoch := rfl

@[simp] theorem State.commitDone_plat (s : State) (g : Staged) : (s.commitDone g).plat = s.plat := rfl
@[simp] theorem State.commitDone_inbox (s : State) (g : Staged) : (s.commitDone g).inbox = s.inbox := rfl
@[simp] theorem State.commitDone_busData (s : State) (g : Staged) : (s.commitDone g).busData = s.busData := rfl
@[simp] theorem State.commitDone_cmd (s : State) (g : Staged) : (s.commitDone g).cmd = s.cmd := rfl
@[simp] theorem State.commitDone_status (s : State) (g : Staged) : (s.commitDone g).status = { s.status with compressed := g.compressed.getD s.status.compressed, valid := g.valid.getD s.status.valid, done := true } := rfl
@[simp] theorem State.commitDone_doneIe (s : State) (g : Staged) : (s.commitDone g).doneIe = s.doneIe := rfl
@[simp] theorem State.commitDone_errIe (s : State) (g : Staged) : (s.commitDone g).errIe = s.errIe := rfl
@[simp] theorem State.commitDone_errInfo (s : State) (g : Staged) : (s.commitDone g).errInfo = s.errInfo := rfl
@[simp] theorem State.commitDone_result0 (s : State) (g : Staged) : (s.commitDone g).result0 = g.result0.getD s.result0 := rfl
@[simp] theorem State.commitDone_result1 (s : State) (g : Staged) : (s.commitDone g).result1 = g.result1.getD s.result1 := rfl
@[simp] theorem State.commitDone_params (s : State) (g : Staged) : (s.commitDone g).params = s.params := rfl
@[simp] theorem State.commitDone_pal (s : State) (g : Staged) : (s.commitDone g).pal = s.pal := rfl
@[simp] theorem State.commitDone_rotStart (s : State) (g : Staged) : (s.commitDone g).rotStart = s.rotStart := rfl
@[simp] theorem State.commitDone_rotLen (s : State) (g : Staged) : (s.commitDone g).rotLen = s.rotLen := rfl
@[simp] theorem State.commitDone_rotPhase (s : State) (g : Staged) : (s.commitDone g).rotPhase = s.rotPhase := rfl
@[simp] theorem State.commitDone_phase (s : State) (g : Staged) : (s.commitDone g).phase = .idle := rfl
@[simp] theorem State.commitDone_mem (s : State) (g : Staged) : (s.commitDone g).mem = s.mem := rfl
@[simp] theorem State.commitDone_draws (s : State) (g : Staged) : (s.commitDone g).draws = s.draws := rfl
@[simp] theorem State.commitDone_epoch (s : State) (g : Staged) : (s.commitDone g).epoch = s.epoch := rfl

@[simp] theorem State.begin_plat (s : State) (v : Word) (n : Nat) : (s.begin v n).plat = s.plat := rfl
@[simp] theorem State.begin_inbox (s : State) (v : Word) (n : Nat) : (s.begin v n).inbox = s.inbox := rfl
@[simp] theorem State.begin_busData (s : State) (v : Word) (n : Nat) : (s.begin v n).busData = s.busData := rfl
@[simp] theorem State.begin_cmd (s : State) (v : Word) (n : Nat) : (s.begin v n).cmd = v := rfl
@[simp] theorem State.begin_status (s : State) (v : Word) (n : Nat) : (s.begin v n).status = s.status.started := rfl
@[simp] theorem State.begin_doneIe (s : State) (v : Word) (n : Nat) : (s.begin v n).doneIe = s.doneIe := rfl
@[simp] theorem State.begin_errIe (s : State) (v : Word) (n : Nat) : (s.begin v n).errIe = s.errIe := rfl
@[simp] theorem State.begin_errInfo (s : State) (v : Word) (n : Nat) : (s.begin v n).errInfo = 0 := rfl
@[simp] theorem State.begin_result0 (s : State) (v : Word) (n : Nat) : (s.begin v n).result0 = s.result0 := rfl
@[simp] theorem State.begin_result1 (s : State) (v : Word) (n : Nat) : (s.begin v n).result1 = s.result1 := rfl
@[simp] theorem State.begin_params (s : State) (v : Word) (n : Nat) : (s.begin v n).params = s.params := rfl
@[simp] theorem State.begin_pal (s : State) (v : Word) (n : Nat) : (s.begin v n).pal = s.pal := rfl
@[simp] theorem State.begin_rotStart (s : State) (v : Word) (n : Nat) : (s.begin v n).rotStart = s.rotStart := rfl
@[simp] theorem State.begin_rotLen (s : State) (v : Word) (n : Nat) : (s.begin v n).rotLen = s.rotLen := rfl
@[simp] theorem State.begin_rotPhase (s : State) (v : Word) (n : Nat) : (s.begin v n).rotPhase = s.rotPhase := rfl
@[simp] theorem State.begin_phase (s : State) (v : Word) (n : Nat) : (s.begin v n).phase = .running { cmd := v, snap := s.params, heldInfo := s.errInfo, latency := n, foot := s.footOf v, contested := [] } := rfl
@[simp] theorem State.begin_mem (s : State) (v : Word) (n : Nat) : (s.begin v n).mem = s.mem := rfl
@[simp] theorem State.begin_draws (s : State) (v : Word) (n : Nat) : (s.begin v n).draws = s.draws := rfl
@[simp] theorem State.begin_epoch (s : State) (v : Word) (n : Nat) : (s.begin v n).epoch = s.epoch := rfl

@[simp] theorem State.clearRegs_plat (s : State) : (s.clearRegs).plat = s.plat := rfl
@[simp] theorem State.clearRegs_inbox (s : State) : (s.clearRegs).inbox = s.inbox := rfl
@[simp] theorem State.clearRegs_busData (s : State) : (s.clearRegs).busData = s.busData := rfl
@[simp] theorem State.clearRegs_cmd (s : State) : (s.clearRegs).cmd = 0 := rfl
@[simp] theorem State.clearRegs_status (s : State) : (s.clearRegs).status = Status.zero := rfl
@[simp] theorem State.clearRegs_doneIe (s : State) : (s.clearRegs).doneIe = false := rfl
@[simp] theorem State.clearRegs_errIe (s : State) : (s.clearRegs).errIe = false := rfl
@[simp] theorem State.clearRegs_errInfo (s : State) : (s.clearRegs).errInfo = 0 := rfl
@[simp] theorem State.clearRegs_result0 (s : State) : (s.clearRegs).result0 = 0 := rfl
@[simp] theorem State.clearRegs_result1 (s : State) : (s.clearRegs).result1 = 0 := rfl
@[simp] theorem State.clearRegs_params (s : State) : (s.clearRegs).params = Params.zero := rfl
@[simp] theorem State.clearRegs_pal (s : State) : (s.clearRegs).pal = s.pal := rfl
@[simp] theorem State.clearRegs_rotStart (s : State) : (s.clearRegs).rotStart = s.rotStart := rfl
@[simp] theorem State.clearRegs_rotLen (s : State) : (s.clearRegs).rotLen = s.rotLen := rfl
@[simp] theorem State.clearRegs_rotPhase (s : State) : (s.clearRegs).rotPhase = s.rotPhase := rfl
@[simp] theorem State.clearRegs_phase (s : State) : (s.clearRegs).phase = s.phase := rfl
@[simp] theorem State.clearRegs_mem (s : State) : (s.clearRegs).mem = s.mem := rfl
@[simp] theorem State.clearRegs_draws (s : State) : (s.clearRegs).draws = s.draws := rfl
@[simp] theorem State.clearRegs_epoch (s : State) : (s.clearRegs).epoch = s.epoch := rfl

@[simp] theorem State.contest_plat (s : State) (r : Running) (a : Nat) : (s.contest r a).plat = s.plat := rfl
@[simp] theorem State.contest_inbox (s : State) (r : Running) (a : Nat) : (s.contest r a).inbox = s.inbox := rfl
@[simp] theorem State.contest_busData (s : State) (r : Running) (a : Nat) : (s.contest r a).busData = s.busData := rfl
@[simp] theorem State.contest_cmd (s : State) (r : Running) (a : Nat) : (s.contest r a).cmd = s.cmd := rfl
@[simp] theorem State.contest_status (s : State) (r : Running) (a : Nat) : (s.contest r a).status = s.status := rfl
@[simp] theorem State.contest_doneIe (s : State) (r : Running) (a : Nat) : (s.contest r a).doneIe = s.doneIe := rfl
@[simp] theorem State.contest_errIe (s : State) (r : Running) (a : Nat) : (s.contest r a).errIe = s.errIe := rfl
@[simp] theorem State.contest_errInfo (s : State) (r : Running) (a : Nat) : (s.contest r a).errInfo = s.errInfo := rfl
@[simp] theorem State.contest_result0 (s : State) (r : Running) (a : Nat) : (s.contest r a).result0 = s.result0 := rfl
@[simp] theorem State.contest_result1 (s : State) (r : Running) (a : Nat) : (s.contest r a).result1 = s.result1 := rfl
@[simp] theorem State.contest_params (s : State) (r : Running) (a : Nat) : (s.contest r a).params = s.params := rfl
@[simp] theorem State.contest_pal (s : State) (r : Running) (a : Nat) : (s.contest r a).pal = s.pal := rfl
@[simp] theorem State.contest_rotStart (s : State) (r : Running) (a : Nat) : (s.contest r a).rotStart = s.rotStart := rfl
@[simp] theorem State.contest_rotLen (s : State) (r : Running) (a : Nat) : (s.contest r a).rotLen = s.rotLen := rfl
@[simp] theorem State.contest_rotPhase (s : State) (r : Running) (a : Nat) : (s.contest r a).rotPhase = s.rotPhase := rfl
@[simp] theorem State.contest_phase (s : State) (r : Running) (a : Nat) : (s.contest r a).phase = .running { r with contested := a :: r.contested } := rfl
@[simp] theorem State.contest_mem (s : State) (r : Running) (a : Nat) : (s.contest r a).mem = s.mem := rfl
@[simp] theorem State.contest_draws (s : State) (r : Running) (a : Nat) : (s.contest r a).draws = s.draws := rfl
@[simp] theorem State.contest_epoch (s : State) (r : Running) (a : Nat) : (s.contest r a).epoch = s.epoch := rfl

@[simp] theorem State.work_mem (s : State) (q : Option Nat) : (s.work q).mem = s.mem := rfl
@[simp] theorem State.work_pal (s : State) (q : Option Nat) : (s.work q).pal = s.pal := rfl
@[simp] theorem State.work_rotStart (s : State) (q : Option Nat) : (s.work q).rotStart = s.rotStart := rfl
@[simp] theorem State.work_rotLen (s : State) (q : Option Nat) : (s.work q).rotLen = s.rotLen := rfl
@[simp] theorem State.work_rotPhase (s : State) (q : Option Nat) : (s.work q).rotPhase = s.rotPhase := rfl
@[simp] theorem State.work_draws (s : State) (q : Option Nat) : (s.work q).draws = s.draws := rfl
@[simp] theorem State.work_quota (s : State) (q : Option Nat) : (s.work q).quota = q := rfl
@[simp] theorem State.work_icur (s : State) (q : Option Nat) : (s.work q).icur = 0 := rfl
@[simp] theorem State.work_ocur (s : State) (q : Option Nat) : (s.work q).ocur = 0 := rfl
@[simp] theorem State.work_queue (s : State) (q : Option Nat) : (s.work q).queue = 0 := rfl
@[simp] theorem State.work_qbits (s : State) (q : Option Nat) : (s.work q).qbits = 0 := rfl
@[simp] theorem State.work_written (s : State) (q : Option Nat) : (s.work q).written = 0 := rfl
@[simp] theorem State.view_snap (s : State) : s.view.snap = s.snap := rfl
@[simp] theorem State.view_plat (s : State) : s.view.plat = s.plat := rfl
@[simp] theorem State.view_contested (s : State) : s.view.contested = s.contested := rfl
@[simp] theorem State.view_epoch (s : State) : s.view.epoch = s.epoch := rfl

@[simp] theorem Status.failed_err (f : Status) (c : BitVec 8) : (f.failed c).err = true := rfl
@[simp] theorem Status.failed_done (f : Status) (c : BitVec 8) : (f.failed c).done = true := rfl
@[simp] theorem Status.failed_errcode (f : Status) (c : BitVec 8) : (f.failed c).errcode = c := rfl
@[simp] theorem Status.failed_ovr (f : Status) (c : BitVec 8) : (f.failed c).ovr = f.ovr := rfl
@[simp] theorem Status.failed_compressed (f : Status) (c : BitVec 8) : (f.failed c).compressed = f.compressed := rfl
@[simp] theorem Status.failed_valid (f : Status) (c : BitVec 8) : (f.failed c).valid = f.valid := rfl
@[simp] theorem Status.started_err (f : Status) : f.started.err = false := rfl
@[simp] theorem Status.started_done (f : Status) : f.started.done = false := rfl
@[simp] theorem Status.started_errcode (f : Status) : f.started.errcode = 0 := rfl
@[simp] theorem Status.started_ovr (f : Status) : f.started.ovr = f.ovr := rfl
@[simp] theorem Status.started_compressed (f : Status) : f.started.compressed = f.compressed := rfl
@[simp] theorem Status.started_valid (f : Status) : f.started.valid = f.valid := rfl

end Sys2Proof.Machine
end

