-- ==== Sys2Proof/Laws/Stream.lean ====
section
/-! SUPPORT. What the shared operations do when nothing stops them: lists of bytes in memory, streams that feed a list of
bytes, and one lemma for each output operation. -/

namespace Sys2Proof.Machine

/-! ### Lists of bytes in memory -/

/-- Memory with the bytes of a list written from an address on, in order. -/
def Memory.writeList (m : Memory) (a : Nat) : List Byte → Memory
  | [] => m
  | b :: bs => Memory.writeList (m.write a b) (a + 1) bs

@[simp] theorem Memory.writeList_nil (m : Memory) (a : Nat) : m.writeList a [] = m := rfl

theorem Memory.writeList_cons (m : Memory) (a : Nat) (b : Byte) (bs : List Byte) :
    m.writeList a (b :: bs) = (m.write a b).writeList (a + 1) bs := rfl

theorem Memory.writeList_append (m : Memory) (a : Nat) (bs cs : List Byte) :
    m.writeList a (bs ++ cs) = (m.writeList a bs).writeList (a + bs.length) cs := by
  induction bs generalizing m a with
  | nil => simp
  | cons b bs ih =>
    rw [List.cons_append, writeList_cons, ih, writeList_cons, List.length_cons]
    congr 1; omega

/-- A byte outside the list's place reads as before. -/
theorem Memory.read_writeList_other (m : Memory) {a c : Nat} {bs : List Byte} (h : c < a ∨ a + bs.length ≤ c) :
    (m.writeList a bs).read c = m.read c := by
  induction bs generalizing m a with
  | nil => rfl
  | cons b bs ih =>
    rw [List.length_cons] at h
    rw [writeList_cons, ih _ (by omega), read_write_other _ _ (by omega)]

/-- A byte inside the list's place reads as the list says. -/
theorem Memory.read_writeList (m : Memory) (a : Nat) {bs : List Byte} {k : Nat} (h : k < bs.length) :
    (m.writeList a bs).read (a + k) = bs[k] := by
  induction bs generalizing m a k with
  | nil => simp at h
  | cons b bs ih =>
    rw [writeList_cons]
    cases k with
    | zero => rw [read_writeList_other _ (by omega)]; simp
    | succ k =>
      have := ih (m.write a b) (a + 1) (k := k) (by simpa using h)
      rw [show a + (k + 1) = a + 1 + k by omega, this]; rfl

/-! ### Streams -/

/-- From its cursor on, the stream feeds these bytes: they lie inside the stream and in memory, and no host contests
them. -/
def Feeds (v : View) (st : Stream) (w : Work) (bs : List Byte) : Prop :=
  ∀ k (h : k < bs.length), w.icur + k < st.len ∧ st.base + w.icur + k < v.plat.memSize
    ∧ st.base + w.icur + k ∉ v.contested ∧ w.mem.read (st.base + w.icur + k) = bs[k]

variable {v : View} {st : Stream} {w : Work}

/-- R10: `InByte()` gives the next byte a stream feeds, and moves the cursor. -/
theorem inByte_feeds {b : Byte} {bs : List Byte} (h : Feeds v st w (b :: bs)) :
    inByte v st w = .ok b { w with icur := w.icur + 1 } := by
  obtain ⟨h1, h2, h3, h4⟩ := h 0 (by simp)
  rw [Nat.add_zero] at h1 h2 h3 h4
  rw [inByte_ok h1 h2 h3, h4]; rfl

/-- What a stream feeds after its first byte has been read. -/
theorem Feeds.tail {b : Byte} {bs : List Byte} (h : Feeds v st w (b :: bs)) :
    Feeds v st { w with icur := w.icur + 1 } bs := by
  intro k hk
  have := h (k + 1) (by simpa using hk)
  simpa [Nat.add_assoc, Nat.add_comm 1 k] using this

/-- A stream feeds what it fed before a change that leaves its cursor and its bytes. -/
theorem Feeds.congr {bs : List Byte} (h : Feeds v st w bs) {w' : Work} (hi : w'.icur = w.icur)
    (hm : ∀ k, k < bs.length → w'.mem.read (st.base + w.icur + k) = w.mem.read (st.base + w.icur + k)) :
    Feeds v st w' bs := by
  intro k hk
  obtain ⟨h1, h2, h3, h4⟩ := h k hk
  rw [hi]
  exact ⟨h1, h2, h3, by rw [hm k hk, h4]⟩

/-- The front part of what a stream feeds. -/
theorem Feeds.take {bs cs : List Byte} (h : Feeds v st w (bs ++ cs)) : Feeds v st w bs := by
  intro k hk
  have := h k (by simp; omega)
  rwa [List.getElem_append_left hk] at this

/-- R83: `InWord()` gives the next two bytes, the first one low. -/
theorem inWord_feeds {b c : Byte} {bs : List Byte} (h : Feeds v st w (b :: c :: bs)) :
    inWord v st w = .ok (le16 b c) { w with icur := w.icur + 2 } := by
  unfold inWord
  rw [eng_bind_ok (inByte_feeds h), eng_bind_ok (inByte_feeds h.tail)]
  rfl

/-! ### Loops of one repeated part -/

theorem repeatTimes_zero (f : Eng Unit) (w : Work) : repeatTimes 0 f w = .ok () w := rfl

theorem loopFrom_const (f : Eng Unit) (n k j : Nat) : loopFrom (fun _ => f) n k = loopFrom (fun _ => f) n j := by
  induction n generalizing k j with
  | zero => rfl
  | succ n ih => rw [loopFrom_succ, loopFrom_succ, ih (k + 1) (j + 1)]

theorem repeatTimes_succ (f : Eng Unit) (n : Nat) : repeatTimes (n + 1) f = (f >>= fun _ => repeatTimes n f) := by
  show loopFrom (fun _ => f) (n + 1) 0 = (f >>= fun _ => loopFrom (fun _ => f) n 0)
  rw [loopFrom_succ, loopFrom_const f n (0 + 1) 0]

/-! ### RLE output (R231) -/

theorem rlePut_ok {out : Nat} {x : Byte} (ha : out + w.ocur < v.plat.memSize) (hq : w.quota = none) :
    rlePut v out x w = .ok () { w with mem := w.mem.write (out + w.ocur) x, ocur := w.ocur + 1 } := by
  unfold rlePut
  rw [eng_bind_ok (outputCursor_apply w), eng_bind_ok (memWrite_ok ha hq)]; rfl

/-- A repeat run writes its value that many times. -/
theorem rleRepeat_ok {out n : Nat} {x : Byte} (ha : out + w.ocur + n ≤ v.plat.memSize) (hq : w.quota = none) :
    repeatTimes n (rlePut v out x) w
      = .ok () { w with mem := w.mem.writeList (out + w.ocur) (List.replicate n x), ocur := w.ocur + n } := by
  induction n generalizing w with
  | zero => rfl
  | succ n ih =>
    have := ih (w := { w with mem := w.mem.write (out + w.ocur) x, ocur := w.ocur + 1 }) (by simp; omega) hq
    rw [repeatTimes_succ, eng_bind_ok (rlePut_ok (by omega) hq), this, List.replicate_succ, Memory.writeList_cons]
    simp only [Nat.add_assoc, Nat.add_comm 1 n]

/-- A literal run copies the bytes the stream feeds, which the output does not reach. -/
theorem rleLiteral_ok {out : Nat} {bs : List Byte} (hf : Feeds v st w bs) (hq : w.quota = none)
    (ha : out + w.ocur + bs.length ≤ v.plat.memSize)
    (hd : st.base + w.icur + bs.length ≤ out + w.ocur ∨ out + w.ocur + bs.length ≤ st.base + w.icur) :
    repeatTimes bs.length (rleLiteralByte v st out) w
      = .ok () { w with
          mem := w.mem.writeList (out + w.ocur) bs, ocur := w.ocur + bs.length, icur := w.icur + bs.length } := by
  induction bs generalizing w with
  | nil => rfl
  | cons b bs ih =>
    rw [List.length_cons] at ha hd ⊢
    have h1 : rleLiteralByte v st out w
        = .ok () { w with mem := w.mem.write (out + w.ocur) b, ocur := w.ocur + 1, icur := w.icur + 1 } := by
      unfold rleLiteralByte
      rw [eng_bind_ok (inByte_feeds hf)]
      exact rlePut_ok (w := { w with icur := w.icur + 1 }) (by show out + w.ocur < _; omega) hq
    rw [repeatTimes_succ, eng_bind_ok h1]
    have h2 := ih (w := { w with mem := w.mem.write (out + w.ocur) b, ocur := w.ocur + 1, icur := w.icur + 1 })
      (Feeds.congr hf.tail rfl fun k hk => Memory.read_write_other _ _ (by simp; omega)) hq (by simp; omega)
      (by simp; omega)
    rw [h2]
    simp only [Memory.writeList_cons, Nat.add_assoc, Nat.add_comm 1 bs.length]

/-! ### HSQ output (R167) -/

theorem hsqPut_ok {dst usize : Nat} {x : Byte} (ho : w.ocur < usize) (ha : dst + w.ocur < v.plat.memSize)
    (hq : w.quota = none) :
    hsqPut v dst usize x w = .ok () { w with mem := w.mem.write (dst + w.ocur) x, ocur := w.ocur + 1 } := by
  unfold hsqPut
  have h : raiseIf (decide (usize ≤ w.ocur)) .hsqOverrun w.ocur w = .ok () w := by
    rw [raiseIf_apply]; simp [Nat.not_le.2 ho]
  rw [eng_bind_ok (outputCursor_apply w), eng_bind_ok h, eng_bind_ok (memWrite_ok ha hq)]; rfl

/-- One byte of a copy: the byte `dist` behind the output cursor. -/
theorem hsqCopyByte_ok {dst usize dist : Nat} (hd : dist ≤ w.ocur) (ho : w.ocur < usize)
    (ha : dst + w.ocur < v.plat.memSize) (hc : dst + w.ocur - dist ∉ v.contested) (hq : w.quota = none) :
    hsqCopyByte v dst usize dist w = .ok ()
      { w with mem := w.mem.write (dst + w.ocur) (w.mem.read (dst + w.ocur - dist)), ocur := w.ocur + 1 } := by
  unfold hsqCopyByte
  rw [eng_bind_ok (outputCursor_apply w), eng_bind_ok (memRead_ok (by omega) hc), hsqPut_ok ho ha hq]

/-- R164: a bit when the queue is not empty. -/
theorem getBit_ok (hn : w.qbits ≠ 0) :
    getBit v st w = .ok (bitSet w.queue 0) { w with queue := w.queue >>> 1, qbits := w.qbits - 1 } := by
  unfold getBit refillIfEmpty queueEmpty
  have h : (readWork (fun k : Work => k.qbits == 0) >>= fun e => if e then refillQueue v st else pure ()) w = .ok () w := by
    rw [eng_bind_ok (readWork_apply _ w), if_neg (by simpa using hn)]; rfl
  rw [eng_bind_ok h]; rfl

/-- R164: a bit when the queue is empty: the refill word comes first. -/
theorem getBit_refill {b c : Byte} {bs : List Byte} (hn : w.qbits = 0) (hf : Feeds v st w (b :: c :: bs)) :
    getBit v st w = .ok (bitSet (BitVec.ofNat 16 (le16 b c)) 0)
      { w with queue := BitVec.ofNat 16 (le16 b c) >>> 1, qbits := 15, icur := w.icur + 2 } := by
  unfold getBit refillIfEmpty queueEmpty
  have h : (readWork (fun k : Work => k.qbits == 0) >>= fun e => if e then refillQueue v st else pure ()) w
      = .ok () { w with queue := BitVec.ofNat 16 (le16 b c), qbits := 16, icur := w.icur + 2 } := by
    rw [eng_bind_ok (readWork_apply _ w), if_pos (by simpa using hn)]
    unfold refillQueue
    rw [eng_bind_ok (inWord_feeds hf)]; rfl
  rw [eng_bind_ok h]; rfl

/-! ### Grids and plots (R203, R235) -/

/-- A row of a grid fill. -/
theorem fillRow_ok {base n : Nat} {x : Byte} (ha : ∀ k, k < n → base + k < v.plat.memSize) (hq : w.quota = none) :
    loop n (fun k => memWrite v (base + k) x) w = .ok () { w with mem := w.mem.writeList base (List.replicate n x) } := by
  suffices h : ∀ j (u : Work), u.quota = none → (∀ k, k < n → base + (j + k) < v.plat.memSize) →
      loopFrom (fun k => memWrite v (base + k) x) n j u
        = .ok () { u with mem := u.mem.writeList (base + j) (List.replicate n x) } by
    exact h 0 w hq (by simpa using ha)
  clear ha hq
  induction n with
  | zero => intro j u _ _; rfl
  | succ n ih =>
    intro j u hq ha
    rw [loopFrom_succ, eng_bind_ok (memWrite_ok (by simpa using ha 0 (by omega)) hq), List.replicate_succ,
      Memory.writeList_cons]
    refine ih (j + 1) { u with mem := u.mem.write (base + j) x } hq fun k hk => ?_
    have := ha (k + 1) (by omega)
    omega

/-- R203, R204: a grid fill of bytes that exist writes them all, in order of address. -/
theorem fillGrid_ok {base wd h : Nat} {x : Byte} (ha : ∀ k, k < wd * h → base + k < v.plat.memSize)
    (hq : w.quota = none) :
    fillGrid v base wd h x w = .ok () { w with mem := w.mem.writeList base (List.replicate (wd * h) x) } := by
  suffices g : ∀ j (u : Work), u.quota = none → (∀ k, k < wd * h → base + j * wd + k < v.plat.memSize) →
      loopFrom (fun row => loop wd fun col => memWrite v (base + row * wd + col) x) h j u
        = .ok () { u with mem := u.mem.writeList (base + j * wd) (List.replicate (wd * h) x) } by
    simpa [fillGrid, loop] using g 0 w hq (by simpa using ha)
  clear ha hq
  induction h with
  | zero => intro j u _ _; simp [loopFrom]
  | succ h ih =>
    intro j u hq ha
    have e : wd * (h + 1) = wd + wd * h := by ring
    have e' : (j + 1) * wd = j * wd + wd := by ring
    rw [loopFrom_succ, eng_bind_ok (fillRow_ok (base := base + j * wd) (fun k hk => ha k (by omega)) hq), e,
      List.replicate_add, Memory.writeList_append, List.length_replicate]
    have := ih (j + 1) { u with mem := u.mem.writeList (base + j * wd) (List.replicate wd x) } hq fun k hk => by
      have := ha (wd + k) (by omega)
      omega
    rwa [e', ← Nat.add_assoc] at this

end Sys2Proof.Machine
end

