-- ==== Sys2Proof/Tests/Slice0.lean ====
section
/-! SUPPORT. Tests. Expected results are those of spec/95_test_vectors.md (its V- identifiers are cited) or hand
calculation from the rule named. The witnesses show a state that meets every hypothesis of an obligation. -/

namespace Sys2Proof.Tests

open Sys2Proof.Machine Sys2Proof.Claims

set_option Elab.async false

/-! ### Small states -/

/-- The OPEN parameters of the tests. -/
def plat : Platform :=
  { regBase := 0x40000, memSize := 0x10000, collistOff := 0, flagShift := 4, flagPattern := 1, globeBank := 0x10 }

/-- Memory with the bytes of a list from an address on. -/
def poke (m : Memory) (a : Nat) : List Byte → Memory
  | [] => m
  | b :: bs => poke (m.write a b) (a + 1) bs

/-- The block IDLE, with some parameters and memory contents. -/
def idle (p : Params) (m : Memory) : State := { State.reset with plat := plat, params := p, mem := m }

/-- The block about to run the command word 0 with these parameters (a meaning does not look at the word). -/
def run (p : Params) (m : Memory) : State := (idle p m).placeCommand 0

/-- The same, after the palette and rotation writes of another state. -/
def runAfter (s : State) (p : Params) : State := { s with params := p }.placeCommand 0

/-- The state of an outcome that goes on. -/
def get (o : Host.Outcome State Fault Refusal) : State :=
  match o with
  | .next s => s
  | _ => State.reset

/-- `n` bytes of memory from an address on. -/
def peek (s : State) (a n : Nat) : List Byte := (List.range n).map fun k => s.byte (a + k)

/-- STATUS, ERR_INFO, RESULT0 and RESULT1 after a command. -/
def report (i : Instr) (s : State) : List Word :=
  let t := get (exec i s)
  [t.statusWord, t.errInfo, t.result0, t.result1]

/-- SRC_ADDR, SRC_LEN, DST_ADDR and DST_LEN set. -/
def streams (n cap : Word) : Params :=
  { Params.zero with srcAddr := 0x1000, srcLen := n, dstAddr := 0x2000, dstLen := cap }

/-- A source stream at 0x1000. -/
def source (bs : List Byte) : Memory := poke [] 0x1000 bs

/-! ### Well-formedness: each check refuses an ill-formed word -/

/-- R112: OP 0x03 is reserved; the RSVD field is zero, so only `opAssigned` refuses. -/
theorem test_wf_refuses_reserved_op :
    CmdWord.wf { op := 0x03, rsvd := 0 } = false ∧ CmdWord.rsvdZero { op := 0x03, rsvd := 0 } = true := by decide

/-- R112: CMD[31:8] = 1 with OP 0x02; the opcode is assigned, so only `rsvdZero` refuses. -/
theorem test_wf_refuses_reserved_field :
    CmdWord.wf { op := 0x02, rsvd := 1 } = false ∧ CmdWord.opAssigned { op := 0x02, rsvd := 1 } = true := by decide

/-! ### Decoding: words written from the table of R111 -/

theorem test_decode_control_hsq :
    decodeWord 0x00000000 = .ok .nop ∧ decodeWord 0x00000001 = .ok .hsqProbe
      ∧ decodeWord 0x00000002 = .ok .hsqDecompress := by decide

theorem test_decode_palette :
    decodeWord 0x00000010 = .ok .palApply ∧ decodeWord 0x00000011 = .ok .palRead ∧ decodeWord 0x00000012 = .ok .palWrite
      ∧ decodeWord 0x00000013 = .ok .palDisplay ∧ decodeWord 0x00000014 = .ok .palCopy
      ∧ decodeWord 0x00000015 = .ok .palLerp ∧ decodeWord 0x00000016 = .ok .palExport := by decide

theorem test_decode_surface_blit :
    decodeWord 0x00000020 = .ok .sprHeader ∧ decodeWord 0x00000021 = .ok .surfClear
      ∧ decodeWord 0x00000022 = .ok .imapClear ∧ decodeWord 0x00000023 = .ok .rleDecode
      ∧ decodeWord 0x00000024 = .ok .blit := by decide

theorem test_decode_globe :
    decodeWord 0x00000030 = .ok .rotWrite ∧ decodeWord 0x00000031 = .ok .rotRead ∧ decodeWord 0x00000032 = .ok .tiltRead
      ∧ decodeWord 0x00000033 = .ok .globePhase ∧ decodeWord 0x00000034 = .ok .globeDraw := by decide

/-- R112: the neighbours of the assigned ranges, and a word with one reserved bit set. -/
theorem test_decode_refuses :
    decodeWord 0x00000003 = .error .reservedOp ∧ decodeWord 0x0000000F = .error .reservedOp
      ∧ decodeWord 0x00000017 = .error .reservedOp ∧ decodeWord 0x00000025 = .error .reservedOp
      ∧ decodeWord 0x00000035 = .error .reservedOp ∧ decodeWord 0x000000FF = .error .reservedOp
      ∧ decodeWord 0x80000002 = .error .reservedField ∧ decode [0x02, 0, 0] = .error .shortWord := by decide

/-! ### One step of each command -/

/-- V-CTL-2. -/
theorem test_nop : report .nop (run Params.zero []) = [0x00000002, 0, 0, 0] := by decide +kernel

/-- V-HSQ-15 and its SRC_LEN = 5. -/
theorem test_hsqProbe :
    report .hsqProbe (run (streams 6 0) (source [0x07, 0, 0, 0x96, 0x0E, 0])) = [0x12, 0, 7, 0x0096000E]
      ∧ report .hsqProbe (run (streams 5 0) (source [0x07, 0, 0, 0x96, 0x0E])) = [0x206, 5, 0, 0] := by decide +kernel

/-- V-HSQ-1's resource. -/
def hsq1 : List Byte := [0x07, 0, 0, 0x96, 0x0E, 0, 0xB3, 0, 0x41, 0x42, 0xFE, 0, 0, 0]

/-- V-HSQ-1. -/
theorem test_hsqDecompress :
    let s := run (streams 14 64) (source hsq1)
    report .hsqDecompress s = [0x12, 0, 7, 14]
      ∧ peek (get (exec .hsqDecompress s)) 0x2000 8 = [0x41, 0x42, 0x41, 0x42, 0x41, 0x42, 0x41, 0] := by decide +kernel

/-- V-HSQ-4: the refill word comes when a bit is needed, not when the queue empties. -/
theorem test_hsqDecompress_refill :
    let s := run (streams 30 64) (source [0x11, 0, 0, 0x7C, 0x1E, 0, 0xFF, 0xFF, 0, 1, 2, 3, 4, 5, 6, 7, 8, 9, 10, 11, 12,
      13, 14, 15, 0x05, 0, 0x10, 0, 0, 0])
    report .hsqDecompress s = [0x12, 0, 17, 30]
      ∧ peek (get (exec .hsqDecompress s)) 0x200E 4 = [14, 15, 16, 0] := by decide +kernel

/-- V-PAL-3: slots past 255 are dropped. -/
theorem test_palApply :
    let s := run (streams 16 0) (source [0xFE, 4, 1, 2, 3, 4, 5, 6, 7, 8, 9, 10, 11, 12, 0xFF, 0xFF])
    report .palApply s = [2, 0, 16, 0] ∧ (get (exec .palApply s)).palAt 0 254 = ⟨1, 2, 3⟩
      ∧ (get (exec .palApply s)).palAt 0 255 = ⟨4, 5, 6⟩ := by decide +kernel

/-- V-PAL-6: a stream that ends inside a triple. -/
theorem test_palApply_eof :
    let s := run (streams 5 0) (source [5, 2, 1, 2, 3])
    report .palApply s = [0x206, 5, 0, 0] ∧ (get (exec .palApply s)).palAt 0 5 = ⟨1, 2, 3⟩ := by decide +kernel

/-- A PAL_WRITE done. -/
def palWritten (i data : Word) : State :=
  get (exec .palWrite (run { Params.zero with palIndex := i, palData := data } []))

/-- V-PAL-10. -/
theorem test_palWrite_palRead :
    (palWritten 7 0x00102030).palAt 0 7 = ⟨0x30, 0x20, 0x10⟩
      ∧ report .palRead (runAfter (palWritten 7 0x00102030) { Params.zero with palIndex := 7 }) = [2, 0, 0x00102030, 0] := by
  decide +kernel

/-- V-PAL-11 and V-PAL-13. -/
theorem test_palDisplay :
    report .palDisplay (runAfter (palWritten 9 0x00201F01) { Params.zero with palIndex := 9 }) = [2, 0, 0x00817D04, 0]
      ∧ report .palDisplay (runAfter (palWritten 9 0x00FF6440) { Params.zero with palIndex := 9 })
        = [2, 0, 0x00089403, 0] := by
  decide +kernel

/-- R184 with BANK = 1, SRC_BANK = 0 (V-PAL-14, with PAL_SEL as R33 lays it out, log 23). -/
theorem test_palCopy :
    (get (exec .palCopy (runAfter (palWritten 1 0x3F00) { Params.zero with palSel := 1 }))).palAt 1 1 = ⟨0, 63, 0⟩ := by
  decide +kernel

/-- R185's example, and V-LERP's truncation toward zero: (20, 10, 3) gives 17. -/
theorem test_palLerp :
    report .palLerp (run { Params.zero with lerpA := 0x00000A14, lerpB := 0x0014000A, lerpDiv := 3 } [])
        = [2, 0, 0x00060711, 0]
      ∧ report .palLerp (run { Params.zero with lerpDiv := 0xFFFF } []) = [0xA06, 0xFFFF, 0, 0] := by decide +kernel

/-- R186's example: entry 0 = (63, 0, 0), in a bank whose other entries are (0, 0, 0) but for the last. -/
theorem test_palExport :
    let s := { run (streams 0 768) [] with
      pal := (List.range 256).map fun i => (i, { r := if i = 0 then 63 else 0, g := 0, b := if i = 255 then 63 else 0 }) }
    peek (get (exec .palExport s)) 0x2000 4 = [0xFF, 0, 0, 0]
      ∧ peek (get (exec .palExport s)) 0x22FD 4 = [0, 0, 0xFF, 0] := by decide +kernel

/-- V-SPR-1 and V-SPR-2. -/
theorem test_sprHeader :
    report .sprHeader (run (streams 4 0) (source [0x03, 0x80, 0x02, 0x10])) = [0x22, 0, 0x00020003, 0x00401001]
      ∧ report .sprHeader (run (streams 4 0) (source [0xFF, 0x01, 0x01, 0xFE])) = [0x22, 0, 0x000101FF, 0x0100FE00] := by
  decide +kernel

/-- V-SURF-2. -/
theorem test_surfClear :
    peek (get (exec .surfClear (run { Params.zero with surfBase := 0x1000, surfDim := 0x00020003, clearVal := 0xC5 } [])))
      0xFFF 8 = [0, 0xC5, 0xC5, 0xC5, 0xC5, 0xC5, 0xC5, 0] := by decide +kernel

/-- V-SURF-5: a surface past the end of memory. -/
theorem test_surfClear_busError :
    let s := run { Params.zero with surfBase := 0xFFFE, surfDim := 0x00010004, clearVal := 7 } []
    report .surfClear s = [0x406, 0x10000, 0, 0] ∧ peek (get (exec .surfClear s)) 0xFFFD 3 = [0, 7, 7] := by decide +kernel

/-- V-SURF-3. -/
theorem test_imapClear :
    peek (get (exec .imapClear (run { Params.zero with imapBase := 0x1000, surfDim := 0x00010003 } []))) 0xFFF 5
      = [0, 0xFF, 0xFF, 0xFF, 0] := by decide +kernel

/-- V-RLE-1. -/
theorem test_rleDecode :
    let s := run { streams 6 64 with blitSize := 0x00010006, blitCfg := 0xFE00 } (source [2, 0xAA, 0xBB, 0xCC, 0xFE, 0x11])
    report .rleDecode s = [2, 0, 6, 6]
      ∧ peek (get (exec .rleDecode s)) 0x2000 7 = [0xAA, 0xBB, 0xCC, 0x11, 0x11, 0x11, 0] := by decide +kernel

/-- V-RLE-5: an overrun in the middle of a row. -/
theorem test_rleDecode_overrun :
    let s := run { streams 4 64 with blitSize := 0x00020003 } (source [0, 0x77, 0xFF, 0x55])
    report .rleDecode s = [0x806, 2, 0, 0] ∧ peek (get (exec .rleDecode s)) 0x2000 2 = [0x77, 0] := by decide +kernel

/-- The parameters of V-BLIT-8: a 3 × 2 sprite on a 4 × 2 surface with an index map. -/
def blit8 : Params :=
  { streams 4 0 with
    surfBase := 0x2000, surfDim := 0x00020004, imapBase := 0x3000, blitSize := 0x00020003, blitCfg := 0x1080, objId := 7 }

/-- V-BLIT-8 without the index-map clear. -/
theorem test_blit :
    let s := run blit8 (source [0x21, 0x03, 0x40, 0x05])
    report .blit s = [2, 0, 5, 0x00020003]
      ∧ peek (get (exec .blit s)) 0x2000 8 = [0x11, 0x12, 0x13, 0, 0, 0x14, 0x15, 0]
      ∧ peek (get (exec .blit s)) 0x3000 8 = [7, 7, 7, 0, 0, 7, 7, 0] := by decide +kernel

/-- V-BLIT-11: scaled by 352/256. -/
theorem test_blit_scaled :
    let s := run { blit8 with blitSize := 0x00020004, blitCfg := 0x2018 } (source [0x21, 0x43, 0x65, 0x87])
    report .blit s = [2, 0, 2, 0x00010002] ∧ peek (get (exec .blit s)) 0x2000 4 = [0x21, 0x22, 0, 0] := by decide +kernel

/-- V-TILT-2 and V-TILT-9. -/
theorem test_tiltRead :
    report .tiltRead (run { Params.zero with tiltIndex := 97 } []) = [2, 0, 0x00006203, 0]
      ∧ report .tiltRead (run { Params.zero with tiltIndex := 392 } []) = [0xB06, 392, 0, 0] := by decide +kernel

/-- V-ROT-1's state. -/
def rot5 : State := get (exec .rotWrite (run { Params.zero with rotIndex := 5, rotData := 0x00640010 } []))

/-- V-ROT-1. -/
theorem test_rotWrite : (rot5.rotAt 5).start = 16 ∧ (rot5.rotAt 5).len = 100 := by decide +kernel

/-- R362: a ROT_WRITE that is cut short after its first write has loaded the start and not the length. -/
theorem test_rotWrite_cut :
    (match bodyRotWrite (run { Params.zero with rotIndex := 5, rotData := 0x00640010 } []).view (State.reset.work (some 1)) with
      | .ok _ w => (w.rotStart, w.rotLen)
      | .error _ w => (w.rotStart, w.rotLen)) = ([(5, 16)], []) := by decide +kernel

/-- V-ROT-4. -/
theorem test_globePhase_rotRead :
    report .rotRead
        (runAfter (get (exec .globePhase (runAfter rot5 { Params.zero with globeRot := 0x8000 })))
          { Params.zero with rotIndex := 5 })
      = [2, 0, 0x00640010, 0x00640000] := by decide +kernel

/-- V-GLB-1's choice of the OPEN functions, with A = 3. -/
def globe3 : GlobeFns := { auxRs := fun _ _ => 3, auxSd := fun _ _ => 4, offset := fun q => q.col - 1 }

/-- V-GLB-1's parameters, for an elevation resource of `n` bytes. -/
def globeParams (n : Word) : Params :=
  { Params.zero with
    globeElevAddr := 0x1000, globeElevLen := n, globeMapAddr := 0x1100, globeMapLen := 4, surfBase := 0x2000,
    surfDim := 0x00080008, globeCenter := 0x00040004 }

/-- V-GLB-1's state, every row length 4. -/
def globe1 (elev : List Byte) : State :=
  { run (globeParams (word elev.length)) (poke (poke [] 0x1000 elev) 0x1100 [0, 0, 0, 0x15]) with
    rotStart := (List.range 99).map fun i => (i, 0), rotLen := (List.range 99).map fun i => (i, 4) }

/-- V-GLB-1. -/
theorem test_globeDraw :
    peek ((globe1 [0xFF, 0, 0, 0, 0]).runCmd (drawGlobe globe3)) 0x2020 8 = [0, 0, 0, 0x21, 0x21, 0, 0, 0] := by
  decide +kernel

/-- V-GLB-8: an empty column list. -/
theorem test_globeDraw_empty : report .globeDraw (globe1 [0]) = [2, 0, 0, 0] := by decide +kernel

/-! ### The window and the host -/

/-- V-CTL-3 and V-CTL-6: an illegal word, by its own step, and its acknowledgement. -/
theorem test_illegal_word :
    let s := get (step ((idle Params.zero []).busWrite 0x40008 4 0x00000003))
    s.statusWord = 0x00000106 ∧ s.errInfo = 3 ∧ (s.busWrite 0x4000C 4 0x0000000E).statusWord = 0
      ∧ (s.busWrite 0x4000C 4 0x0000000E).errInfo = 3 := by decide +kernel

/-- V-CTL-14. -/
theorem test_reserved_bits :
    (idle Params.zero []).busRead 0x400FC 4 = 0
      ∧ ((idle Params.zero []).busWrite 0x40040 4 0xFFFFFFFF).busRead 0x40040 4 = 0xFF := by decide +kernel

/-- ERR_INFO reads as the previous command left it while a NOP runs (R86), and 0 once the NOP has ended (R113). -/
theorem test_errInfo_running :
    let s := { idle Params.zero [] with errInfo := 9 }.placeCommand 0
    s.busRead 0x40014 4 = 9 ∧ (get (step s)).busRead 0x40014 4 = 0 := by decide +kernel

/-- A word placed by `withFetchWord` runs at the next step (R150). -/
theorem test_withFetchWord :
    step ((idle Params.zero []).withFetchWord 32 0) = exec .nop ((idle Params.zero []).withFetchWord 32 0) := by rfl

/-! ### Witnesses -/

/-- R116: V-HSQ-1 as tokens: two literals, a short copy of 5 bytes at distance 2, and the end token. -/
def tokens1 : List Token := [.literal 0x41, .literal 0x42, .short true true 0xFE]

/-- The layout of the tokens is V-HSQ-1's resource, and they stand for its output. -/
theorem test_hsqStream :
    hsqStream 0x07 0 0 0x96 0x0E 0 tokens1 0 = hsq1
      ∧ expandTokens [] tokens1 = [0x41, 0x42, 0x41, 0x42, 0x41, 0x42, 0x41] := by decide +kernel

/-- Bytes that stand in memory one by one stand there as a list. -/
theorem holds_of_bytes {s : State} {base : Nat} {bs : List Byte}
    (h : ∀ k, k < bs.length → s.byte (base + k) = bs.getD k 0) : s.holds base bs := by
  intro k b hb
  obtain ⟨hk, rfl⟩ := List.getElem?_eq_some_iff.1 hb
  rw [h k hk, List.getD_eq_getElem _ _ hk]

/-- The block running a NOP, with latency 2 and an access waiting. -/
def busy (r : Running) (inbox : List Input) : State :=
  { idle Params.zero [] with phase := .running r, inbox := inbox }

/-- A running SURF_CLEAR of four bytes at 0x2000. -/
def clearing (latency : Nat) (contested : List Nat) : Running where
  cmd := 0x21
  snap := { Params.zero with surfBase := 0x2000, surfDim := 0x00020002, clearVal := 0xC5 }
  heldInfo := 9
  latency := latency
  foot := { reads := [], writes := [(0x2000, 4)] }
  contested := contested

theorem witness_StepRunsTheDecodedCommand :
    (busy (clearing 0 []) []).phase = .running (clearing 0 []) ∧ decodeWord (clearing 0 []).cmd = .ok .surfClear
      ∧ ((clearing 0 []).latency = 0 ∨ (busy (clearing 0 []) []).inbox = []) ∧ (clearing 0 []).contested = [] :=
  ⟨rfl, rfl, .inl rfl, rfl⟩

theorem witness_IllegalWordEndsWithIllegalCmd :
    (idle Params.zero []).phase = .idle ∧ (∀ x ∈ opcodeTable, x.1 ≠ 0x102) ∧ ∀ x ∈ opcodeTable, x.1 ≠ 0x35 := by decide

theorem witness_CmdWriteStartsOrIsDropped :
    (idle Params.zero []).phase = .idle ∧ (busy (clearing 2 []) []).busy = true := by decide

theorem witness_AcceptedCommandRuns :
    (idle Params.zero []).phase = .idle ∧ (idle Params.zero []).inbox = [] ∧ decodeWord 0x21 = .ok .surfClear :=
  ⟨rfl, rfl, rfl⟩

theorem witness_ErrorEndLeavesResults :
    let s := run { Params.zero with lerpDiv := 0 } []
    s.status.err = false ∧ (exec .palLerp s = .next (get (exec .palLerp s)) ∧ (get (exec .palLerp s)).status.err = true)
      ∧ exec .nop s = .next (get (exec .nop s)) ∧ (get (exec .nop s)).status.err = false :=
  ⟨rfl, ⟨rfl, by decide +kernel⟩, rfl, by decide +kernel⟩

theorem witness_FlagsAndRamsHaveTheirOwnCommands :
    exec .nop (run Params.zero []) = .next (get (exec .nop (run Params.zero []))) := rfl

theorem witness_CommandsWriteOnlyTheirRegions :
    let s := busy (clearing 0 []) []
    s.contested = [] ∧ exec .surfClear s = .next (get (exec .surfClear s))
      ∧ inRegions (footprint .surfClear s.snap s.mem).writes 0x1FFF = false
      ∧ inRegions (footprint .surfClear s.snap s.mem).writes 0x2004 = false :=
  ⟨rfl, rfl, by decide +kernel, by decide +kernel⟩

theorem witness_RunningCommandEndsWithinItsLatency :
    (busy (clearing 2 []) [.read 0x4000C 4]).phase = .running (clearing 2 []) := rfl

theorem witness_StepFaultsOnlyOnMissingHostBytes :
    step { idle Params.zero [] with inbox := [.memRead 0x10000] } = .fault (.noSuchMemory 0x10000) := rfl

theorem witness_AccessesWithoutEffect :
    ((0x0A8 : Nat) < 256 ∧ (0x0FC : Nat) < 256 ∧ 0x0A8 ≤ 0x0A8) ∧ ((0x008 : Nat) < 256 ∧ 2 ≠ 4)
      ∧ ((0x009 : Nat) < 256 ∧ 0x009 % 4 ≠ 0) ∧ (0xFFFFFFFE : Word).getLsbD 0 = false := by decide

theorem witness_ParameterWriteReadsBack :
    ParamReg.srcAddr ≠ ParamReg.tiltIndex ∧ (busy (clearing 2 []) []).busy = true := by decide

theorem witness_SoftResetClearsTheRegisters :
    (0x1 : Word).getLsbD 0 = true ∧ (idle Params.zero []).phase = .idle := by decide

theorem witness_SoftResetLeavesOtherMemory :
    let s := busy (clearing 2 []) []
    (0x1 : Word).getLsbD 0 = true ∧ s.phase = .running (clearing 2 []) ∧ (clearing 2 []).contested = []
      ∧ decodeWord (clearing 2 []).cmd = .ok .surfClear
      ∧ inRegions (footprint .surfClear (clearing 2 []).snap s.mem).writes 0x2004 = false := by decide

theorem witness_PowerOnResetKeepsSystemMemory :
    let s := { idle Params.zero [(7, 1)] with inbox := [.powerOn] }
    s.phase = .idle ∧ s.inbox = .powerOn :: [] := by decide

/-- The invariant holds of the block about to start a command, and its step goes on. -/
theorem witness_EveryStepKeepsTheInvariant :
    let s := { idle Params.zero [(7, 1)] with inbox := [.write 0x40008 4 0x21] }
    s.Inv ∧ step s = .next (get (step s)) := by
  refine ⟨?_, rfl⟩
  refine ⟨by unfold Platform.wf; decide, by decide, by unfold keysBelow; decide, by decide, by unfold keysBelow; decide,
    by decide, by unfold keysBelow; decide, by decide, by unfold keysBelow; decide, by decide,
    by unfold keysBelow; decide, ?_, by decide, by decide, trivial⟩
  intro r; cases r <;> rfl

theorem witness_ContestedByteEndsOpen :
    let s := busy (clearing 0 [0x2001]) []
    s.phase = .running (clearing 0 [0x2001]) ∧ ((clearing 0 [0x2001]).latency = 0 ∨ s.inbox = [])
      ∧ 0x2001 ∈ (clearing 0 [0x2001]).contested ∧ step s = .next (get (step s)) :=
  ⟨rfl, .inl rfl, by decide, rfl⟩

/-- The engine IDLE, and RUNNING with the byte one past the running command's region. -/
theorem witness_HostByteAccessesLand :
    let s := fun i => { idle Params.zero [] with inbox := [i] }
    let r := clearing 2 []
    let t := fun i => busy r [i]
    (∀ i, (s i).inbox = i :: [] ∧ hostsTurn (s i) ∧ (s i).phase = .idle ∧ 0xFFFF < (s i).plat.memSize)
      ∧ ∀ i, (t i).inbox = i :: [] ∧ hostsTurn (t i) ∧ (t i).phase = .running r ∧ 0x2004 < (t i).plat.memSize
        ∧ 0x2004 ∉ r.contested ∧ inRegions r.foot.reads 0x2004 = false ∧ inRegions r.foot.writes 0x2004 = false :=
  ⟨fun _ => ⟨rfl, trivial, rfl, by show 0xFFFF < 0x10000; decide⟩,
    fun _ => ⟨rfl, by show 0 < 2; decide, rfl, by show 0x2004 < 0x10000; decide, by decide, by decide, by decide⟩⟩

theorem witness_StepMakesTheHostsRegisterAccess :
    (∀ i, hostsTurn { idle Params.zero [] with inbox := [i] } ∧ { idle Params.zero [] with inbox := [i] }.inbox = i :: [])
      ∧ ∀ i, hostsTurn (busy (clearing 1 []) [i]) ∧ (busy (clearing 1 []) [i]).inbox = i :: [] :=
  ⟨fun _ => ⟨trivial, rfl⟩, fun _ => ⟨by show 0 < 1; decide, rfl⟩⟩

/-- The header ends with memory, and the stream holds six bytes, then five. -/
theorem witness_HsqProbeReportsTheHeader :
    let s := fun n => run { Params.zero with srcAddr := 0xFFFA, srcLen := n } []
    (6 ≤ (s 6).snap.srcLen.toNat ∧ (s 6).readable (s 6).snap.srcAddr.toNat 6)
      ∧ (s 5).snap.srcLen.toNat < 6 ∧ (s 5).readable (s 5).snap.srcAddr.toNat (s 5).snap.srcLen.toNat := by
  unfold State.readable; decide +kernel

/-- Both ways of overlap: the destination one byte before the source, and right behind it. -/
theorem witness_HsqDecompressCopiesVerbatim :
    let s := fun d => run { streams 6 6 with dstAddr := if d then 0xFFF else 0x1006 } (source [1, 2, 3, 4, 5, 6])
    ∀ d : Bool,
      6 ≤ (s d).snap.srcLen.toNat ∧ (headerAt (s d).snap (s d).mem).ok = false
        ∧ (s d).snap.srcLen.toNat ≤ (s d).snap.dstLen.toNat ∧ (s d).readable (s d).snap.srcAddr.toNat 6
        ∧ (s d).writable (s d).snap.dstAddr.toNat 6
        ∧ ((s d).snap.dstAddr.toNat ≤ (s d).snap.srcAddr.toNat ∨ (s d).snap.srcAddr.toNat + 6 ≤ (s d).snap.dstAddr.toNat)
        ∧ (s d).snap.srcLen.toNat = 6 := by
  unfold State.readable State.writable; decide +kernel

/-- V-HSQ-9 and V-HSQ-7: a compressed and a verbatim output one byte too long. -/
theorem witness_HsqDecompressErrorEnds :
    let s := run (streams 14 6) (source hsq1)
    let t := run (streams 6 5) (source [1, 2, 3, 4, 5, 6])
    (6 ≤ s.snap.srcLen.toNat ∧ s.readable s.snap.srcAddr.toNat 6 ∧ s.snap.dstLen.toNat < hsqOutLen s.snap s.mem)
      ∧ 6 ≤ t.snap.srcLen.toNat ∧ t.readable t.snap.srcAddr.toNat 6 ∧ t.snap.dstLen.toNat < hsqOutLen t.snap t.mem := by
  unfold State.readable; decide +kernel

/-- A resource of the declared size 3 that starts with two literals. -/
def shortResource (last : List Item) : List Byte :=
  hsqResource 3 0 0 0xA8 0 0 ([Token.literal 0x41, .literal 0x42].flatMap Token.items ++ last ++ [])

/-- HSQ_DECOMPRESS of that resource at 0x1000 into three bytes at 0x2000. -/
def shortRun (last : List Item) : State :=
  run (streams (BitVec.ofNat 32 (shortResource last).length) 3) (source (shortResource last))

/-- The hypotheses that the error ends during decoding share. -/
def decodingOk (last : List Item) : Prop :=
  let stream := shortResource last
  let s := shortRun last
  let ks := [Token.literal 0x41, .literal 0x42]
  (3 + 0xA8) % 256 = 0xAB ∧ 3 ≤ s.snap.dstLen.toNat ∧ conforming [] ks ∧ (expandTokens [] ks).length ≤ 3
    ∧ s.holds s.snap.srcAddr.toNat stream ∧ stream.length ≤ s.snap.srcLen.toNat
    ∧ s.readable s.snap.srcAddr.toNat stream.length ∧ s.readable s.snap.dstAddr.toNat 3
    ∧ apart s.snap.srcAddr.toNat stream.length s.snap.dstAddr.toNat 3

/-- The end token after two of three bytes, a distance of 3 after two bytes, and five bytes copied where one is left. -/
theorem witness_HsqDecompressErrorEnds_decoding :
    let out := expandTokens [] [Token.literal 0x41, .literal 0x42]
    let far : Token := .short false false 0xFD
    let long : Token := .short true true 0xFE
    (decodingOk (endItems 0) ∧ (0 : BitVec 16).toNat % 8 = 0 ∧ out.length < 3)
      ∧ (decodingOk far.items ∧ far.grammatical ∧ far.copy = some (3, 2) ∧ out.length < 3)
      ∧ decodingOk long.items ∧ long.conforms out ∧ 3 < (long.apply out).length := by
  refine ⟨⟨⟨by decide, by decide +kernel, ?_, by decide +kernel, holds_of_bytes (by decide +kernel), by decide +kernel,
      by unfold State.readable; decide +kernel, by unfold State.readable; decide +kernel,
      by unfold apart; decide +kernel⟩, by decide, by decide⟩,
    ⟨⟨by decide, by decide +kernel, ?_, by decide +kernel, holds_of_bytes (by decide +kernel), by decide +kernel,
      by unfold State.readable; decide +kernel, by unfold State.readable; decide +kernel,
      by unfold apart; decide +kernel⟩, trivial, by decide, by decide⟩,
    ⟨by decide, by decide +kernel, ?_, by decide +kernel, holds_of_bytes (by decide +kernel), by decide +kernel,
      by unfold State.readable; decide +kernel, by unfold State.readable; decide +kernel,
      by unfold apart; decide +kernel⟩, ⟨trivial, ?_⟩, by decide⟩
  all_goals simp [conforming, Token.conforms, Token.grammatical, Token.copy, Token.apply, expandTokens]

/-- V-HSQ-1. -/
theorem witness_HsqDecompressInvertsConformingStreams :
    let s := run (streams 14 7) (source hsq1)
    let stream := hsqStream 0x07 0 0 0x96 0x0E 0 tokens1 0
    let out := expandTokens [] tokens1
    (0x07 + 0x96 + 0x0E) % 256 = 0xAB ∧ 0x07 = out.length ∧ (0 : BitVec 16).toNat % 8 = 0 ∧ conforming [] tokens1
      ∧ s.holds 0x1000 stream ∧ stream.length ≤ s.snap.srcLen.toNat ∧ out.length ≤ s.snap.dstLen.toNat
      ∧ s.snap.srcAddr.toNat = 0x1000 ∧ s.snap.dstAddr.toNat = 0x2000 ∧ s.readable 0x1000 stream.length
      ∧ s.readable 0x2000 out.length ∧ apart 0x1000 stream.length 0x2000 out.length := by
  refine ⟨by decide, by decide +kernel, by decide, ?_, holds_of_bytes (by decide +kernel), by decide +kernel,
    by decide +kernel, by decide, by decide, by unfold State.readable; decide +kernel,
    by unfold State.readable; decide +kernel, by unfold apart; decide +kernel⟩
  simp [tokens1, conforming, Token.conforms, Token.grammatical, Token.copy, Token.apply]

/-- A skip marker and a run that passes slot 255. -/
def palItems : List PalItem :=
  [.skip 9 9 9, .run 0xFF 2 [{ r := 1, g := 2, b := 3 }, { r := 4, g := 5, b := 6 }]]

/-- The stream with one filler byte and a byte after it, and the stream cut inside the second triple. -/
theorem witness_PalApplyAppliesItsStream :
    let coded := palItems.flatMap PalItem.coded ++ [0xFF, 0xFF]
    let stream := coded ++ List.replicate 1 0xFF
    let s := run (streams 17 0) (source (stream ++ [5]))
    let t := run (streams 12 0) (source (coded.take 12))
    (∀ it ∈ palItems, it.ok)
      ∧ (stream.length ≤ s.snap.srcLen.toNat ∧ s.holds s.snap.srcAddr.toNat stream
        ∧ s.readable s.snap.srcAddr.toNat stream.length ∧ s.readable (s.snap.srcAddr.toNat + stream.length) 1
        ∧ s.byte (s.snap.srcAddr.toNat + stream.length) ≠ 0xFF)
      ∧ t.snap.srcLen.toNat < coded.length ∧ t.holds t.snap.srcAddr.toNat (coded.take t.snap.srcLen.toNat)
      ∧ t.readable t.snap.srcAddr.toNat t.snap.srcLen.toNat := by
  refine ⟨by simp [palItems, PalItem.ok], ⟨by decide +kernel, holds_of_bytes (by decide +kernel),
    by unfold State.readable; decide +kernel, by unfold State.readable; decide +kernel, by decide +kernel⟩,
    by decide +kernel, holds_of_bytes (by decide +kernel), by unfold State.readable; decide +kernel⟩

theorem witness_PaletteUpdateLaws :
    let s := run (streams 2 0) (source [0xFF, 0xFF])
    let t := run (streams 772 0) (poke [] 0x1302 [0xFF, 0xFF])
    let b := fun (u : State) k => u.byte (u.snap.srcAddr.toNat + k)
    (s.snap.srcLen = 2 ∧ s.readable s.snap.srcAddr.toNat 2 ∧ b s 0 = 0xFF ∧ b s 1 = 0xFF)
      ∧ t.snap.srcLen = 772 ∧ t.readable t.snap.srcAddr.toNat 772 ∧ b t 0 = 0 ∧ b t 1 = 0 ∧ b t 770 = 0xFF
      ∧ b t 771 = 0xFF := by
  unfold State.readable; decide +kernel

/-- The divisors 1 and 32767, and 0 and -1. -/
theorem witness_PalLerpInterpolates :
    let d := fun v => ((run { Params.zero with lerpDiv := v } []).snap.lerpDiv.extractLsb' 0 16).toInt
    0 < d 1 ∧ 0 < d 0x7FFF ∧ d 0 ≤ 0 ∧ d 0xFFFF ≤ 0 := by decide +kernel

theorem witness_LerpStaysBetweenItsOperands : (0 : Int) < 3 := by decide

/-- A capacity of 768 at the end of memory, and one of 767. -/
theorem witness_PalExportWritesTheDisplayTable :
    let s := fun n => run { streams 0 n with dstAddr := 0xFD00 } []
    (768 ≤ (s 768).snap.dstLen.toNat ∧ (s 768).writable (s 768).snap.dstAddr.toNat 768)
      ∧ (s 767).snap.dstLen.toNat < 768 := by
  unfold State.writable; decide +kernel

theorem witness_SprHeaderReportsTheHeader :
    let s := fun n => run (streams n 0) (source [0x03, 0x80, 0x02, 0x10])
    (4 ≤ (s 4).snap.srcLen.toNat ∧ (s 4).readable (s 4).snap.srcAddr.toNat 4)
      ∧ (s 3).snap.srcLen.toNat < 4 ∧ (s 3).readable (s 3).snap.srcAddr.toNat (s 3).snap.srcLen.toNat := by
  unfold State.readable; decide +kernel

/-- A surface that ends with memory, and one byte more (V-SURF-5 has two more). -/
theorem witness_SurfClearFillsTheSurface :
    let s := fun d => run { Params.zero with surfBase := 0xFFFA, surfDim := d, clearVal := 7 } []
    (s 0x00020003).writable (s 0x00020003).snap.surfBase.toNat
        ((s 0x00020003).snap.surfW * (s 0x00020003).snap.surfH)
      ∧ (s 0x00010007).plat.memSize
          < (s 0x00010007).snap.surfBase.toNat + (s 0x00010007).snap.surfW * (s 0x00010007).snap.surfH
      ∧ 0 < (s 0x00010007).snap.surfW * (s 0x00010007).snap.surfH := by
  unfold State.writable; decide +kernel

theorem witness_ImapClearFillsTheIndexMap :
    let s := run { Params.zero with imapBase := 0xFFFA, surfDim := 0x00020003 } []
    s.writable s.snap.imapBase.toNat (s.snap.surfW * s.snap.surfH) := by
  unfold State.writable; decide +kernel

/-- V-RLE-10, V-BLIT-20 and V-BLIT-19. -/
theorem witness_BlitChecksItsSizeFirst :
    let s := run { Params.zero with blitSize := 0x00010000 } []
    let t := run { blit8 with srcLen := 3, dstLen := 3 } []
    (s.snap.blitW = 0 ∨ s.snap.blitH = 0) ∧ t.snap.dstLen.toNat < t.snap.blitH * t.snap.pitch ∧ t.snap.blitW ≠ 0 ∧ t.snap.blitH ≠ 0
      ∧ ¬ (t.snap.bpp8 = true ∧ t.snap.scale ≠ 0) ∧ t.snap.rle = false
      ∧ t.snap.srcLen.toNat < t.snap.blitH * t.snap.pitch := by decide +kernel

/-- V-RLE-1: one row of a literal run and a repeat run. -/
theorem witness_RleDecodeInvertsItsRuns :
    let s := run { streams 6 6 with blitSize := 0x00010006, blitCfg := 0xFE00 }
      (source [2, 0xAA, 0xBB, 0xCC, 0xFE, 0x11])
    let row : List Run := [.plain [0xAA, 0xBB, 0xCC], .same 3 0x11]
    let stream := ([row].flatten).flatMap Run.coded
    let out := ([row].flatten).flatMap Run.plainBytes
    s.snap.blitW ≠ 0 ∧ s.snap.blitH ≠ 0 ∧ [row].length = s.snap.blitH
      ∧ (row.flatMap Run.plainBytes).length = s.snap.pitch ∧ (∀ r ∈ row, r.ok) ∧ s.holds s.snap.srcAddr.toNat stream
      ∧ stream.length ≤ s.snap.srcLen.toNat ∧ out.length ≤ s.snap.dstLen.toNat
      ∧ s.readable s.snap.srcAddr.toNat stream.length ∧ s.writable s.snap.dstAddr.toNat out.length
      ∧ apart s.snap.srcAddr.toNat stream.length s.snap.dstAddr.toNat out.length := by
  refine ⟨by decide, by decide, by decide, by decide +kernel, ?_, holds_of_bytes (by decide +kernel), by decide +kernel,
    by decide +kernel, by unfold State.readable; decide +kernel, by unfold State.writable; decide +kernel,
    by unfold apart; decide +kernel⟩
  simp [Run.ok]

/-- Pitch 4: a repeat run of 5 and a literal run of 5. -/
theorem witness_RleOverrunWritesNothing :
    let x := fun c => if c then (252 : Byte) else 4
    let s := fun c => run { streams 1 4 with blitSize := 0x00010004, blitCfg := 0xFE00 } (source [x c])
    ∀ c : Bool,
      (s c).snap.blitW ≠ 0 ∧ (s c).snap.blitH ≠ 0 ∧ (s c).snap.blitH * (s c).snap.pitch ≤ (s c).snap.dstLen.toNat
        ∧ 1 ≤ (s c).snap.srcLen.toNat ∧ (s c).readable (s c).snap.srcAddr.toNat 1
        ∧ (s c).byte (s c).snap.srcAddr.toNat = x c
        ∧ (s c).snap.pitch < if 128 ≤ (x c).toNat then 257 - (x c).toNat else (x c).toNat + 1 := by
  unfold State.readable; decide +kernel

/-- V-BLIT-15. -/
theorem witness_ScaledEightBppDrawsNothing :
    let s := run { blit8 with blitCfg := 0xFE09 } []
    s.snap.blitW ≠ 0 ∧ s.snap.blitH ≠ 0 ∧ s.snap.bpp8 = true ∧ s.snap.scale ≠ 0 := by decide +kernel

/-- V-BLIT-8. -/
theorem witness_BlitDrawsItsImage :
    let s := run blit8 (source [0x21, 0x03, 0x40, 0x05])
    let p := s.snap
    p.blitW ≠ 0 ∧ p.blitH ≠ 0 ∧ ¬ (p.bpp8 = true ∧ p.scale ≠ 0) ∧ p.rle = false
      ∧ p.blitH * p.pitch ≤ p.srcLen.toNat ∧ s.readable p.srcAddr.toNat (p.blitH * p.pitch)
      ∧ s.writable p.surfBase.toNat (p.surfW * p.surfH)
      ∧ apart p.srcAddr.toNat (p.blitH * p.pitch) p.surfBase.toNat (p.surfW * p.surfH)
      ∧ p.imapEn = true ∧ s.writable p.imapBase.toNat (p.surfW * p.surfH)
      ∧ apart p.srcAddr.toNat (p.blitH * p.pitch) p.imapBase.toNat (p.surfW * p.surfH)
      ∧ apart p.surfBase.toNat (p.surfW * p.surfH) p.imapBase.toNat (p.surfW * p.surfH) := by
  unfold State.readable State.writable apart; decide +kernel

/-- V-BLIT-17. -/
theorem witness_RleErrorLeavesTheSurface :
    let s := run { blit8 with blitCfg := 0x1001, scratchAddr := 0x1800 } (source [0x01, 0x21, 0x03, 0xFF])
    let t := get (exec .blit s)
    s.snap.rle = true ∧ s.status.err = false ∧ exec .blit s = .next t ∧ t.status.err = true ∧ t.status.errcode ≠ 0x04 :=
  ⟨by decide +kernel, rfl, rfl, by decide +kernel, by decide +kernel⟩

/-- The parameters and the running command of V-BLIT-16. -/
def blit16 : Running where
  cmd := 0x24
  snap := { blit8 with srcLen := 5, blitCfg := 0x1001, scratchAddr := 0x1800 }
  heldInfo := 0
  latency := 0
  foot := { reads := [], writes := [] }
  contested := []

/-- V-BLIT-16's state, with another snapshot. -/
def blit16State (p : Params) : State :=
  { idle Params.zero (source [0x01, 0x21, 0x03, 0xFF, 0x40]) with phase := .running { blit16 with snap := p } }

/-- The state V-BLIT-16's pre-pass leaves. -/
def blit16Decoded : State :=
  (blit16State { blit16.snap with dstAddr := blit16.snap.scratchAddr, dstLen := 4 }).runCmd bodyRleDecode

theorem witness_RleBlitIsDecodeThenBlit :
    (blit16State blit16.snap).phase = .running blit16 ∧ blit16.snap.rle = true
      ∧ (blit16State blit16.snap).status.err = false ∧ blit16.contested = []
      ∧ blit16.snap.blitH * blit16.snap.pitch = 4 ∧ ¬ (blit16.snap.bpp8 = true ∧ blit16.snap.scale ≠ 0)
      ∧ exec .rleDecode (blit16State { blit16.snap with dstAddr := blit16.snap.scratchAddr, dstLen := 4 })
          = .next blit16Decoded
      ∧ blit16Decoded.status.err = false :=
  ⟨rfl, by decide +kernel, rfl, rfl, by decide +kernel, by decide +kernel, rfl, by decide +kernel⟩

/-- The first and last index of each range of R252. -/
theorem witness_TiltReadReturnsTheRom :
    ([0, 97, 98, 196, 197, 294, 295, 391].all fun i => (run { Params.zero with tiltIndex := i } []).snap.tiltIdx ≤ 391)
      = true ∧ 391 < (run { Params.zero with tiltIndex := 392 } []).snap.tiltIdx := by decide +kernel

theorem witness_RotWriteLoadsOneEntry :
    (run { Params.zero with rotIndex := 98 } []).snap.rotIdx ≤ 98
      ∧ 98 < (run { Params.zero with rotIndex := 99 } []).snap.rotIdx := by decide +kernel

theorem witness_RotReadReturnsTheEntry :
    (run { Params.zero with rotIndex := 98 } []).snap.rotIdx ≤ 98
      ∧ 98 < (run { Params.zero with rotIndex := 99 } []).snap.rotIdx := by decide +kernel

/-- V-GLB-8, and an elevation resource of no bytes. -/
theorem witness_GlobeDrawOfAnEmptyList :
    let s := globe1 [0]
    let a := s.snap.globeElevAddr.toNat + s.plat.collistOff
    (s.plat.collistOff < s.snap.globeElevLen.toNat ∧ s.readable a 1 ∧ s.byte a = 0)
      ∧ (globe1 []).snap.globeElevLen.toNat ≤ (globe1 []).plat.collistOff := by
  unfold State.readable; decide +kernel

theorem witness_GlobeDrawReadsTheClampedTilt : (busy (clearing 0 []) []).phase = .running (clearing 0 []) := rfl

/-- The hypotheses on the regions that a globe draw over the list at 0x1000 has. -/
def globeRegions (s : State) (list : List Byte) : Prop :=
  let p := s.snap
  s.plat.collistOff + list.length ≤ p.globeElevLen.toNat
    ∧ (∀ k, k < list.length → s.byte (p.globeElevAddr.toNat + s.plat.collistOff + k) = list.getD k 0)
    ∧ s.readable p.globeElevAddr.toNat p.globeElevLen.toNat ∧ s.readable p.globeMapAddr.toNat p.globeMapLen.toNat
    ∧ s.writable p.surfBase.toNat (p.surfW * p.surfH)
    ∧ apart p.globeElevAddr.toNat p.globeElevLen.toNat p.surfBase.toNat (p.surfW * p.surfH)
    ∧ apart p.globeMapAddr.toNat p.globeMapLen.toNat p.surfBase.toNat (p.surfW * p.surfH)

/-- V-GLB-1, which ends well, and the same list with elevation -128 at tilt -96, which ends at the tilt range (R260). -/
theorem witness_GlobeDrawDrawsItsColumnList :
    let s := globe1 (columnList [[0]] .stop ++ [0, 0])
    let t := { globe1 (columnList [[0x80]] .stop ++ [0, 0]) with
      phase := .running { blit16 with snap := { globeParams 5 with globeTilt := 0xFFA0 } } }
    (globeRegions s (columnList [[0]] .stop)
      ∧ (drawPixels s.snap (drawnPixels globe3 s (phasedRot s) [[0]] .stop) s.byte).2 = none)
      ∧ globeRegions t (columnList [[0x80]] .stop)
      ∧ (drawPixels t.snap (drawnPixels globe3 t (phasedRot t) [[0x80]] .stop) t.byte).2 = some (0x0C, -28) := by
  unfold globeRegions State.readable State.writable apart; decide +kernel

/-- A list that the resource ends between two runs, and one it ends inside a run. -/
theorem witness_GlobeDrawDrawsItsColumnList_cut :
    let s := globe1 (columnList [[0, 0, 0, 0]] .missing)
    let t := globe1 (columnList [] (.partway 9 [0, 0, 0, 0]))
    (globeRegions s (columnList [[0, 0, 0, 0]] .missing) ∧ s.snap.globeElevLen.toNat = 5)
      ∧ (globeRegions t (columnList [] (.partway 9 [0, 0, 0, 0])) ∧ t.snap.globeElevLen.toNat = 5)
      ∧ (drawPixels t.snap (drawnPixels globe3 t (phasedRot t) [] (.partway 9 [0, 0, 0, 0])) t.byte).2 = some (0x02, 5) := by
  unfold globeRegions State.readable State.writable apart; decide +kernel

end Sys2Proof.Tests
end

section
/-! PROOFS. One step of the machine: whose turn it is, what the host's access of that turn does, and the statements of
the scope family. -/

namespace Sys2Proof.Proofs

open Sys2Proof.Machine Sys2Proof.Claims

/-! ### Whose turn a step is (log 2) -/

/-- On a host turn the step is the next access, made in the state `onHostTurn` names. -/
theorem step_eq_input {s : State} {i : Input} {rest : List Input} (ht : hostsTurn s) (hin : s.inbox = i :: rest) :
    step s = (onHostTurn s rest).input i := by
  unfold hostsTurn at ht
  unfold step State.turn State.hostTurn onHostTurn
  cases hp : s.phase with
  | idle => simp [hin]
  | running r =>
    obtain ⟨n, hn⟩ := Nat.exists_eq_succ_of_ne_zero (Nat.pos_iff_ne_zero.1 (by simpa [hp] using ht))
    simp [hin, hn]

/-- With the engine IDLE and no access left, nothing happens (R346). -/
theorem step_eq_self {s : State} (hp : s.phase = .idle) (hin : s.inbox = []) : step s = .next s := by
  simp [step, State.turn, State.hostTurn, hp, hin]

/-- While a command runs, it is the engine's turn when the latency is spent or the host has no access left. -/
theorem step_eq_engineTurn {s : State} {r : Running} (hp : s.phase = .running r) (h : r.latency = 0 ∨ s.inbox = []) :
    step s = s.engineTurn r := by
  unfold step State.turn
  rw [hp]
  rcases h with h | h
  · simp [h]
  · cases hl : r.latency <;> simp [h, hl]

/-- Everything a step can be: the host's access, nothing, or the engine's transition. -/
theorem step_cases (s : State) :
    (∃ i rest, hostsTurn s ∧ s.inbox = i :: rest ∧ step s = (onHostTurn s rest).input i) ∨
    (s.phase = .idle ∧ s.inbox = [] ∧ step s = .next s) ∨
    (∃ r, s.phase = .running r ∧ (r.latency = 0 ∨ s.inbox = []) ∧ step s = s.engineTurn r) := by
  cases hp : s.phase with
  | idle =>
    cases hin : s.inbox with
    | nil => exact .inr (.inl ⟨rfl, rfl, step_eq_self hp hin⟩)
    | cons i rest =>
      have ht : hostsTurn s := by simp [hostsTurn, hp]
      exact .inl ⟨i, rest, ht, rfl, step_eq_input ht hin⟩
  | running r =>
    by_cases h : r.latency = 0 ∨ s.inbox = []
    · exact .inr (.inr ⟨r, rfl, h, step_eq_engineTurn hp h⟩)
    · obtain ⟨hl, hne⟩ := not_or.1 h
      obtain ⟨i, rest, hin⟩ := List.exists_cons_of_ne_nil hne
      have ht : hostsTurn s := by simpa [hostsTurn, hp] using Nat.pos_of_ne_zero hl
      exact .inl ⟨i, rest, ht, hin, step_eq_input ht hin⟩

/-! ### The engine's transition always goes on (R330, R334) -/

/-- Settling an outcome that goes on settles its state; with no contested byte it changes nothing. -/
theorem settled_next (as : List Nat) (t : State) : settled as (.next t) = .next (State.settle as t) := by
  cases as <;> rfl

/-- Whatever the command word, the engine's transition has a next state: errors end a command, not the machine. -/
theorem engineTurn_next (s : State) (r : Running) : ∃ t, s.engineTurn r = .next t := by
  unfold State.engineTurn
  cases decodeWord r.cmd with
  | ok i =>
    show ∃ t, settled r.contested (exec i s) = .next t
    rw [exec_eq_body, settled_next]
    exact ⟨_, rfl⟩
  | error _ => exact ⟨_, settled_next _ _⟩

/-! ### When a host access faults (R80, log 15) -/

/-- No access is refused, and one faults only where it names a byte that does not exist. -/
theorem input_cases (s : State) (i : Input) :
    (∃ t, s.input i = .next t) ∨
    (∃ a, s.plat.memSize ≤ a ∧ s.input i = .fault (.noSuchMemory a) ∧ (i = .memRead a ∨ ∃ x, i = .memWrite a x)) := by
  cases i with
  | read addr width => exact .inl ⟨_, rfl⟩
  | write addr width v => exact .inl ⟨_, rfl⟩
  | powerOn => exact .inl ⟨_, rfl⟩
  | wait =>
    simp only [State.input]
    split <;> exact .inl ⟨_, rfl⟩
  | memRead a =>
    simp only [State.input]
    split
    next => exact .inl ⟨_, rfl⟩
    next h => exact .inr ⟨a, Nat.le_of_not_lt h, rfl, .inl rfl⟩
  | memWrite a x =>
    simp only [State.input]
    split
    next => exact .inl ⟨_, rfl⟩
    next h => exact .inr ⟨a, Nat.le_of_not_lt h, rfl, .inr ⟨x, rfl⟩⟩

/-- A step goes on, or it is a host access to a byte that does not exist: only a host turn can fail to go on. -/
theorem step_next_or_fault (s : State) :
    (∃ t, step s = .next t) ∨
    (∃ a i rest, s.inbox = i :: rest ∧ s.plat.memSize ≤ a ∧ step s = .fault (.noSuchMemory a)
      ∧ (i = .memRead a ∨ ∃ x, i = .memWrite a x)) := by
  rcases step_cases s with ⟨i, rest, -, hin, hs⟩ | ⟨-, -, hs⟩ | ⟨r, -, -, hs⟩
  · rw [hs]
    exact (input_cases (onHostTurn s rest) i).imp id fun ⟨a, ha, hf, hi⟩ => ⟨a, i, rest, hin, ha, hf, hi⟩
  · exact .inl ⟨s, hs⟩
  · rw [hs]
    exact .inl (engineTurn_next s r)

/-- Settles O13: the two ends of `step_next_or_fault` are the only ones. -/
theorem stepFaultsOnlyOnMissingHostBytes : Obligations.StepFaultsOnlyOnMissingHostBytes := by
  intro s
  rcases step_next_or_fault s with ⟨t, ht⟩ | ⟨a, i, rest, hin, ha, hf, hi⟩
  · simp [ht]
  · rw [hf]
    refine ⟨by simp, fun f h => ⟨a, i, rest, hin, ha, ?_, hi⟩⟩
    injection h with h
    exact h.symm

/-! ### Host accesses to system memory (R86) -/

/-- R86, spelled out: which accesses the running command does not forbid. -/
theorem forbids_eq_false (r : Running) (a : Nat) (isWrite : Bool) :
    r.forbids a isWrite = false ↔
      a ∉ r.contested ∧ inRegions r.foot.writes a = false ∧ (isWrite = true → inRegions r.foot.reads a = false) := by
  simp [Running.forbids, and_assoc]

/-- A host write that no running command forbids is a plain memory write. -/
theorem hostWrite_eq_write {s : State} {a : Nat} (x : Byte)
    (h : ∀ r, s.phase = .running r → r.forbids a true = false) :
    s.hostWrite a x = { s with mem := s.mem.write a x } := by
  unfold State.hostWrite State.current
  cases hp : s.phase with
  | idle => rfl
  | running r => simp [h r hp]

/-- A host read that no running command forbids returns the byte and changes nothing else. -/
theorem hostRead_eq_read {s : State} {a : Nat} (h : ∀ r, s.phase = .running r → r.forbids a false = false) :
    s.hostRead a = { s with busData := (s.byte a).setWidth 32 } := by
  unfold State.hostRead State.current
  cases hp : s.phase with
  | idle => rfl
  | running r => simp [h r hp]

/-- A host turn takes one from the latency, so the command forbids the same accesses in it as before. -/
theorem onHostTurn_not_forbids {s : State} {rest : List Input} {a : Nat} {isWrite : Bool}
    (h : ∀ r, s.phase = .running r → r.forbids a isWrite = false) :
    ∀ r, (onHostTurn s rest).phase = .running r → r.forbids a isWrite = false := by
  intro r hr
  cases hp : s.phase with
  | idle => simp [onHostTurn, hp] at hr
  | running r' =>
    have hr' : { r' with latency := r'.latency - 1 } = r := by simpa [onHostTurn, hp] using hr
    rw [← hr']
    exact h r' hp

/-- Settles O27: an access that R86 allows is the plain read or write of the byte. -/
theorem hostByteAccessesLand : Obligations.HostByteAccessesLand := by
  intro s a rest ha ht
  refine ⟨fun x hin hfree => ?_, fun hin hfree => ?_⟩
  · have hallowed : ∀ r, s.phase = .running r → r.forbids a true = false := fun r hr => by
      obtain ⟨hc, hreads, hwrites⟩ := hfree r hr
      exact (forbids_eq_false r a true).2 ⟨hc, hwrites, fun _ => hreads⟩
    have hstep : step s = .next { onHostTurn s rest with mem := s.mem.write a x } := by
      rw [step_eq_input ht hin]
      calc (onHostTurn s rest).input (.memWrite a x)
          = .next ((onHostTurn s rest).hostWrite a x) := if_pos ha
        _ = _ := by rw [hostWrite_eq_write x (onHostTurn_not_forbids hallowed)]; rfl
    exact ⟨_, hstep, rfl, Memory.read_write_same s.mem a x, fun b hb => Memory.read_write_other s.mem x hb⟩
  · have hallowed : ∀ r, s.phase = .running r → r.forbids a false = false := fun r hr => by
      obtain ⟨hc, hwrites⟩ := hfree r hr
      exact (forbids_eq_false r a false).2 ⟨hc, hwrites, by simp⟩
    rw [step_eq_input ht hin]
    calc (onHostTurn s rest).input (.memRead a)
        = .next ((onHostTurn s rest).hostRead a) := if_pos ha
      _ = _ := by rw [hostRead_eq_read (onHostTurn_not_forbids hallowed)]; rfl

/-! ### Host accesses to the register window (R32, R33) -/

/-- An aligned 32-bit access inside the window reaches the register its offset maps to. -/
theorem target_of_aligned (s : State) {off : Nat} (hlt : off < 256) (hal : off % 4 = 0) :
    s.target (s.plat.regBase + off) 4 = regAt off := by
  simp [State.target, hlt, hal]

/-- R33: a host read at offset 0x00C reads STATUS. -/
theorem busRead_status (s : State) : s.busRead (s.plat.regBase + 0x00C) 4 = s.statusWord := by
  rw [State.busRead, target_of_aligned s (by decide) (by decide)]
  rfl

/-- R42: taking a host turn does not end the running command. -/
theorem onHostTurn_busy (s : State) (rest : List Input) : (onHostTurn s rest).busy = s.busy := by
  unfold State.busy onHostTurn
  cases s.phase <;> rfl

/-- R86: ERR_INFO reads the same on a host turn. -/
theorem onHostTurn_errInfoRead (s : State) (rest : List Input) : (onHostTurn s rest).errInfoRead = s.errInfoRead := by
  unfold State.errInfoRead onHostTurn
  cases s.phase <;> rfl

/-- STATUS reads the same on a host turn. -/
theorem onHostTurn_statusWord (s : State) (rest : List Input) : (onHostTurn s rest).statusWord = s.statusWord := by
  simp only [State.statusWord, onHostTurn_busy]
  rfl

/-- Every register reads the same on a host turn: no register shows the latency or the accesses left. -/
theorem onHostTurn_readReg (s : State) (rest : List Input) (r : Reg) : (onHostTurn s rest).readReg r = s.readReg r := by
  cases r with
  | status => exact onHostTurn_statusWord s rest
  | errInfo => exact onHostTurn_errInfoRead s rest
  | id | ctrl | cmd | irqEn | result0 | result1 | param p => rfl

/-- Every bus read returns the same on a host turn. -/
theorem onHostTurn_busRead (s : State) (rest : List Input) (addr width : Nat) :
    (onHostTurn s rest).busRead addr width = s.busRead addr width := by
  have htarget : (onHostTurn s rest).target addr width = s.target addr width := rfl
  simp only [State.busRead, htarget, onHostTurn_readReg]

/-- R124: a `wait` reads STATUS, and stays in front of the accesses left while BUSY is 1. -/
theorem onHostTurn_input_wait (s : State) (rest : List Input) :
    (onHostTurn s rest).input .wait =
      .next { onHostTurn s (if s.busy = true then .wait :: rest else rest) with busData := s.statusWord } := by
  simp only [State.input, onHostTurn_busy, onHostTurn_statusWord]
  split <;> rfl

/-- Settles O28: the step is the access at the front, and a read sees the registers as they stood before the turn. -/
theorem stepMakesTheHostsRegisterAccess : Obligations.StepMakesTheHostsRegisterAccess := by
  intro s rest ht
  refine ⟨fun a width v hin => ?write, fun a width hin => ?read, fun hin => ?wait, fun hin => ?powerOn⟩
  case write => exact step_eq_input ht hin
  case read => rw [step_eq_input ht hin, State.input, onHostTurn_busRead]
  case wait => rw [step_eq_input ht hin, onHostTurn_input_wait, busRead_status]
  case powerOn => exact step_eq_input ht hin

end Sys2Proof.Proofs
end

section
/-! PROOFS. The register window, register by register: what a host read and a host write at a register's offset do, and
the statements of the state family about them. -/

namespace Sys2Proof.Proofs

open Sys2Proof.Machine Sys2Proof.Claims

/-! ### The register map (R33) -/

/-- The map finds every register at its offset. -/
theorem regAt_offset (r : Reg) : regAt r.offset = some r := by
  cases r with
  | param p => cases p <;> rfl
  | id | ctrl | cmd | status | irqEn | errInfo | result0 | result1 => rfl

/-- The map finds nothing but the register whose offset it is given. -/
theorem offset_of_regAt {off : Nat} {r : Reg} (h : regAt off = some r) : off = r.offset := by
  unfold regAt at h
  split at h <;> cases h <;> rfl

/-- Every register stands at a word offset below 0x0A8 that is none of the three gaps of R33. -/
theorem Reg.offset_range (r : Reg) :
    r.offset < 0x0A8 ∧ r.offset % 4 = 0 ∧ r.offset ≠ 0x05C ∧ r.offset ≠ 0x078 ∧ r.offset ≠ 0x07C := by
  cases r with
  | param p => cases p <;> decide
  | id | ctrl | cmd | status | irqEn | errInfo | result0 | result1 => decide

/-- A 32-bit access at a register's offset reaches that register. -/
theorem target_offset (s : State) (r : Reg) : s.target (s.plat.regBase + r.offset) 4 = some r := by
  obtain ⟨hlt, hal, -⟩ := Reg.offset_range r
  rw [target_of_aligned s (by omega) hal, regAt_offset]

/-- R32 (a) to (c): accesses inside the window that reach no register. -/
theorem target_eq_none (s : State) {off width : Nat}
    (h : width ≠ 4 ∨ off % 4 ≠ 0 ∨ off = 0x05C ∨ off = 0x078 ∨ off = 0x07C ∨ 0x0A8 ≤ off) :
    s.target (s.plat.regBase + off) width = none := by
  unfold State.target
  split
  next hreach =>
    rw [Nat.add_sub_cancel_left] at hreach ⊢
    cases hr : regAt off with
    | none => rfl
    | some r =>
      have hoff := offset_of_regAt hr
      have hrange := Reg.offset_range r
      omega
  next => rfl

/-- A host read at a register's offset returns what the register reads as. -/
theorem busRead_offset (s : State) (r : Reg) : s.busRead (s.plat.regBase + r.offset) 4 = s.readReg r := by
  rw [State.busRead, target_offset]

/-- A host write at a register's offset is the write of that register. -/
theorem busWrite_offset (s : State) (r : Reg) (v : Word) :
    s.busWrite (s.plat.regBase + r.offset) 4 v = s.writeReg r v := by
  rw [State.busWrite, target_offset]

/-! ### Registers that read a constant or ignore writes -/

/-- Settles O14: nothing is mapped at the offsets of the first clause, and the registers of the others ignore the
write. -/
theorem accessesWithoutEffect : Obligations.AccessesWithoutEffect := by
  intro s v
  refine ⟨fun off width _ hmiss => ?unmapped, busWrite_offset s .errInfo v, busWrite_offset s .result0 v,
    busWrite_offset s .result1 v, busRead_offset s .ctrl, fun hclear => ?ctrl⟩
  case unmapped => simp [State.busRead, State.busWrite, target_eq_none s hmiss]
  case ctrl =>
    have hbit : bitSet v 0 = false := hclear
    calc s.busWrite (s.plat.regBase + Reg.ctrl.offset) 4 v
        = s.writeReg .ctrl v := busWrite_offset s .ctrl v
      _ = s := by simp [State.writeReg, hbit]

/-- Settles O15: `readReg` answers the constant and `writeReg` the state itself. -/
theorem idIsConstant : Obligations.IdIsConstant :=
  fun s v => ⟨busRead_offset s .id, busWrite_offset s .id v⟩

/-! ### Parameter registers -/

/-- A parameter register read after the write of one. -/
theorem Params.get_set (p : Params) (r q : ParamReg) (v : Word) :
    (p.set r v).get q = if q = r then v else p.get q := by
  cases r <;> cases q <;> rfl

/-- R37: a running command's snapshot does not depend on the parameter registers. -/
theorem snap_of_busy {s : State} (h : s.busy = true) (ps : Params) : { s with params := ps }.snap = s.snap := by
  unfold State.busy at h
  unfold State.snap
  cases hp : s.phase with
  | idle => simp [hp] at h
  | running r => rfl

/-- A write of a parameter register leaves what every other register reads as. -/
theorem readReg_set_other (s : State) {p q : ParamReg} (v : Word) (h : q ≠ p) :
    { s with params := s.params.set p v }.readReg (.param q) = s.readReg (.param q) := by
  show (s.params.set p v).get q = s.params.get q
  rw [Params.get_set, if_neg h]

/-- Settles O16: the write sets one parameter register, which a running command's snapshot does not see. -/
theorem parameterWriteReadsBack : Obligations.ParameterWriteReadsBack := by
  intro s p v t
  have ht : t = { s with params := s.params.set p (v &&& p.mask) } := busWrite_offset s (.param p) v
  rw [ht]
  refine ⟨?_, fun q hq => ?_, rfl, fun hbusy => snap_of_busy hbusy _⟩
  · calc State.busRead { s with params := s.params.set p (v &&& p.mask) } (s.plat.regBase + p.offset) 4
        = (s.params.set p (v &&& p.mask)).get p := busRead_offset { s with params := _ } (.param p)
      _ = v &&& p.mask := by rw [Params.get_set, if_pos rfl]
  · calc State.busRead { s with params := s.params.set p (v &&& p.mask) } (s.plat.regBase + q.offset) 4
        = State.readReg { s with params := s.params.set p (v &&& p.mask) } (.param q) :=
          busRead_offset { s with params := _ } (.param q)
      _ = s.readReg (.param q) := readReg_set_other s _ hq
      _ = s.busRead (s.plat.regBase + q.offset) 4 := (busRead_offset s (.param q)).symm

/-! ### CMD (R34) -/

/-- R34, R113: what a write to CMD does while the engine is IDLE. -/
theorem writeCmd_of_idle {s : State} (hp : s.phase = .idle) (v : Word) :
    s.writeCmd v = { s.begin v (s.latencyOf v) with draws := s.draws + 1 } := by
  simp [State.writeCmd, hp]

/-- R34: a write to CMD while a command runs only sets OVR. -/
theorem writeCmd_of_busy {s : State} (hb : s.busy = true) (v : Word) :
    s.writeCmd v = { s with status := { s.status with ovr := true } } := by
  unfold State.busy at hb
  unfold State.writeCmd
  cases hp : s.phase with
  | idle => simp [hp] at hb
  | running r => rfl

/-- Settles O6: the two cases of a CMD write, read back through the window. -/
theorem cmdWriteStartsOrIsDropped : Obligations.CmdWriteStartsOrIsDropped := by
  intro s v t
  have ht : t = s.writeCmd v := busWrite_offset s .cmd v
  refine ⟨fun hidle => ?idle, fun hbusy => ?busy⟩
  case idle =>
    rw [ht, writeCmd_of_idle hidle]
    exact ⟨⟨_, rfl, rfl, rfl⟩, rfl, busRead_offset _ .cmd, busRead_offset _ .errInfo⟩
  case busy =>
    rw [ht, writeCmd_of_busy hbusy]
    exact ⟨rfl, busRead_offset _ .cmd⟩

/-! ### STATUS, IRQ_EN and the interrupt line (R33, R44) -/

/-- Each field of STATUS stays within its bits. -/
theorem status_fields_le (s : State) :
    s.busy.toNat ≤ 1 ∧ s.status.done.toNat ≤ 1 ∧ s.status.err.toNat ≤ 1 ∧ s.status.ovr.toNat ≤ 1
      ∧ s.status.compressed.toNat ≤ 1 ∧ s.status.valid.toNat ≤ 1 ∧ s.status.errcode.toNat < 256 :=
  ⟨Bool.toNat_le _, Bool.toNat_le _, Bool.toNat_le _, Bool.toNat_le _, Bool.toNat_le _, Bool.toNat_le _,
    BitVec.isLt _⟩

/-- The value of STATUS as a sum of its fields; nothing is cut off. -/
theorem statusWord_toNat (s : State) :
    s.statusWord.toNat = s.busy.toNat + 2 * s.status.done.toNat + 4 * s.status.err.toNat + 8 * s.status.ovr.toNat
      + 16 * s.status.compressed.toNat + 32 * s.status.valid.toNat + 256 * s.status.errcode.toNat := by
  have hfields := status_fields_le s
  simp only [State.statusWord, word, BitVec.toNat_ofNat, Nat.shiftLeft_eq]
  omega

/-- The value of IRQ_EN as a sum of its fields. -/
theorem irqEnWord_toNat (s : State) : s.irqEnWord.toNat = s.doneIe.toNat + 2 * s.errIe.toNat := by
  have h0 := s.doneIe.toNat_le
  have h1 := s.errIe.toNat_le
  simp only [State.irqEnWord, word, BitVec.toNat_ofNat, Nat.shiftLeft_eq]
  omega

/-- A field of a word, by division. -/
theorem extractLsb'_of_div {n : Nat} {w : Word} {x : BitVec n} (lo : Nat) (h : w.toNat / 2 ^ lo % 2 ^ n = x.toNat) :
    w.extractLsb' lo n = x := by
  apply BitVec.eq_of_toNat_eq
  rw [BitVec.extractLsb'_toNat, Nat.shiftRight_eq_div_pow, h]

/-- A bit of a word, by division. -/
theorem getLsbD_of_div {w : Word} {b : Bool} (i : Nat) (h : w.toNat / 2 ^ i % 2 = b.toNat) : w.getLsbD i = b := by
  rw [BitVec.getLsbD, Nat.testBit_eq_decide_div_mod_eq, h]
  cases b <;> rfl

/-- Settles O18: each field of STATUS by dividing the sum of `statusWord_toNat`. -/
theorem statusReadsItsFlags : Obligations.StatusReadsItsFlags := by
  intro s w
  have hw : w = s.statusWord := busRead_status s
  have hsum := statusWord_toNat s
  have hfields := status_fields_le s
  rw [hw]
  refine ⟨getLsbD_of_div 0 (by omega), getLsbD_of_div 1 (by omega), getLsbD_of_div 2 (by omega),
    getLsbD_of_div 3 (by omega), getLsbD_of_div 4 (by omega), getLsbD_of_div 5 (by omega),
    extractLsb'_of_div 6 ?_, extractLsb'_of_div 8 (by omega), extractLsb'_of_div 16 ?_⟩
  · show s.statusWord.toNat / 2 ^ 6 % 2 ^ 2 = 0
    omega
  · show s.statusWord.toNat / 2 ^ 16 % 2 ^ 16 = 0
    omega

/-- The bits of IRQ_EN as the host reads it. -/
theorem irqEnWord_bits (s : State) : s.irqEnWord.getLsbD 0 = s.doneIe ∧ s.irqEnWord.getLsbD 1 = s.errIe := by
  have hsum := irqEnWord_toNat s
  have h0 := s.doneIe.toNat_le
  have h1 := s.errIe.toNat_le
  exact ⟨getLsbD_of_div 0 (by omega), getLsbD_of_div 1 (by omega)⟩

/-- Settles O19: the line is R44's formula over the fields those bits show. -/
theorem interruptLineFollowsStatusAndEnables : Obligations.InterruptLineFollowsStatusAndEnables := by
  refine ⟨?_, rfl⟩
  intro s st en
  obtain ⟨-, hdone, herr, -⟩ := statusReadsItsFlags s
  have hen : en = s.irqEnWord := busRead_offset s .irqEn
  obtain ⟨hdoneIe, herrIe⟩ := irqEnWord_bits s
  rw [hdone, herr, hen, hdoneIe, herrIe]
  rfl

/-- R32 (d): IRQ_EN holds the two low bits of the word last written to it. -/
theorem irqEnWord_of_bits (s : State) (v : Word) :
    { s with doneIe := bitSet v 0, errIe := bitSet v 1 }.irqEnWord = v &&& 0x3 := by
  apply BitVec.eq_of_toNat_eq
  rw [irqEnWord_toNat, BitVec.toNat_and]
  have hmask : v.toNat &&& (0x3 : Word).toNat = v.toNat % 4 := Nat.and_two_pow_sub_one_eq_mod v.toNat 2
  simp only [bitSet, Nat.toNat_testBit, hmask]
  omega

/-- Settles O17: both writes are the update the model names, and IRQ_EN reads it back. -/
theorem statusAndIrqEnableWrites : Obligations.StatusAndIrqEnableWrites := by
  intro s v t u
  have ht : t = { s with status := s.status.acknowledge v } := busWrite_offset s .status v
  have hu : u = { s with doneIe := bitSet v 0, errIe := bitSet v 1 } := busWrite_offset s .irqEn v
  rw [ht, hu]
  refine ⟨⟨rfl, rfl, rfl, rfl, rfl, rfl, rfl⟩, ?_, rfl⟩
  exact (busRead_offset { s with doneIe := bitSet v 0, errIe := bitSet v 1 } .irqEn).trans (irqEnWord_of_bits s v)

end Sys2Proof.Proofs
end

section
/-! PROOFS. How a command ends: what it stages, which internal RAMs it changes, and the statements of the state family
about them. -/

namespace Sys2Proof.Proofs

open Sys2Proof.Machine Sys2Proof.Claims

variable {α β : Type}

/-- `exec_ends` for a known next state. -/
theorem exec_next_cases {i : Instr} {s t : State} (h : exec i s = .next t) :
    (∃ g w, body i s.view (s.work none) = .ok g w ∧ t = (s.land w).commitDone g) ∨
    (∃ e n w, body i s.view (s.work none) = .error (.raised e n) w ∧ t = (s.land w).raiseError e n) := by
  rcases exec_ends i s with ⟨g, w, hb, he⟩ | ⟨e, n, w, hb, he⟩ <;> rw [he] at h <;> cases h
  · exact .inl ⟨g, w, hb, rfl⟩
  · exact .inr ⟨e, n, w, hb, rfl⟩

/-- R331: an error's code is one of the table's, and none is 0. -/
theorem CmdError.code_range (e : CmdError) : 0x01 ≤ e.code.toNat ∧ e.code.toNat ≤ 0x0E := by
  cases e <;> decide

/-- Settles O9: an error end reports its code and commits nothing, a good end touches neither error register. -/
theorem errorEndLeavesResults : Obligations.ErrorEndLeavesResults := by
  intro i s t herr h
  rcases exec_next_cases h with ⟨g, w, -, rfl⟩ | ⟨e, n, w, -, rfl⟩
  · simp [herr]
  · simpa using CmdError.code_range e

/-! ### What a command stages (R334) -/

/-- Wherever `x` ends well, the results it stages meet `P`. -/
def Stages (P : Staged → Prop) (x : Eng Staged) : Prop := ∀ w g w', x w = .ok g w' → P g

variable {P : Staged → Prop}

theorem stages_pure {g : Staged} (h : P g) : Stages P (pure g) := by
  intro w g' w' hg
  cases hg
  exact h

/-- What is staged is decided by the last part of a sequence. -/
theorem stages_bind {x : Eng α} {f : α → Eng Staged} (h : ∀ a, Stages P (f a)) : Stages P (x >>= f) := by
  intro w g w' hg
  rw [eng_bind] at hg
  cases hx : x w with
  | ok a w1 =>
    rw [hx] at hg
    exact h a w1 g w' hg
  | error e w1 =>
    rw [hx] at hg
    cases hg

theorem stages_ite {c : Prop} [Decidable c] {x y : Eng Staged} (hx : Stages P x) (hy : Stages P y) :
    Stages P (if c then x else y) := by
  split
  · exact hx
  · exact hy

/-- R35: the command stages COMPRESSED and VALID only where they are its own. -/
def OwnFlags (i : Instr) (g : Staged) : Prop :=
  (i ≠ .hsqProbe → i ≠ .hsqDecompress → g.compressed = none) ∧ (i ≠ .sprHeader → g.valid = none)

/-- Results with neither flag are any command's own. -/
theorem ownFlags_of_none (i : Instr) (r0 r1 : Option Word) : OwnFlags i { result0 := r0, result1 := r1 } :=
  ⟨fun _ _ => rfl, fun _ => rfl⟩

/-- R35: every command stages only the flags that are its own. -/
theorem body_stages (i : Instr) (v : View) : Stages (OwnFlags i) (body i v) := by
  have plain : ∀ r0 r1, Stages (OwnFlags i) (pure { result0 := r0, result1 := r1 }) :=
    fun r0 r1 => stages_pure (ownFlags_of_none i r0 r1)
  cases i with
  | nop => exact plain _ _
  | hsqProbe => exact stages_bind fun _ => stages_pure ⟨by simp, fun _ => rfl⟩
  | hsqDecompress =>
    refine stages_bind fun h => stages_ite ?compressed ?verbatim
    case compressed =>
      exact stages_bind fun _ => stages_bind fun _ => stages_bind fun _ => stages_bind fun _ => stages_bind fun _ =>
        stages_pure ⟨by simp, fun _ => rfl⟩
    case verbatim => exact stages_bind fun _ => stages_bind fun _ => stages_pure ⟨by simp, fun _ => rfl⟩
  | palApply => exact stages_bind fun _ => stages_bind fun _ => stages_bind fun _ => plain _ _
  | palRead => exact stages_bind fun _ => plain _ _
  | palWrite => exact stages_bind fun _ => plain _ _
  | palDisplay => exact stages_bind fun _ => plain _ _
  | palCopy => exact stages_bind fun _ => plain _ _
  | palLerp => exact stages_bind fun _ => plain _ _
  | palExport => exact stages_bind fun _ => stages_bind fun _ => plain _ _
  | sprHeader =>
    exact stages_bind fun _ => stages_bind fun _ => stages_bind fun _ => stages_bind fun _ =>
      stages_pure ⟨fun _ _ => rfl, by simp⟩
  | surfClear => exact stages_bind fun _ => plain _ _
  | imapClear => exact stages_bind fun _ => plain _ _
  | rleDecode =>
    exact stages_bind fun _ => stages_bind fun _ => stages_bind fun _ => stages_bind fun _ => plain _ _
  | blit =>
    exact stages_bind fun _ => stages_ite (plain _ _)
      (stages_bind fun _ => stages_bind fun _ => stages_bind fun _ => plain _ _)
  | rotWrite => exact stages_bind fun _ => stages_bind fun _ => stages_bind fun _ => plain _ _
  | rotRead => exact stages_bind fun _ => stages_bind fun _ => plain _ _
  | tiltRead => exact stages_bind fun _ => plain _ _
  | globePhase => exact stages_bind fun _ => plain _ _
  | globeDraw => exact stages_bind fun _ => stages_bind fun _ => stages_bind fun _ => plain _ _

/-! ### What a command leaves of its working state -/

/-- The working state a command leaves, however it ends. -/
def workLeft : EStateM.Result Stop Work α → Work
  | .ok _ w => w
  | .error _ w => w

/-- What every change of a command keeps, the whole command keeps, however it ends. -/
theorem body_workLeft {v : View} {A : Allowed} {R : Work → Work → Prop} (hR : Closed v.plat.memSize A R) (i : Instr)
    {w : Work} (hicur : w.icur = 0) (hmem : ∀ a, A.mem a) (hpal : i = .palApply ∨ i = .palWrite ∨ i = .palCopy → A.pal)
    (hrow : i = .rotWrite → A.rotRow) (hphase : i = .globePhase ∨ i = .globeDraw → A.rotPhase) :
    R w (workLeft (body i v w)) := by
  have hframe := body_frame hR i (m := w.mem) (.inl hmem) hpal hrow hphase w ⟨rfl, hicur⟩
  cases hb : body i v w with
  | ok g w' =>
    rw [hb] at hframe
    exact hframe.1
  | error e w' =>
    rw [hb] at hframe
    exact hframe.1

/-- The internal RAMs that are not among what `A` allows to change stay. -/
structure RamsKept (A : Allowed) (a b : Work) : Prop where
  pal : ¬A.pal → b.pal = a.pal
  rotRow : ¬A.rotRow → b.rotStart = a.rotStart ∧ b.rotLen = a.rotLen
  rotPhase : ¬A.rotPhase → b.rotPhase = a.rotPhase

/-- A change that leaves all three RAMs alone. -/
theorem RamsKept.of_eq {A : Allowed} {a b : Work} (hp : b.pal = a.pal) (hs : b.rotStart = a.rotStart)
    (hl : b.rotLen = a.rotLen) (hq : b.rotPhase = a.rotPhase) : RamsKept A a b :=
  ⟨fun _ => hp, fun _ => ⟨hs, hl⟩, fun _ => hq⟩

theorem RamsKept.trans {A : Allowed} {a b c : Work} (hab : RamsKept A a b) (hbc : RamsKept A b c) : RamsKept A a c where
  pal hn := (hbc.pal hn).trans (hab.pal hn)
  rotRow hn := ⟨(hbc.rotRow hn).1.trans (hab.rotRow hn).1, (hbc.rotRow hn).2.trans (hab.rotRow hn).2⟩
  rotPhase hn := (hbc.rotPhase hn).trans (hab.rotPhase hn)

/-- Every single change of a command keeps the RAMs it is not allowed to change. -/
theorem closed_ramsKept (n : Nat) (A : Allowed) : Closed n A (RamsKept A) where
  refl _ := .of_eq rfl rfl rfl rfl
  trans := .trans
  draws _ _ := .of_eq rfl rfl rfl rfl
  quota _ _ _ := .of_eq rfl rfl rfl rfl
  icur _ _ := .of_eq rfl rfl rfl rfl
  ocur _ _ := .of_eq rfl rfl rfl rfl
  queue _ _ _ := .of_eq rfl rfl rfl rfl
  written _ _ := .of_eq rfl rfl rfl rfl
  mem _ _ _ _ _ := .of_eq rfl rfl rfl rfl
  pal ha _ _ _ _ := ⟨fun hn => absurd ha hn, fun _ => ⟨rfl, rfl⟩, fun _ => rfl⟩
  rotStart ha _ _ _ _ := ⟨fun _ => rfl, fun hn => absurd ha hn, fun _ => rfl⟩
  rotLen ha _ _ _ _ := ⟨fun _ => rfl, fun hn => absurd ha hn, fun _ => rfl⟩
  rotPhase ha _ _ _ _ := ⟨fun _ => rfl, fun _ => ⟨rfl, rfl⟩, fun hn => absurd ha hn⟩

/-- R38, R39, R82: the internal RAMs each command may change; memory is not restricted here. -/
def ownRams (i : Instr) : Allowed where
  mem _ := True
  pal := i = .palApply ∨ i = .palWrite ∨ i = .palCopy
  rotRow := i = .rotWrite
  rotPhase := i = .globePhase ∨ i = .globeDraw

/-- Every command keeps the RAMs that are not its own. -/
theorem body_ramsKept (i : Instr) (v : View) {w : Work} (hicur : w.icur = 0) :
    RamsKept (ownRams i) w (workLeft (body i v w)) :=
  body_workLeft (closed_ramsKept _ (ownRams i)) i hicur (fun _ => trivial) id id id

/-- The RAMs after a command are those its pseudocode left, and the flags change only by what it staged. -/
theorem exec_ramsKept {i : Instr} {s t : State} (h : exec i s = .next t) :
    RamsKept (ownRams i) (s.work none) (t.work none) ∧
      ∃ g, OwnFlags i g ∧ t.status.compressed = g.compressed.getD s.status.compressed
        ∧ t.status.valid = g.valid.getD s.status.valid := by
  have hkept := body_ramsKept i s.view (w := s.work none) rfl
  rcases exec_next_cases h with ⟨g, w, hb, rfl⟩ | ⟨e, n, w, hb, rfl⟩ <;> rw [hb] at hkept
  · exact ⟨⟨hkept.pal, hkept.rotRow, hkept.rotPhase⟩, g, body_stages i _ _ g w hb, rfl, rfl⟩
  · exact ⟨⟨hkept.pal, hkept.rotRow, hkept.rotPhase⟩, {}, ownFlags_of_none i none none, rfl, rfl⟩

/-- Settles O10: a flag a command does not stage and a RAM its pseudocode keeps are as before. -/
theorem flagsAndRamsHaveTheirOwnCommands : Obligations.FlagsAndRamsHaveTheirOwnCommands := by
  intro i s t h
  obtain ⟨hrams, g, ⟨hcompressed, hvalid⟩, hc, hv⟩ := exec_ramsKept h
  refine ⟨fun hp hd => ?_, fun hs => ?_, fun ha hw hcp => ?_, fun hr => hrams.rotRow hr, fun hp hd => ?_⟩
  · rw [hc, hcompressed hp hd]
    rfl
  · rw [hv, hvalid hs]
    rfl
  · exact hrams.pal (by simp [ownRams, ha, hw, hcp])
  · exact hrams.rotPhase (by simp [ownRams, hp, hd])

end Sys2Proof.Proofs
end

section
/-! PROOFS. The invariant: its parts, what each operation of the machine does to them, and that every step that goes on
keeps it. -/

namespace Sys2Proof.Proofs

open Sys2Proof.Machine Sys2Proof.Claims

variable {α : Type}

/-! ### Memory and the internal RAMs (R38, R39, R80) -/

/-- Memory in canonical form within its size, and the RAM tables in order within theirs. -/
structure Stored (memSize : Nat) (mem : Memory) (pal : List (Nat × Rgb)) (starts lens : List (Nat × BitVec 16))
    (phases : List (Nat × Word)) : Prop where
  mem : mem.wf ∧ keysBelow mem memSize
  pal : tableSorted pal ∧ keysBelow pal 512
  rotStart : tableSorted starts ∧ keysBelow starts 99
  rotLen : tableSorted lens ∧ keysBelow lens 99
  rotPhase : tableSorted phases ∧ keysBelow phases 99

/-- `Stored` of a command's working state. -/
def WorkStored (memSize : Nat) (w : Work) : Prop := Stored memSize w.mem w.pal w.rotStart w.rotLen w.rotPhase

/-- `Stored` of a state. -/
def StateStored (s : State) : Prop := Stored s.plat.memSize s.mem s.pal s.rotStart s.rotLen s.rotPhase

/-- An empty table is in order. -/
theorem tableSorted_keysBelow_nil (n : Nat) : tableSorted ([] : List (Nat × α)) ∧ keysBelow ([] : List (Nat × α)) n :=
  ⟨.nil, fun _ hc => absurd hc List.not_mem_nil⟩

/-- A table write at a key below the bound keeps a table in order and below it. -/
theorem tableSorted_keysBelow_put {t : List (Nat × α)} {n k : Nat} (h : tableSorted t ∧ keysBelow t n) (hk : k < n)
    (x : α) : tableSorted (tablePut t k x) ∧ keysBelow (tablePut t k x) n := by
  refine ⟨tableSorted_put h.1 k x, fun c hc => ?_⟩
  rcases mem_tablePut hc with rfl | hc
  · exact hk
  · exact h.2 c hc

/-- A memory write at an address that exists keeps memory canonical and within its size. -/
theorem memory_wf_keysBelow_write {m : Memory} {n a : Nat} (h : m.wf ∧ keysBelow m n) (ha : a < n) (x : Byte) :
    (m.write a x).wf ∧ keysBelow (m.write a x) n := by
  refine ⟨Memory.write_wf h.1 a x, fun c hc => ?_⟩
  rcases Memory.mem_write hc with hc | hc
  · exact hc ▸ ha
  · exact h.2 c hc

/-- Every single change of a command keeps memory and the RAMs in order. -/
theorem closed_workStored (n : Nat) :
    Closed n ⟨fun _ => True, True, True, True⟩ (fun a b => WorkStored n a → WorkStored n b) where
  refl _ := id
  trans hab hbc h := hbc (hab h)
  draws _ _ := id
  quota _ _ _ := id
  icur _ _ := id
  ocur _ _ := id
  queue _ _ _ := id
  written _ _ := id
  mem _ ha _ _ x h := { h with mem := memory_wf_keysBelow_write h.mem ha x }
  pal _ _ hk _ c h := { h with pal := tableSorted_keysBelow_put h.pal hk c }
  rotStart _ _ hk _ x h := { h with rotStart := tableSorted_keysBelow_put h.rotStart hk x }
  rotLen _ _ hk _ x h := { h with rotLen := tableSorted_keysBelow_put h.rotLen hk x }
  rotPhase _ _ hk _ p h := { h with rotPhase := tableSorted_keysBelow_put h.rotPhase hk p }

/-- However a command ends, and also where a reset cuts it short, memory and the RAMs are in order. -/
theorem body_workStored (i : Instr) {s : State} {w : Work} (hicur : w.icur = 0) (h : WorkStored s.plat.memSize w) :
    WorkStored s.plat.memSize (workLeft (body i s.view w)) :=
  body_workLeft (v := s.view) (closed_workStored _) i hicur (fun _ => trivial) (fun _ => trivial) (fun _ => trivial)
    (fun _ => trivial) h

/-! ### Flags and parameter registers (R33, R35) -/

/-- R35: ERRCODE is one of R331's, and not NONE exactly when ERR is set. -/
def StatusWf (f : Status) : Prop := (f.err = true ↔ f.errcode ≠ 0) ∧ f.errcode.toNat ≤ 0x0E

theorem statusWf_zero : StatusWf Status.zero := by simp [StatusWf, Status.zero]

theorem statusWf_started (f : Status) : StatusWf f.started := by simp [StatusWf]

/-- An error end sets ERR with a code that is not NONE. -/
theorem statusWf_failed (f : Status) (e : CmdError) : StatusWf (f.failed e.code) := by
  cases e <;> simp [StatusWf, CmdError.code]

/-- R338: ERR and ERRCODE are cleared together. -/
theorem statusWf_acknowledge {f : Status} (h : StatusWf f) (v : Word) : StatusWf (f.acknowledge v) := by
  unfold Status.acknowledge
  cases hb : bitSet v 2 with
  | true => simp [StatusWf]
  | false => simpa [StatusWf] using h

theorem paramsWf_zero : Params.zero.wf := by
  intro r
  have hget : Params.zero.get r = 0 := by cases r <;> rfl
  simp [hget]

/-- R32 (d): a masked write leaves no reserved bit set. -/
theorem paramsWf_set {p : Params} (h : p.wf) (r : ParamReg) (v : Word) : (p.set r (v &&& r.mask)).wf := by
  intro q
  rw [Params.get_set]
  split
  next heq => rw [heq, BitVec.and_assoc, BitVec.and_self]
  next => exact h q

/-! ### The invariant by its parts -/

/-- The parts of the invariant, each over the fields it speaks of. An update that leaves those fields alone keeps a part
as it stands. -/
theorem inv_iff {s : State} :
    s.Inv ↔ s.plat.wf ∧ StateStored s ∧ s.params.wf ∧ StatusWf s.status ∧ s.phaseInv := by
  constructor
  · intro h
    exact ⟨h.plat, ⟨⟨h.memCanonical, h.memInside⟩, ⟨h.palSorted, h.palInside⟩, ⟨h.rotStartSorted, h.rotStartInside⟩,
      ⟨h.rotLenSorted, h.rotLenInside⟩, ⟨h.rotPhaseSorted, h.rotPhaseInside⟩⟩, h.params, ⟨h.errFlag, h.errCode⟩, h.phase⟩
  · rintro ⟨hplat, hstored, hparams, ⟨hflag, hcode⟩, hphase⟩
    exact {
      plat := hplat, memCanonical := hstored.mem.1, memInside := hstored.mem.2, palSorted := hstored.pal.1,
      palInside := hstored.pal.2, rotStartSorted := hstored.rotStart.1, rotStartInside := hstored.rotStart.2,
      rotLenSorted := hstored.rotLen.1, rotLenInside := hstored.rotLen.2, rotPhaseSorted := hstored.rotPhase.1,
      rotPhaseInside := hstored.rotPhase.2, params := hparams, errFlag := hflag, errCode := hcode, phase := hphase }

/-- The invariant, on the platform `p`: what every operation of a step keeps. -/
def InvOn (p : Platform) (s : State) : Prop := s.Inv ∧ s.plat = p

variable {p : Platform} {s : State}

/-- What the phase asks: of a running command only. -/
theorem phaseInv_iff :
    s.phaseInv ↔ ∀ r, s.phase = .running r → r.snap.wf ∧ s.status.done = false ∧ s.status.err = false ∧ s.errInfo = 0
      ∧ s.cmd = r.cmd ∧ ∀ a ∈ r.contested, a < s.plat.memSize := by
  unfold State.phaseInv
  cases s.phase <;> simp

/-- While the engine is IDLE the phase asks nothing. -/
theorem phaseInv_of_idle (h : s.phase = .idle) : s.phaseInv :=
  phaseInv_iff.2 fun r hr => by simp [h] at hr

/-- The bytes contested against a running command exist. -/
theorem contested_lt (h : InvOn p s) {r : Running} (hr : s.phase = .running r) : ∀ a ∈ r.contested, a < p.memSize := by
  obtain ⟨-, -, -, -, -, hcontested⟩ := phaseInv_iff.1 h.1.phase r hr
  exact h.2 ▸ hcontested

/-- Memory and the RAMs may be replaced by others in order. -/
theorem invOn_land (h : InvOn p s) {w : Work} (hw : WorkStored s.plat.memSize w) : InvOn p (s.land w) := by
  obtain ⟨hplat, -, hparams, hstatus, hphase⟩ := inv_iff.1 h.1
  exact ⟨inv_iff.2 ⟨hplat, hw, hparams, hstatus, hphase⟩, h.2⟩

/-- A memory write at an address that exists, with any count of free values. -/
theorem invOn_write (h : InvOn p s) {a : Nat} (ha : a < p.memSize) (x : Byte) (n : Nat) :
    InvOn p { s with mem := s.mem.write a x, draws := n } := by
  obtain ⟨hplat, hstored, hparams, hstatus, hphase⟩ := inv_iff.1 h.1
  have hmem := memory_wf_keysBelow_write hstored.mem (h.2 ▸ ha) x
  exact ⟨inv_iff.2 ⟨hplat, { hstored with mem := hmem }, hparams, hstatus, hphase⟩, h.2⟩

/-- R86: settling contested bytes that exist. -/
theorem invOn_settle {as : List Nat} (h : InvOn p s) (has : ∀ a ∈ as, a < p.memSize) : InvOn p (State.settle as s) := by
  induction as generalizing s with
  | nil => exact h
  | cons a as ih =>
    obtain ⟨ha, has⟩ := List.forall_mem_cons.1 has
    exact ih (invOn_write h ha _ _) has

/-- Settling changes no phase. -/
theorem settle_phase (as : List Nat) (s : State) : (State.settle as s).phase = s.phase := by
  induction as generalizing s with
  | nil => rfl
  | cons a as ih => exact ih _

/-! ### The end of a command -/

/-- R330: an error end. -/
theorem invOn_raiseError (h : InvOn p s) (e : CmdError) (n : Int) : InvOn p (s.raiseError e n) := by
  obtain ⟨hplat, hstored, hparams, -, -⟩ := inv_iff.1 h.1
  exact ⟨inv_iff.2 ⟨hplat, hstored, hparams, statusWf_failed _ e, phaseInv_of_idle rfl⟩, h.2⟩

/-- R334: a good end. -/
theorem invOn_commitDone (h : InvOn p s) (g : Staged) : InvOn p (s.commitDone g) := by
  obtain ⟨hplat, hstored, hparams, hstatus, -⟩ := inv_iff.1 h.1
  exact ⟨inv_iff.2 ⟨hplat, hstored, hparams, hstatus, phaseInv_of_idle rfl⟩, h.2⟩

/-- The working state a command starts with is in order, whatever its quota and count of free values. -/
theorem workStored_start (h : InvOn p s) (q : Option Nat) (n : Nat) :
    WorkStored s.plat.memSize { s.work q with draws := n } :=
  (inv_iff.1 h.1).2.1

/-- Every command keeps the invariant, however it ends. -/
theorem invOn_exec (h : InvOn p s) {i : Instr} {t : State} (ht : exec i s = .next t) : InvOn p t := by
  have hw := body_workStored i (w := s.work none) rfl (workStored_start h none s.draws)
  rcases exec_next_cases ht with ⟨g, w, hb, rfl⟩ | ⟨e, n, w, hb, rfl⟩ <;> rw [hb] at hw
  · exact invOn_commitDone (invOn_land h hw) g
  · exact invOn_raiseError (invOn_land h hw) e n

/-- The engine's transition, with the contested bytes settled. -/
theorem invOn_engineTurn (h : InvOn p s) {r : Running} (hr : s.phase = .running r) {t : State}
    (ht : s.engineTurn r = .next t) : InvOn p t := by
  have hcontested := contested_lt h hr
  unfold State.engineTurn at ht
  split at ht
  next i _ =>
    rw [exec_eq_body, settled_next] at ht
    cases ht
    exact invOn_settle (invOn_exec h (exec_eq_body i s)) hcontested
  next =>
    rw [settled_next] at ht
    cases ht
    exact invOn_settle (invOn_raiseError h _ _) hcontested

/-! ### Resets (R361, R362) -/

/-- An aborted command is over. -/
theorem abort_phase (s : State) : s.abort.phase = .idle := by
  unfold State.abort
  split
  next h => exact h
  next => rfl

/-- R362: what an aborted command leaves. -/
theorem invOn_abort (h : InvOn p s) : InvOn p s.abort := by
  unfold State.abort
  split
  next => exact h
  next r hr =>
    have hidle : ∀ {t : State}, InvOn p t → InvOn p { State.settle r.contested t with phase := .idle } := fun ht => by
      have hsettled := invOn_settle ht (contested_lt h hr)
      obtain ⟨hplat, hstored, hparams, hstatus, -⟩ := inv_iff.1 hsettled.1
      exact ⟨inv_iff.2 ⟨hplat, hstored, hparams, hstatus, phaseInv_of_idle rfl⟩, hsettled.2⟩
    refine hidle ?_
    split
    next => exact h
    next i _ =>
      have hw := body_workStored i (w := { s.work (some (Config.abortPrefix s.draws)) with draws := s.draws + 1 }) rfl
        (workStored_start h _ _)
      split
      next hb => rw [hb] at hw; exact invOn_land h hw
      next hb => rw [hb] at hw; exact invOn_land h hw

/-- The registers at their reset values, with the engine IDLE. -/
theorem invOn_clearRegs (h : InvOn p s) (hp : s.phase = .idle) : InvOn p s.clearRegs := by
  obtain ⟨hplat, hstored, -, -, -⟩ := inv_iff.1 h.1
  exact ⟨inv_iff.2 ⟨hplat, hstored, paramsWf_zero, statusWf_zero, phaseInv_of_idle hp⟩, h.2⟩

theorem invOn_softReset (h : InvOn p s) : InvOn p s.softReset := invOn_clearRegs (invOn_abort h) (abort_phase s)

/-- A power-on reset is a soft reset that empties the RAM tables too. -/
theorem invOn_powerOnReset (h : InvOn p s) : InvOn p s.powerOnReset := by
  have hsoft := invOn_softReset h
  obtain ⟨hplat, hstored, hparams, hstatus, hphase⟩ := inv_iff.1 hsoft.1
  have hempty : StateStored s.powerOnReset :=
    ⟨hstored.mem, tableSorted_keysBelow_nil 512, tableSorted_keysBelow_nil 99, tableSorted_keysBelow_nil 99,
      tableSorted_keysBelow_nil 99⟩
  exact ⟨inv_iff.2 ⟨hplat, hempty, hparams, hstatus, hphase⟩, hsoft.2⟩

/-! ### Register writes (R32, R33) -/

/-- The flags may change where ERR and ERRCODE stay in step and a running command's DONE and ERR stay clear. -/
theorem invOn_status (h : InvOn p s) {f : Status} (hf : StatusWf f) (hdone : s.status.done = false → f.done = false)
    (herr : s.status.err = false → f.err = false) : InvOn p { s with status := f } := by
  obtain ⟨hplat, hstored, hparams, -, hphase⟩ := inv_iff.1 h.1
  refine ⟨inv_iff.2 ⟨hplat, hstored, hparams, hf, phaseInv_iff.2 fun r hr => ?_⟩, h.2⟩
  obtain ⟨hsnap, hd, he, hrest⟩ := phaseInv_iff.1 hphase r hr
  exact ⟨hsnap, hdone hd, herr he, hrest⟩

/-- R34, R113: a CMD write starts a command in good order, or sets OVR. -/
theorem invOn_writeCmd (h : InvOn p s) (v : Word) : InvOn p (s.writeCmd v) := by
  obtain ⟨hplat, hstored, hparams, hstatus, -⟩ := inv_iff.1 h.1
  unfold State.writeCmd
  split
  next =>
    refine ⟨inv_iff.2 ⟨hplat, hstored, hparams, statusWf_started _, phaseInv_iff.2 fun r hr => ?_⟩, h.2⟩
    cases hr
    exact ⟨hparams, rfl, rfl, rfl, rfl, by simp⟩
  next => exact invOn_status h hstatus id id

/-- A host write to any register. -/
theorem invOn_writeReg (h : InvOn p s) (r : Reg) (v : Word) : InvOn p (s.writeReg r v) := by
  obtain ⟨hplat, hstored, hparams, hstatus, hphase⟩ := inv_iff.1 h.1
  cases r with
  | id | errInfo | result0 | result1 => exact h
  | cmd => exact invOn_writeCmd h v
  | irqEn => exact ⟨inv_iff.2 ⟨hplat, hstored, hparams, hstatus, hphase⟩, h.2⟩
  | param q => exact ⟨inv_iff.2 ⟨hplat, hstored, paramsWf_set hparams q v, hstatus, hphase⟩, h.2⟩
  | status =>
    exact invOn_status h (statusWf_acknowledge hstatus v) (fun hd => by simp [Status.acknowledge, hd])
      (fun he => by simp [Status.acknowledge, he])
  | ctrl =>
    simp only [State.writeReg]
    split
    · exact invOn_softReset h
    · exact h

/-- A host write at any bus address. -/
theorem invOn_busWrite (h : InvOn p s) (addr width : Nat) (v : Word) : InvOn p (s.busWrite addr width v) := by
  unfold State.busWrite
  split
  next r _ => exact invOn_writeReg h r v
  next => exact h

/-! ### Host accesses to system memory (R86) -/

/-- What the host read, the accesses left and the count of free values are no part of the invariant. -/
theorem invOn_busData (h : InvOn p s) (x : Word) (rest : List Input) (n : Nat) :
    InvOn p { s with busData := x, inbox := rest, draws := n } :=
  ⟨inv_iff.2 (inv_iff (s := s).1 h.1), h.2⟩

/-- A byte that exists becomes contested. -/
theorem invOn_contest (h : InvOn p s) {r : Running} (hr : s.phase = .running r) {a : Nat} (ha : a < p.memSize) :
    InvOn p (s.contest r a) := by
  obtain ⟨hplat, hstored, hparams, hstatus, hphase⟩ := inv_iff.1 h.1
  obtain ⟨hsnap, hdone, herr, hinfo, hcmd, hcontested⟩ := phaseInv_iff.1 hphase r hr
  refine ⟨inv_iff.2 ⟨hplat, hstored, hparams, hstatus, phaseInv_iff.2 fun r' hr' => ?_⟩, h.2⟩
  cases hr'
  refine ⟨hsnap, hdone, herr, hinfo, hcmd, ?_⟩
  exact List.forall_mem_cons.2 ⟨(h.2 ▸ ha : a < s.plat.memSize), hcontested⟩

/-- A host read of a byte that exists: the plain read, or a contested one. -/
theorem invOn_hostRead (h : InvOn p s) {a : Nat} (ha : a < p.memSize) : InvOn p (s.hostRead a) := by
  by_cases hfree : ∀ r, s.phase = .running r → r.forbids a false = false
  · rw [hostRead_eq_read hfree]
    exact invOn_busData h _ s.inbox s.draws
  · obtain ⟨r, hr, hforbids⟩ : ∃ r, s.phase = .running r ∧ r.forbids a false = true := by simpa using hfree
    have hread : s.hostRead a = s.contestedRead r a := by simp [State.hostRead, State.current, hr, hforbids]
    rw [hread]
    exact invOn_busData (invOn_contest h hr ha) _ s.inbox _

/-- A host write of a byte that exists: the plain write, or it leaves the byte contested. -/
theorem invOn_hostWrite (h : InvOn p s) {a : Nat} (ha : a < p.memSize) (x : Byte) : InvOn p (s.hostWrite a x) := by
  by_cases hfree : ∀ r, s.phase = .running r → r.forbids a true = false
  · rw [hostWrite_eq_write x hfree]
    exact invOn_write h ha x s.draws
  · obtain ⟨r, hr, hforbids⟩ : ∃ r, s.phase = .running r ∧ r.forbids a true = true := by simpa using hfree
    have hwrite : s.hostWrite a x = s.contest r a := by simp [State.hostWrite, State.current, hr, hforbids]
    rw [hwrite]
    exact invOn_contest h hr ha

/-! ### The step -/

/-- Every access of the host or the platform that goes on. -/
theorem invOn_input (h : InvOn p s) {i : Input} {t : State} (ht : s.input i = .next t) : InvOn p t := by
  cases i with
  | read addr width =>
    cases ht
    exact invOn_busData h _ s.inbox s.draws
  | write addr width v =>
    cases ht
    exact invOn_busWrite h addr width v
  | powerOn =>
    cases ht
    exact invOn_powerOnReset h
  | wait =>
    simp only [State.input] at ht
    split at ht
    all_goals
      cases ht
      exact invOn_busData h _ _ s.draws
  | memRead a =>
    simp only [State.input] at ht
    split at ht
    next ha =>
      cases ht
      exact invOn_hostRead h (h.2 ▸ ha)
    next => cases ht
  | memWrite a x =>
    simp only [State.input] at ht
    split at ht
    next ha =>
      cases ht
      exact invOn_hostWrite h (h.2 ▸ ha) x
    next => cases ht

/-- Taking a host turn changes only the latency of a running command and the accesses left. -/
theorem invOn_onHostTurn (h : InvOn p s) (rest : List Input) : InvOn p (onHostTurn s rest) := by
  obtain ⟨hplat, hstored, hparams, hstatus, hphase⟩ := inv_iff.1 h.1
  refine ⟨inv_iff.2 ⟨hplat, hstored, hparams, hstatus, phaseInv_iff.2 fun r hr => ?_⟩, h.2⟩
  cases hp : s.phase with
  | idle => simp [onHostTurn, hp] at hr
  | running r' =>
    have hr' : { r' with latency := r'.latency - 1 } = r := by simpa [onHostTurn, hp] using hr
    rw [← hr']
    exact phaseInv_iff.1 hphase r' hp

/-- Settles O25: the host's access, an IDLE block with no access left and the engine's transition each keep the
invariant. -/
theorem everyStepKeepsTheInvariant : Obligations.EveryStepKeepsTheInvariant := by
  intro s t hinv ht
  have h : InvOn s.plat s := ⟨hinv, rfl⟩
  rcases step_cases s with ⟨i, rest, -, -, hs⟩ | ⟨-, -, hs⟩ | ⟨r, hr, -, hs⟩ <;> rw [hs] at ht
  · exact invOn_input (invOn_onHostTurn h rest) ht
  · cases ht
    exact h
  · exact invOn_engineTurn h hr ht

end Sys2Proof.Proofs
end

section
/-! PROOFS. The decoder and the encoder: each undoes the other, on words and on bytes. -/

namespace Sys2Proof.Proofs

open Sys2Proof.Machine Sys2Proof.Claims

/-! ### Command words (R110, R111) -/

/-- R111: an opcode names a command only where it is that command's opcode. -/
theorem eq_opcode_of_opInstr {op : BitVec 8} {i : Instr} (h : opInstr op = some i) : op = opcode i := by
  unfold opInstr at h
  split at h <;> cases h <;> exact BitVec.eq_of_toNat_eq ‹_›

/-- R110: a word is its reserved field above its opcode. -/
theorem rsvd_append_op (w : Word) : (splitWord w).rsvd ++ (splitWord w).op = w := by
  have hjoin := BitVec.extractLsb'_append_extractLsb'_eq_extractLsb' (x := w) (start₁ := 0) (len₁ := 8) (start₂ := 8)
    (len₂ := 24) rfl
  exact hjoin.trans BitVec.extractLsb'_eq_self

/-- The command word of a command decodes to it. -/
theorem decodeWord_encode (i : Instr) : decodeWord (encode i) = .ok i := by
  cases i <;> rfl

/-- R110 to R112: a word decodes to a command exactly when it is that command's word. -/
theorem decodeWord_eq_ok_iff (w : Word) (i : Instr) : decodeWord w = .ok i ↔ w = encode i := by
  refine ⟨fun h => ?_, fun h => h ▸ decodeWord_encode i⟩
  unfold decodeWord at h
  split at h
  next hrsvd =>
    split at h
    next j hop =>
      cases h
      calc w = (splitWord w).rsvd ++ (splitWord w).op := (rsvd_append_op w).symm
        _ = encode i := by rw [hrsvd, eq_opcode_of_opInstr hop, encode]
    next => cases h
  next => cases h

/-! ### Words as bytes (R83) -/

/-- A byte appended to a bit vector is its low byte. -/
theorem toNat_append_byte {n : Nat} (x : BitVec n) (b : Byte) : (x ++ b).toNat = 2 ^ 8 * x.toNat + b.toNat := by
  rw [BitVec.toNat_append, ← Nat.shiftLeft_add_eq_or_of_lt b.isLt, Nat.shiftLeft_eq, Nat.mul_comm]

/-- R83: the value of a word, from its four bytes. -/
theorem wordOfBytes_toNat (b0 b1 b2 b3 : Byte) :
    (wordOfBytes b0 b1 b2 b3).toNat = b0.toNat + 2 ^ 8 * b1.toNat + 2 ^ 16 * b2.toNat + 2 ^ 24 * b3.toNat := by
  have h : (wordOfBytes b0 b1 b2 b3).toNat = (b3 ++ b2 ++ b1 ++ b0).toNat := rfl
  rw [h, toNat_append_byte, toNat_append_byte, toNat_append_byte]
  ring

/-- The bytes of a word assembled from four bytes are those four. -/
theorem bytesOfWord_wordOfBytes (b0 b1 b2 b3 : Byte) : bytesOfWord (wordOfBytes b0 b1 b2 b3) = [b0, b1, b2, b3] := by
  have hvalue := wordOfBytes_toNat b0 b1 b2 b3
  simp only [bytesOfWord, List.cons.injEq, and_true, ← BitVec.toNat_inj, BitVec.extractLsb'_toNat, hvalue,
    Nat.shiftRight_eq_div_pow]
  omega

/-- The word assembled from a word's bytes is that word. -/
theorem wordOfBytes_bytesOfWord (w : Word) :
    wordOfBytes (w.extractLsb' 0 8) (w.extractLsb' 8 8) (w.extractLsb' 16 8) (w.extractLsb' 24 8) = w := by
  apply BitVec.eq_of_toNat_eq
  simp only [wordOfBytes_toNat, BitVec.extractLsb'_toNat, Nat.shiftRight_eq_div_pow]
  omega

/-- The decoder takes a word's bytes off the front and decodes the word. -/
theorem decode_bytesOfWord_append (w : Word) (rest : List Byte) :
    decode (bytesOfWord w ++ rest) = (decodeWord w).map fun i => (i, rest) := by
  simp only [bytesOfWord, List.cons_append, List.nil_append, decode, wordOfBytes_bytesOfWord]

/-- A byte string that decodes begins with the four bytes of a word that decodes. -/
theorem decode_eq_ok {bs rest : List Byte} {i : Instr} (h : decode bs = .ok (i, rest)) :
    ∃ w, decodeWord w = .ok i ∧ bs = bytesOfWord w ++ rest := by
  unfold decode at h
  split at h
  next b0 b1 b2 b3 tail =>
    refine ⟨wordOfBytes b0 b1 b2 b3, ?_⟩
    rw [bytesOfWord_wordOfBytes]
    cases hw : decodeWord (wordOfBytes b0 b1 b2 b3) with
    | ok j =>
      rw [hw] at h
      cases h
      exact ⟨rfl, rfl⟩
    | error e =>
      rw [hw] at h
      cases h
  next => cases h

/-- Settles O2: on bytes as on words, the encoder is the decoder's inverse. -/
theorem decodeAndEncodeAgreeOnBytes : Obligations.DecodeAndEncodeAgreeOnBytes := by
  intro bs rest i
  constructor
  · intro h
    obtain ⟨w, hw, hbs⟩ := decode_eq_ok h
    rw [hbs, (decodeWord_eq_ok_iff w i).1 hw, encodeBytes]
  · rintro rfl
    rw [encodeBytes, decode_bytesOfWord_append, decodeWord_encode]
    rfl

/-- Settles O3: the legal samples are encodings, and the two illegal ones fail by their reserved field and opcode. -/
theorem sampleWordsDecode : Obligations.SampleWordsDecode := by
  have legal : ∀ i, decode (encodeBytes i) = .ok (i, []) := fun i =>
    (decodeAndEncodeAgreeOnBytes _ [] i).2 (List.append_nil _).symm
  exact ⟨legal .nop, legal .hsqDecompress, legal .palLerp, legal .sprHeader, legal .blit, legal .globeDraw, rfl, rfl⟩

end Sys2Proof.Proofs
end

section
/-! PROOFS. System memory under a running command: the bytes outside its regions, and the bytes the host touched against
R86. -/

namespace Sys2Proof.Proofs

open Sys2Proof.Machine Sys2Proof.Claims

/-! ### The bytes a command leaves alone (R92) -/

/-- Every byte of system memory that is not among what `A` allows to change stays. -/
def MemKept (A : Allowed) (a b : Work) : Prop := ∀ x, ¬A.mem x → b.mem.read x = a.mem.read x

/-- Every single change of a command keeps the bytes it is not allowed to change. -/
theorem closed_memKept (n : Nat) (A : Allowed) : Closed n A (MemKept A) where
  refl _ _ _ := rfl
  trans hab hbc x hx := (hbc x hx).trans (hab x hx)
  draws _ _ _ _ := rfl
  quota _ _ _ _ _ := rfl
  icur _ _ _ _ := rfl
  ocur _ _ _ _ := rfl
  queue _ _ _ _ _ := rfl
  written _ _ _ _ := rfl
  mem a _ ha w y x hx := w.mem.read_write_other y fun heq : x = a => hx (heq ▸ ha)
  pal _ _ _ _ _ _ _ := rfl
  rotStart _ _ _ _ _ _ _ := rfl
  rotLen _ _ _ _ _ _ _ := rfl
  rotPhase _ _ _ _ _ _ _ := rfl

/-- R92: the regions a command writes, on the memory `m` it starts from; the internal RAMs are not restricted here. -/
def ownRegions (i : Instr) (p : Params) (m : Memory) : Allowed where
  mem a := inRegions (footprint i p m).writes a = true
  pal := True
  rotRow := True
  rotPhase := True

/-- A part relates the working state it starts from to the one it leaves, however it ends. -/
theorem triple_workLeft {α : Type} {P : Work → Prop} {R : Work → Work → Prop} {x : Eng α} {Q : α → Work → Prop}
    (h : Triple P R x Q) {w : Work} (hw : P w) : R w (workLeft (x w)) := by
  have hends := h w hw
  cases hx : x w with
  | ok a w' =>
    rw [hx] at hends
    exact hends.1
  | error e w' =>
    rw [hx] at hends
    exact hends.1

/-- R92: however a command ends, and also where a reset cuts it short, a byte outside its regions is the one it started
from, when the host contests none. -/
theorem body_memKept (i : Instr) {v : View} (hc : v.contested = []) {w : Work} (hicur : w.icur = 0) :
    MemKept (ownRegions i v.snap w.mem) w (workLeft (body i v w)) :=
  triple_workLeft (body_frame (closed_memKept v.plat.memSize (ownRegions i v.snap w.mem)) i (m := w.mem)
    (.inr ⟨hc, fun _ ha => ha⟩) (fun _ => trivial) (fun _ => trivial) (fun _ => trivial)) ⟨rfl, hicur⟩

/-- The memory after a command is what its pseudocode left. -/
theorem exec_mem {i : Instr} {s t : State} (h : exec i s = .next t) :
    t.mem = (workLeft (body i s.view (s.work none))).mem := by
  rcases exec_next_cases h with ⟨g, w, hb, rfl⟩ | ⟨e, n, w, hb, rfl⟩ <;> rw [hb] <;> rfl

/-- Settles O11: either end leaves the memory of the pseudocode, which keeps every byte outside the regions. -/
theorem commandsWriteOnlyTheirRegions : Obligations.CommandsWriteOnlyTheirRegions := by
  intro i s t hc h a ha
  have hkept := body_memKept i (v := s.view) hc (w := s.work none) rfl
  show t.mem.read a = s.mem.read a
  rw [exec_mem h]
  exact hkept a (Bool.eq_false_iff.1 ha)

/-! ### Contested bytes once the command has ended (R86, log 10) -/

/-- Settling leaves a free value in every byte it settles, and in every byte that held one before. -/
theorem settle_byte_free {as : List Nat} {s : State} {a : Nat}
    (h : a ∈ as ∨ ∃ n, s.byte a = Config.contestedByte n) :
    ∃ n, (State.settle as s).byte a = Config.contestedByte n := by
  induction as generalizing s with
  | nil => exact h.resolve_left List.not_mem_nil
  | cons b as ih =>
    refine ih ?_
    by_cases hab : a = b
    · exact .inr ⟨s.draws, hab ▸ s.mem.read_write_same b _⟩
    · have hkept : (s.mem.write b (Config.contestedByte s.draws)).read a = s.mem.read a := s.mem.read_write_other _ hab
      exact h.imp (fun hmem => (List.mem_cons.1 hmem).resolve_left hab) fun ⟨n, hn⟩ => ⟨n, hkept.trans hn⟩

/-- R113: the engine's transition ends by settling the contested bytes, whether its word is legal or not. -/
theorem engineTurn_settles (s : State) (r : Running) :
    ∃ u, s.engineTurn r = .next (State.settle r.contested u) := by
  unfold State.engineTurn
  cases decodeWord r.cmd with
  | ok i =>
    show ∃ u, settled r.contested (exec i s) = .next (State.settle r.contested u)
    rw [exec_eq_body]
    exact ⟨s.runCmd (body i), settled_next _ _⟩
  | error e => exact ⟨s.illegal r.cmd, settled_next _ _⟩

/-- Settles O26: the step is the engine's, and that settles the byte. -/
theorem contestedByteEndsOpen : Obligations.ContestedByteEndsOpen := by
  intro s t r a hp hturn ha ht
  obtain ⟨u, hu⟩ := engineTurn_settles s r
  rw [step_eq_engineTurn hp hturn, hu] at ht
  cases ht
  exact settle_byte_free (.inl ha)

end Sys2Proof.Proofs
end

section
/-! PROOFS. From a command word to the transition that runs it: the opcode map, the acceptance of a word by the window and
the engine's turn, for a legal and for an illegal word. -/

namespace Sys2Proof.Proofs

open Sys2Proof.Machine Sys2Proof.Claims

/-! ### The opcode map (R111) -/

/-- R111: every row of the opcode map holds the word of its command. -/
theorem opcodeTable_encode : ∀ x ∈ opcodeTable, x.1 = encode x.2 := by decide

/-- R111: every command has its row. -/
theorem encode_mem_opcodeTable (i : Instr) : (encode i, i) ∈ opcodeTable := by
  cases i <;> decide

/-- Settles O1: a word that decodes is the word of its command, and that word stands in the command's row. -/
theorem wordDecodesExactlyByTheOpcodeMap : Obligations.WordDecodesExactlyByTheOpcodeMap := by
  intro w i
  rw [decodeWord_eq_ok_iff]
  constructor
  · rintro rfl
    exact encode_mem_opcodeTable i
  · exact opcodeTable_encode (w, i)

/-- R112: a word in no row of the opcode map does not decode. -/
theorem decodeWord_error_of_not_mem {v : Word} (h : ¬ ∃ i, (v, i) ∈ opcodeTable) : ∃ e, decodeWord v = .error e := by
  cases hv : decodeWord v with
  | ok i => exact absurd ⟨i, (wordDecodesExactlyByTheOpcodeMap v i).1 hv⟩ h
  | error e => exact ⟨e, rfl⟩

/-! ### The engine's turn (R113) -/

/-- R113: on its turn the engine runs the command its word decodes to, and then settles the contested bytes. -/
theorem engineTurn_of_decode {s : State} {r : Running} {i : Instr} (hd : decodeWord r.cmd = .ok i) :
    s.engineTurn r = .next (State.settle r.contested (s.runCmd (body i))) := by
  unfold State.engineTurn
  rw [hd]
  show settled r.contested (exec i s) = _
  rw [exec_eq_body, settled_next]

/-- R112: on its turn the engine ends an illegal word with ILLEGAL_CMD, and then settles the contested bytes. -/
theorem engineTurn_of_illegal {s : State} {r : Running} {e : DecodeError} (hd : decodeWord r.cmd = .error e) :
    s.engineTurn r = .next (State.settle r.contested (s.illegal r.cmd)) := by
  unfold State.engineTurn
  rw [hd]
  exact settled_next _ _

/-- Settles O4: the engine's turn is `exec` and the settling, and settling no byte changes nothing. -/
theorem stepRunsTheDecodedCommand : Obligations.StepRunsTheDecodedCommand := by
  intro s r i hp hd hturn
  have hstep : step s = .next (State.settle r.contested (s.runCmd (body i))) := by
    rw [step_eq_engineTurn hp hturn, engineTurn_of_decode hd]
  refine ⟨fun hc => ?_, s.runCmd (body i), exec_eq_body i s, hstep⟩
  rw [hstep, hc, exec_eq_body]
  rfl

/-! ### A word written to CMD (R34, R113) -/

/-- R113: what runs after a word has been written to CMD. -/
def acceptedRun (s : State) (v : Word) : Running where
  cmd := v
  snap := s.params
  heldInfo := s.errInfo
  latency := s.latencyOf v
  foot := s.footOf v
  contested := []

/-- R34, R113: the state after a word has been written to CMD while the engine is IDLE. -/
def acceptedState (s : State) (v : Word) : State :=
  { s with
    cmd := v
    status := s.status.started
    errInfo := 0
    phase := .running (acceptedRun s v)
    draws := s.draws + 1 }

/-- R34, R113: a word written to CMD while the engine is IDLE starts. -/
theorem busWrite_cmd_of_idle {s : State} (hp : s.phase = .idle) (v : Word) :
    s.busWrite (s.plat.regBase + 0x008) 4 v = acceptedState s v :=
  (busWrite_offset s .cmd v).trans (writeCmd_of_idle hp v)

/-- Settles O7: the write leaves a running command without contested bytes, and with no access waiting the next turn is
the engine's, whatever the latency. -/
theorem acceptedCommandRuns : Obligations.AcceptedCommandRuns := by
  intro s v i hp hin hd t
  have ht : t = acceptedState s v := busWrite_cmd_of_idle hp v
  rw [ht]
  obtain ⟨hexec, -⟩ := stepRunsTheDecodedCommand (acceptedState s v) (acceptedRun s v) i rfl hd (.inr hin)
  exact ⟨hexec rfl, rfl, rfl, rfl, rfl, rfl, rfl, rfl⟩

/-- R112, log 3: an illegal word lasts no host turn. -/
theorem latencyOf_illegal {s : State} {v : Word} {e : DecodeError} (hd : decodeWord v = .error e) :
    s.latencyOf v = 0 := by
  simp [State.latencyOf, hd]

/-- R330: an error end, as the claims write it. -/
theorem raiseError_eq_failed (s : State) (e : CmdError) (n : Int) :
    s.raiseError e n = failed s e.code (BitVec.ofInt 32 n) := rfl

/-- R330: an error end whose information is a natural number. -/
theorem raiseError_natCast (s : State) (e : CmdError) (n : Nat) :
    s.raiseError e n = failed s e.code (BitVec.ofNat 32 n) := by
  rw [raiseError_eq_failed, BitVec.ofInt_natCast]

/-- R112: ILLEGAL_CMD reports the whole word. -/
theorem illegal_eq_failed (s : State) (v : Word) : s.illegal v = failed s 0x01 v := by
  show s.raiseError .illegalCmd v.toNat = _
  rw [raiseError_natCast, BitVec.ofNat_toNat, BitVec.setWidth_eq]
  rfl

/-- Settles O5: the word starts with latency 0, so the next turn is the engine's, which ends it. -/
theorem illegalWordEndsWithIllegalCmd : Obligations.IllegalWordEndsWithIllegalCmd := by
  intro s v hp hillegal
  obtain ⟨e, hd⟩ := decodeWord_error_of_not_mem hillegal
  have hturn : step (acceptedState s v) = (acceptedState s v).engineTurn (acceptedRun s v) :=
    step_eq_engineTurn rfl (.inl (latencyOf_illegal hd))
  have hend : (acceptedState s v).engineTurn (acceptedRun s v) = .next (failed (acceptedState s v) 0x01 v) := by
    rw [engineTurn_of_illegal (r := acceptedRun s v) hd, ← illegal_eq_failed]
    rfl
  exact ⟨_, (congrArg step (busWrite_cmd_of_idle hp v)).trans (hturn.trans hend), rfl⟩

end Sys2Proof.Proofs
end

section
/-! PROOFS. Commands that turn a stream into bytes of memory: the working state while the stream pours into its output
(`Pours`), and RLE_DECODE over it. -/

namespace Sys2Proof.Proofs

open Sys2Proof.Machine Sys2Proof.Claims

/-! ### Checks -/

/-- A check whose condition is false lets the pseudocode go on. -/
theorem raiseIf_pass {c : Bool} {e : CmdError} {i : Int} {w : Work} (h : c = false) : raiseIf c e i w = .ok () w := by
  rw [raiseIf_apply, h]
  rfl

/-- A check whose condition is true raises its error. -/
theorem raiseIf_fail {c : Bool} {e : CmdError} {i : Int} {w : Work} (h : c = true) :
    raiseIf c e i w = .error (.raised e i) w := by
  rw [raiseIf_apply, h]
  rfl

/-! ### Bytes in memory -/

/-- What memory holds after a list has been written: the list in its place, and the old bytes elsewhere. -/
theorem writeList_spec (m : Memory) (a : Nat) (bs : List Byte) :
    (∀ k b, bs[k]? = some b → (m.writeList a bs).read (a + k) = b)
      ∧ ∀ c, ¬ inRegion a bs.length c → (m.writeList a bs).read c = m.read c := by
  constructor
  · intro k b hb
    obtain ⟨hk, rfl⟩ := List.getElem?_eq_some_iff.1 hb
    exact m.read_writeList a hk
  · intro c hc
    unfold inRegion at hc
    exact m.read_writeList_other (by omega)

/-- A stream feeds a list that stands in memory, inside the stream, where no byte is contested. -/
theorem feeds_of_holds {s : State} {st : Stream} {w : Work} {bs : List Byte} (hmem : w.mem = s.mem)
    (hb : s.holds (st.base + w.icur) bs) (hlen : w.icur + bs.length ≤ st.len)
    (hr : s.readable (st.base + w.icur) bs.length) : Feeds s.view st w bs := by
  intro k hk
  obtain ⟨hin, hfree⟩ := hr k hk
  exact ⟨by omega, hin, hfree, hmem ▸ hb k bs[k] (List.getElem?_eq_getElem hk)⟩

/-! ### Pouring a stream into memory -/

/-- A command that began at `w0` has written `out` at `dst`, of at most `cap` bytes, and its stream still feeds `bs`, the
rest of its `total` bytes; the stream and the output lie apart. -/
structure Pours (v : View) (st : Stream) (dst cap total : Nat) (w0 : Work) (bs out : List Byte) (w : Work) : Prop where
  quota : w0.quota = none
  room : ∀ k, k < cap → dst + k < v.plat.memSize
  apart : apart st.base total dst cap
  frame : w = { w0 with
    mem := w0.mem.writeList dst out, icur := w.icur, ocur := out.length, queue := w.queue, qbits := w.qbits }
  feeds : Feeds v st w bs
  consumed : w.icur + bs.length = total

section
variable {v : View} {st : Stream} {dst cap total : Nat} {w0 w : Work} {bs cs out xs : List Byte}

theorem Pours.quota_eq (h : Pours v st dst cap total w0 bs out w) : w.quota = none := by
  rw [h.frame]
  exact h.quota

theorem Pours.ocur_eq (h : Pours v st dst cap total w0 bs out w) : w.ocur = out.length := by
  rw [h.frame]

theorem Pours.mem_eq (h : Pours v st dst cap total w0 bs out w) : w.mem = w0.mem.writeList dst out := by
  rw [h.frame]

/-- A command starts to pour with its cursors at 0. -/
theorem pours_start {s : State} (hb : s.holds st.base bs) (hlen : bs.length ≤ st.len)
    (hr : s.readable st.base bs.length)
    (hw : s.writable dst cap) (hap : Machine.apart st.base bs.length dst cap) :
    Pours s.view st dst cap bs.length (s.work none) bs [] (s.work none) where
  quota := rfl
  room := hw
  apart := hap
  frame := rfl
  feeds := feeds_of_holds (w := s.work none) rfl hb (by simpa using hlen) hr
  consumed := Nat.zero_add _

/-- Reading moves the cursor past bytes of the stream. -/
theorem Pours.advance (h : Pours v st dst cap total w0 (cs ++ bs) out w) :
    Pours v st dst cap total w0 bs out { w with icur := w.icur + cs.length } where
  quota := h.quota
  room := h.room
  apart := h.apart
  frame := by rw [h.frame]
  feeds := by
    intro k hk
    have hbyte := h.feeds (cs.length + k) (by simp; omega)
    rw [List.getElem_append_right (by omega)] at hbyte
    simpa [Nat.add_assoc] using hbyte
  consumed := by
    have hsum := h.consumed
    rw [List.length_append] at hsum
    show w.icur + cs.length + bs.length = total
    omega

/-- The next byte of the stream. -/
theorem Pours.inByte {b : Byte} (h : Pours v st dst cap total w0 (b :: bs) out w) :
    inByte v st w = .ok b { w with icur := w.icur + 1 } ∧
      Pours v st dst cap total w0 bs out { w with icur := w.icur + 1 } :=
  ⟨inByte_feeds h.feeds, h.advance (cs := [b])⟩

/-- Bytes that still fit are written behind the output, and the stream does not see them. -/
theorem Pours.append (h : Pours v st dst cap total w0 bs out w) (hfit : out.length + xs.length ≤ cap) :
    Pours v st dst cap total w0 bs (out ++ xs)
      { w with mem := w.mem.writeList (dst + w.ocur) xs, ocur := w.ocur + xs.length } where
  quota := h.quota
  room := h.room
  apart := h.apart
  frame := by
    rw [h.frame]
    simp only [Memory.writeList_append, List.length_append]
  feeds := by
    refine h.feeds.congr rfl fun k hk => Memory.read_writeList_other _ ?_
    have hap := h.apart
    have hsum := h.consumed
    have ho := h.ocur_eq
    unfold Machine.apart at hap
    omega
  consumed := h.consumed

/-- The place of the next bytes of output exists. -/
theorem Pours.fits {n : Nat} (h : Pours v st dst cap total w0 bs out w) (hn : out.length + n ≤ cap) (hpos : 0 < n) :
    dst + w.ocur + n ≤ v.plat.memSize := by
  have hlast := h.room (out.length + n - 1) (by omega)
  have ho := h.ocur_eq
  omega

/-- What a command that pours leaves in the state. -/
theorem Pours.land {s : State} (h : Pours v st dst cap total (s.work none) bs out w) :
    s.land w = { s with mem := s.mem.writeList dst out } := by
  rw [h.frame]
  rfl

/-! ### The runs of RLE (R119, R231) -/

/-- R119: the command byte of a repeat run. -/
theorem rleLength_same {n : Nat} (h : 2 ≤ n ∧ n ≤ 129) :
    bitSet (BitVec.ofNat 8 (257 - n)) 7 = true ∧ rleLength (BitVec.ofNat 8 (257 - n)) = n := by
  have hbit : bitSet (BitVec.ofNat 8 (257 - n)) 7 = true := by
    unfold bitSet
    rw [BitVec.toNat_ofNat, Nat.mod_eq_of_lt (by omega), Nat.testBit_eq_decide_div_mod_eq]
    simp
    omega
  refine ⟨hbit, ?_⟩
  rw [rleLength, if_pos hbit, BitVec.toNat_ofNat]
  omega

/-- R119: the command byte of a literal run. -/
theorem rleLength_plain {n : Nat} (h : 1 ≤ n ∧ n ≤ 128) :
    bitSet (BitVec.ofNat 8 (n - 1)) 7 = false ∧ rleLength (BitVec.ofNat 8 (n - 1)) = n := by
  have hbit : bitSet (BitVec.ofNat 8 (n - 1)) 7 = false := by
    unfold bitSet
    rw [BitVec.toNat_ofNat, Nat.mod_eq_of_lt (by omega), Nat.testBit_eq_decide_div_mod_eq]
    simp
    omega
  refine ⟨hbit, ?_⟩
  rw [rleLength, if_neg (by simp [hbit]), BitVec.toNat_ofNat]
  omega

/-- The command byte that opens a run. -/
def runHead : Run → Byte
  | .same n _ => BitVec.ofNat 8 (257 - n)
  | .plain bs => BitVec.ofNat 8 (bs.length - 1)

/-- What follows a run's command byte in the stream. -/
def runTail : Run → List Byte
  | .same _ x => [x]
  | .plain bs => bs

theorem run_coded_eq (r : Run) : r.coded = runHead r :: runTail r := by cases r <;> rfl

/-- R119: the command byte of a run says how many bytes the run stands for. -/
theorem rleLength_runHead {r : Run} (h : r.ok) : rleLength (runHead r) = r.plainBytes.length := by
  cases r with
  | same n x => exact (rleLength_same h).2.trans List.length_replicate.symm
  | plain bs => exact (rleLength_plain h).2

/-- R119: a run stands for at least one byte. -/
theorem run_plainBytes_pos {r : Run} (h : r.ok) : 0 < r.plainBytes.length := by
  cases r with
  | same n x =>
    obtain ⟨hn, -⟩ : 2 ≤ n ∧ n ≤ 129 := h
    simp [Run.plainBytes]
    omega
  | plain bs =>
    obtain ⟨hn, -⟩ : 1 ≤ bs.length ∧ bs.length ≤ 128 := h
    exact hn

/-- R231: after a run's command byte, its bytes are written. -/
theorem rleBytes_pours {r : Run} (hr : r.ok) (h : Pours v st dst cap total w0 (runTail r ++ bs) out w)
    (hfit : out.length + r.plainBytes.length ≤ cap) :
    ∃ w', rleBytes v st dst (runHead r) w = .ok () w' ∧ Pours v st dst cap total w0 bs (out ++ r.plainBytes) w' := by
  have hlen := rleLength_runHead hr
  have hplace := h.fits hfit (run_plainBytes_pos hr)
  unfold rleBytes
  rw [hlen]
  cases r with
  | same n x =>
    have hbit : bitSet (runHead (.same n x)) 7 = true := (rleLength_same hr).1
    obtain ⟨hread, hnext⟩ := h.inByte
    have hn : (Run.same n x).plainBytes.length = n := List.length_replicate
    refine ⟨_, ?_, hnext.append hfit⟩
    rw [hn] at hplace ⊢
    rw [if_pos hbit]
    exact (eng_bind_ok hread).trans (rleRepeat_ok hplace hnext.quota_eq)
  | plain cs =>
    have hbit : bitSet (runHead (.plain cs)) 7 = false := (rleLength_plain hr).1
    have hap : st.base + w.icur + cs.length ≤ dst + w.ocur ∨ dst + w.ocur + cs.length ≤ st.base + w.icur := by
      have hregions := h.apart
      have hsum := h.consumed
      have ho := h.ocur_eq
      unfold Machine.apart at hregions
      simp only [runTail, Run.plainBytes, List.length_append] at hsum hfit
      omega
    refine ⟨_, ?_, h.advance.append hfit⟩
    rw [if_neg (by simp [hbit])]
    exact rleLiteral_ok h.feeds.take h.quota_eq hplace hap

/-- R231: a run that fits in its row is read and written. -/
theorem rleRun_pours {r : Run} {room : Nat} (hr : r.ok) (h : Pours v st dst cap total w0 (r.coded ++ bs) out w)
    (hroom : r.plainBytes.length ≤ room) (hfit : out.length + r.plainBytes.length ≤ cap) :
    ∃ w', rleRun v st dst room w = .ok r.plainBytes.length w'
      ∧ Pours v st dst cap total w0 bs (out ++ r.plainBytes) w' := by
  rw [run_coded_eq] at h
  obtain ⟨hread, hnext⟩ := h.inByte
  obtain ⟨w', hbytes, hdone⟩ := rleBytes_pours hr hnext hfit
  refine ⟨w', ?_, hdone⟩
  have hcheck : decide (room < rleLength (runHead r)) = false := by
    rw [rleLength_runHead hr]
    exact decide_eq_false (Nat.not_lt.2 hroom)
  rw [← rleLength_runHead hr]
  exact (eng_bind_ok (inputCursor_apply w)).trans ((eng_bind_ok hread).trans
    ((eng_bind_ok (raiseIf_pass hcheck)).trans (eng_bind_ok hbytes)))

/-- R231: the runs that fill a row are read and written. -/
theorem rleRow_pours {row : List Run} {pitch emitted n : Nat} (hok : ∀ r ∈ row, r.ok)
    (hfull : emitted + (row.flatMap Run.plainBytes).length = pitch) (hn : pitch ≤ emitted + n)
    (h : Pours v st dst cap total w0 (row.flatMap Run.coded ++ bs) out w)
    (hfit : out.length + (row.flatMap Run.plainBytes).length ≤ cap) :
    ∃ w', rleRow v st dst pitch n emitted w = .ok () w'
      ∧ Pours v st dst cap total w0 bs (out ++ row.flatMap Run.plainBytes) w' := by
  induction row generalizing emitted n out w with
  | nil =>
    refine ⟨w, ?_, by simpa using h⟩
    cases n with
    | zero => rfl
    | succ n => rw [rleRow, if_neg (by simp at hfull; omega)]; rfl
  | cons r row ih =>
    have hr := hok r List.mem_cons_self
    have hpos := run_plainBytes_pos hr
    simp only [List.flatMap_cons, List.length_append, List.append_assoc] at hfull hfit h
    obtain ⟨w1, hrun, h1⟩ := rleRun_pours (room := pitch - emitted) hr h (by omega) (by omega)
    cases n with
    | zero => omega
    | succ n =>
      obtain ⟨w2, hrow, h2⟩ := ih (emitted := emitted + r.plainBytes.length) (n := n)
        (fun q hq => hok q (List.mem_cons_of_mem r hq)) (by omega) (by omega) h1 (by rw [List.length_append]; omega)
      refine ⟨w2, ?_, by simpa using h2⟩
      rw [rleRow, if_pos (by omega), eng_bind_ok hrun, hrow]

/-- R231: rows that are each filled exactly are read and written one after the other. -/
theorem rleRows_pours {rows : List (List Run)} {pitch : Nat}
    (hrows : ∀ row ∈ rows, (row.flatMap Run.plainBytes).length = pitch ∧ ∀ r ∈ row, r.ok)
    (h : Pours v st dst cap total w0 (rows.flatten.flatMap Run.coded ++ bs) out w)
    (hfit : out.length + (rows.flatten.flatMap Run.plainBytes).length ≤ cap) :
    ∃ w', repeatTimes rows.length (rleRow v st dst pitch pitch 0) w = .ok () w'
      ∧ Pours v st dst cap total w0 bs (out ++ rows.flatten.flatMap Run.plainBytes) w' := by
  induction rows generalizing out w with
  | nil => exact ⟨w, rfl, by simpa using h⟩
  | cons row rows ih =>
    obtain ⟨hfull, hok⟩ := hrows row List.mem_cons_self
    simp only [List.flatten_cons, List.flatMap_append, List.length_append, List.append_assoc] at hfit h
    obtain ⟨w1, hrow, h1⟩ := rleRow_pours (pitch := pitch) (emitted := 0) (n := pitch) hok (by omega)
      (by omega) h (by omega)
    obtain ⟨w2, hrest, h2⟩ := ih (fun q hq => hrows q (List.mem_cons_of_mem row hq)) h1
      (by rw [List.length_append]; omega)
    refine ⟨w2, ?_, by simpa using h2⟩
    rw [List.length_cons, repeatTimes_succ, eng_bind_ok hrow, hrest]

end

/-- Rows of one length have as many bytes as rows times that length. -/
theorem rows_plainBytes_length {rows : List (List Run)} {pitch : Nat}
    (hrows : ∀ row ∈ rows, (row.flatMap Run.plainBytes).length = pitch) :
    (rows.flatten.flatMap Run.plainBytes).length = rows.length * pitch := by
  induction rows with
  | nil => simp
  | cons row rows ih =>
    have hrow := hrows row List.mem_cons_self
    have hrest := ih fun q hq => hrows q (List.mem_cons_of_mem row hq)
    rw [List.flatten_cons, List.flatMap_append, List.length_append, hrow, hrest, List.length_cons]
    ring

/-- Settles O47: the checks pass, the rows pour into the output, and the cursor then stands behind the stream. -/
theorem rleDecodeInvertsItsRuns : Obligations.RleDecodeInvertsItsRuns := by
  intro s rows src dst stream out hwidth hheight hcount hrows hholds hlen hcap hread hwrite hap
  have hout : out.length = s.snap.blitH * s.snap.pitch :=
    hcount ▸ rows_plainBytes_length fun row hrow => (hrows row hrow).1
  have hstart : Pours s.view s.view.source dst out.length stream.length (s.work none) (stream ++ []) []
      (s.work none) := by
    rw [List.append_nil]
    exact pours_start hholds hlen hread hwrite hap
  obtain ⟨w, hrun, hend⟩ := rleRows_pours hrows hstart (by rw [List.length_nil, Nat.zero_add])
  have hicur : w.icur = stream.length := hend.consumed
  have hzero : s.snap.zeroDim = false := by simp [Params.zeroDim, hwidth, hheight]
  have hspace : decide (s.snap.dstLen.toNat < s.snap.blitH * s.snap.pitch) = false :=
    decide_eq_false (Nat.not_lt.2 (hout ▸ hcap))
  have hdecode : rleDecode s.view s.view.source dst s.snap.blitH s.snap.pitch (s.work none) = .ok () w := by
    unfold rleDecode
    rw [eng_bind_ok (setOutputCursor_apply 0 _)]
    exact hcount ▸ hrun
  have hbody : bodyRleDecode s.view (s.work none)
      = .ok { result0 := some (word stream.length), result1 := some (word out.length) } w := by
    rw [← hicur, hout]
    exact (eng_bind_ok (raiseIf_pass hzero)).trans ((eng_bind_ok (raiseIf_pass hspace)).trans
      ((eng_bind_ok hdecode).trans (eng_bind_ok (inputCursor_apply w))))
  obtain ⟨hbytes, hframe⟩ := writeList_spec s.mem dst out
  refine ⟨s.runCmd bodyRleDecode, rfl, ?_, hout, ?_⟩
  · rw [runCmd_ok hbody, hend.land]
    rfl
  · rw [runCmd_ok hbody, hend.land]
    exact ⟨hbytes, hframe⟩

end Sys2Proof.Proofs
end

section
/-! PROOFS. HSQ_DECOMPRESS: the decoder's working state along a stream of bits and bytes (`Inflates`), what each token
does to it, and how the command ends. -/

namespace Sys2Proof.Proofs

open Sys2Proof.Machine Sys2Proof.Claims

/-! ### Bits and the stream's layout (R116, R164) -/

theorem bitsValue_lt (bs : List Bool) : bitsValue bs < 2 ^ bs.length := by
  induction bs with
  | nil => simp [bitsValue]
  | cons b bs ih =>
    have hb : b.toNat ≤ 1 := Bool.toNat_le b
    rw [bitsValue, List.length_cons, Nat.pow_succ]
    omega

/-- R83: a word's two bytes spell the word. -/
theorem le16_of_value {n : Nat} (h : n < 65536) : le16 (BitVec.ofNat 8 n) (BitVec.ofNat 8 (n / 256)) = n := by
  simp only [le16, BitVec.toNat_ofNat]
  omega

/-- R83: a word's two bytes in a stream spell the word. -/
theorem le16_extractLsb' (q : BitVec 16) : le16 (q.extractLsb' 0 8) (q.extractLsb' 8 8) = q.toNat := by
  simp only [le16, BitVec.extractLsb'_toNat, Nat.shiftRight_eq_div_pow]
  omega

/-- R164: taking a bit off a queue gives its lowest bit and leaves the others. -/
theorem queue_head {q : BitVec 16} {b : Bool} {r : Nat} (h : q.toNat = b.toNat + 2 * r) :
    bitSet q 0 = b ∧ (q >>> 1).toNat = r := by
  rw [bitSet, BitVec.toNat_ushiftRight, Nat.shiftRight_eq_div_pow, h, Nat.testBit_zero]
  cases b with
  | false => simp
  | true =>
    refine ⟨by simp, ?_⟩
    rw [Bool.toNat_true]
    omega

theorem layout_byte (n : Nat) (x : Byte) (is : List Item) : layout n (.byte x :: is) = x :: layout n is := by
  cases n <;> rfl

theorem layout_bit_succ (n : Nat) (b : Bool) (is : List Item) : layout (n + 1) (.bit b :: is) = layout n is := rfl

/-- R164: the refill word that stands before a bit when none is left. -/
def refillValue (b : Bool) (is : List Item) : Nat := bitsValue ((b :: itemBits is).take 16)

theorem layout_bit_zero (b : Bool) (is : List Item) :
    layout 0 (.bit b :: is)
      = BitVec.ofNat 8 (refillValue b is) :: BitVec.ofNat 8 (refillValue b is / 256) :: layout 15 is := rfl

theorem refillValue_lt (b : Bool) (is : List Item) : refillValue b is < 65536 := by
  have hlen : ((b :: itemBits is).take 16).length ≤ 16 := List.length_take_le _ _
  exact (bitsValue_lt _).trans_le (Nat.pow_le_pow_right (by decide) hlen)

/-- The layout of a stream holds at least one byte for each of its byte items. -/
theorem countP_byte_le_layout (n : Nat) (is : List Item) :
    is.countP (fun i => i matches .byte _) ≤ (layout n is).length := by
  induction is generalizing n with
  | nil => simp
  | cons i is ih =>
    cases i with
    | byte x =>
      rw [layout_byte, List.countP_cons_of_pos rfl, List.length_cons]
      exact Nat.succ_le_succ (ih n)
    | bit b =>
      rw [List.countP_cons_of_neg (by simp)]
      cases n with
      | zero =>
        have := ih 15
        rw [layout_bit_zero, List.length_cons, List.length_cons]
        omega
      | succ n => exact ih n

/-- R116: every token holds a byte item, so a stream is no shorter than its tokens. -/
theorem tokens_length_le_layout (n : Nat) (ks : List Token) (is : List Item) :
    ks.length ≤ (layout n (ks.flatMap Token.items ++ is)).length := by
  refine le_trans ?_ (countP_byte_le_layout n _)
  rw [List.countP_append]
  refine le_trans ?_ (Nat.le_add_right _ _)
  induction ks with
  | nil => simp
  | cons k ks ih =>
    have hk : 1 ≤ k.items.countP fun i => i matches .byte _ := by
      cases k <;> simp [Token.items, wordItems]
    rw [List.flatMap_cons, List.countP_append, List.length_cons]
    omega

/-! ### Tokens and the output they stand for (R165 to R167) -/

theorem copyForward_length (dist n : Nat) (out : List Byte) : (copyForward dist n out).length = out.length + n := by
  induction n generalizing out with
  | zero => rfl
  | succ n ih =>
    rw [copyForward, ih, List.length_append, List.length_singleton]
    omega

/-- A copy leaves the output before it. -/
theorem prefix_copyForward (dist n : Nat) (out : List Byte) : out <+: copyForward dist n out := by
  induction n generalizing out with
  | zero => exact List.prefix_rfl
  | succ n ih => exact (List.prefix_append _ _).trans (ih _)

/-- R166: a back-reference reaches back at least one byte. -/
theorem copy_dist_pos {k : Token} {d n : Nat} (h : k.copy = some (d, n)) : 1 ≤ d := by
  cases k <;> simp only [Token.copy, Option.some.injEq, Prod.mk.injEq, reduceCtorEq] at h <;> omega

theorem apply_of_copy {k : Token} {d n : Nat} (h : k.copy = some (d, n)) (out : List Byte) :
    k.apply out = copyForward d n out := by
  cases k <;> simp only [Token.copy, Option.some.injEq, Prod.mk.injEq, reduceCtorEq] at h <;>
    simp [Token.apply, Token.copy, h]

/-- A token is a literal or a back-reference. -/
theorem token_cases (k : Token) : (∃ x, k = .literal x) ∨ ∃ d n, k.copy = some (d, n) := by
  cases k with
  | literal x => exact .inl ⟨x, rfl⟩
  | short c1 c0 b => exact .inr ⟨_, _, rfl⟩
  | long w => exact .inr ⟨_, _, rfl⟩
  | extended w e => exact .inr ⟨_, _, rfl⟩

/-- A token leaves the output before it. -/
theorem prefix_apply (k : Token) (out : List Byte) : out <+: k.apply out := by
  rcases token_cases k with ⟨x, rfl⟩ | ⟨d, n, hk⟩
  · exact List.prefix_append _ _
  · rw [apply_of_copy hk]
    exact prefix_copyForward d n out

theorem prefix_expandTokens (ks : List Token) (out : List Byte) : out <+: expandTokens out ks := by
  induction ks generalizing out with
  | nil => exact List.prefix_rfl
  | cons k ks ih => exact (prefix_apply k out).trans (ih _)

/-! ### The decoder along its stream -/

/-- HSQ_DECOMPRESS has written `out`, of at most `usize` bytes at `dst`, and the items `is` are still to come: their bits
stand in the queue as far as it reaches, and the stream feeds their layout. -/
structure Inflates (v : View) (st : Stream) (dst usize total : Nat) (w0 : Work) (is : List Item) (out : List Byte)
    (w : Work) : Prop where
  pours : Pours v st dst usize total w0 (layout w.qbits is) out w
  queue : w.queue.toNat = bitsValue ((itemBits is).take w.qbits)
  clean : ∀ k, k < usize → dst + k ∉ v.contested

section
variable {v : View} {st : Stream} {dst usize total : Nat} {w0 w : Work} {is : List Item} {out : List Byte}

/-- The bit queue is no part of what a stream and its output are. -/
theorem Pours.setQueue {bs : List Byte} (h : Pours v st dst usize total w0 bs out w) (q : BitVec 16) (n : Nat) :
    Pours v st dst usize total w0 bs out { w with queue := q, qbits := n } where
  quota := h.quota
  room := h.room
  apart := h.apart
  frame := by rw [h.frame]
  feeds := h.feeds.congr rfl fun _ _ => rfl
  consumed := h.consumed

/-- R164: `GetBit()` gives the next bit item, after a refill where none is left. -/
theorem Inflates.getBit {b : Bool} (h : Inflates v st dst usize total w0 (.bit b :: is) out w) :
    ∃ w', getBit v st w = .ok b w' ∧ Inflates v st dst usize total w0 is out w' := by
  have hqueue := h.queue
  have hpours := h.pours
  cases hn : w.qbits with
  | succ n =>
    rw [hn] at hqueue hpours
    rw [layout_bit_succ] at hpours
    obtain ⟨hbit, hrest⟩ := queue_head hqueue
    have hread := getBit_ok (v := v) (st := st) (w := w) (by omega)
    rw [hbit, hn] at hread
    exact ⟨_, hread, hpours.setQueue _ _, hrest, h.clean⟩
  | zero =>
    rw [hn, layout_bit_zero] at hpours
    have hread := getBit_refill hn hpours.feeds
    have hvalue : (BitVec.ofNat 16 (refillValue b is)).toNat = b.toNat + 2 * bitsValue ((itemBits is).take 15) := by
      rw [BitVec.toNat_ofNat, Nat.mod_eq_of_lt (refillValue_lt b is)]
      rfl
    obtain ⟨hbit, hrest⟩ := queue_head hvalue
    rw [le16_of_value (refillValue_lt b is), hbit] at hread
    exact ⟨_, hread, (hpours.advance (cs := [_, _])).setQueue _ _, hrest, h.clean⟩

/-- R10: `InByte()` gives the next byte item. -/
theorem Inflates.inByte {x : Byte} (h : Inflates v st dst usize total w0 (.byte x :: is) out w) :
    ∃ w', inByte v st w = .ok x w' ∧ Inflates v st dst usize total w0 is out w' := by
  have hpours := h.pours
  rw [layout_byte] at hpours
  obtain ⟨hread, hnext⟩ := hpours.inByte
  exact ⟨_, hread, hnext, h.queue, h.clean⟩

/-- R83: `InWord()` gives the word that the next two byte items spell. -/
theorem Inflates.inWord {q : BitVec 16} (h : Inflates v st dst usize total w0 (wordItems q ++ is) out w) :
    ∃ w', inWord v st w = .ok q.toNat w' ∧ Inflates v st dst usize total w0 is out w' := by
  obtain ⟨w1, hlow, h1⟩ := h.inByte
  obtain ⟨w2, hhigh, h2⟩ := h1.inByte
  refine ⟨w2, ?_, h2⟩
  rw [← le16_extractLsb' q]
  exact (eng_bind_ok hlow).trans (eng_bind_ok hhigh)

/-! ### Output (R167) -/

/-- R167: a byte that fits is put behind the output. -/
theorem Inflates.put {x : Byte} (h : Inflates v st dst usize total w0 is out w) (hfit : out.length < usize) :
    ∃ w', hsqPut v dst usize x w = .ok () w' ∧ Inflates v st dst usize total w0 is (out ++ [x]) w' := by
  have ho := h.pours.ocur_eq
  have hplace := h.pours.room w.ocur (by omega)
  exact ⟨_, hsqPut_ok (by omega) hplace h.pours.quota_eq, h.pours.append (xs := [x]) hfit, h.queue, h.clean⟩

/-- R167: a byte past the declared size raises HSQ_OVERRUN. -/
theorem Inflates.put_overrun {x : Byte} (h : Inflates v st dst usize total w0 is out w) (hfull : out.length = usize) :
    hsqPut v dst usize x w = .error (.raised .hsqOverrun usize) w := by
  have ho := h.pours.ocur_eq
  have hcheck : decide (usize ≤ w.ocur) = true := decide_eq_true (by omega)
  have herr : raiseIf (decide (usize ≤ w.ocur)) .hsqOverrun w.ocur w = .error (.raised .hsqOverrun usize) w := by
    rw [raiseIf_fail hcheck, ho, hfull]
  exact (eng_bind_ok (outputCursor_apply w)).trans (eng_bind_error herr)

/-- R167: the byte `dist` behind the output cursor is a byte of the output. -/
theorem Inflates.read_back {dist : Nat} (h : Inflates v st dst usize total w0 is out w) (hpos : 1 ≤ dist)
    (hdist : dist ≤ out.length) (hfit : out.length ≤ usize) :
    memRead v (dst + w.ocur - dist) w = .ok (out.getD (out.length - dist) 0) w := by
  have ho := h.pours.ocur_eq
  have hplace : dst + w.ocur - dist = dst + (out.length - dist) := by omega
  have hbyte : w.mem.read (dst + (out.length - dist)) = out.getD (out.length - dist) 0 := by
    rw [h.pours.mem_eq, Memory.read_writeList _ _ (by omega), List.getD_eq_getElem _ _ (by omega)]
  rw [hplace, memRead_ok (h.pours.room _ (by omega)) (h.clean _ (by omega)), hbyte]

/-- R167: a copy that fits re-reads the output it extends. -/
theorem Inflates.copyBytes {dist n : Nat} (h : Inflates v st dst usize total w0 is out w) (hpos : 1 ≤ dist)
    (hdist : dist ≤ out.length) (hfit : out.length + n ≤ usize) :
    ∃ w', repeatTimes n (hsqCopyByte v dst usize dist) w = .ok () w'
      ∧ Inflates v st dst usize total w0 is (copyForward dist n out) w' := by
  induction n generalizing out w with
  | zero => exact ⟨w, rfl, h⟩
  | succ n ih =>
    obtain ⟨w1, hput, h1⟩ := h.put (x := out.getD (out.length - dist) 0) (by omega)
    have hbyte : hsqCopyByte v dst usize dist w = .ok () w1 :=
      (eng_bind_ok (outputCursor_apply w)).trans ((eng_bind_ok (h.read_back hpos hdist (by omega))).trans hput)
    obtain ⟨w2, hrest, h2⟩ := ih h1 (by rw [List.length_append]; omega)
      (by rw [List.length_append, List.length_singleton]; omega)
    exact ⟨w2, by rw [repeatTimes_succ, eng_bind_ok hbyte, hrest], h2⟩

/-- R167: a copy past the declared size raises HSQ_OVERRUN, and the bytes up to that size are written. -/
theorem Inflates.copyBytes_overrun {dist n : Nat} (h : Inflates v st dst usize total w0 is out w) (hpos : 1 ≤ dist)
    (hdist : dist ≤ out.length) (hfit : out.length ≤ usize) (hover : usize < out.length + n) :
    ∃ w', repeatTimes n (hsqCopyByte v dst usize dist) w = .error (.raised .hsqOverrun usize) w'
      ∧ Inflates v st dst usize total w0 is ((copyForward dist n out).take usize) w' := by
  induction n generalizing out w with
  | zero => omega
  | succ n ih =>
    have hread := h.read_back hpos hdist hfit
    by_cases hfull : out.length = usize
    · have hbyte : hsqCopyByte v dst usize dist w = .error (.raised .hsqOverrun usize) w :=
        (eng_bind_ok (outputCursor_apply w)).trans ((eng_bind_ok hread).trans (h.put_overrun hfull))
      refine ⟨w, by rw [repeatTimes_succ, eng_bind_error hbyte], ?_⟩
      rw [← hfull, ← List.prefix_iff_eq_take.1 (prefix_copyForward dist (n + 1) out)]
      exact hfull ▸ h
    · obtain ⟨w1, hput, h1⟩ := h.put (x := out.getD (out.length - dist) 0) (by omega)
      have hbyte : hsqCopyByte v dst usize dist w = .ok () w1 :=
        (eng_bind_ok (outputCursor_apply w)).trans ((eng_bind_ok hread).trans hput)
      have hlen : (out ++ [out.getD (out.length - dist) 0]).length = out.length + 1 := List.length_append
      obtain ⟨w2, hrest, h2⟩ := ih h1 (by omega) (by omega) (by omega)
      exact ⟨w2, by rw [repeatTimes_succ, eng_bind_ok hbyte, hrest], h2⟩

/-- R167: a copy whose distance lies in the output passes the check. -/
theorem Inflates.hsqCopy_eq {dist n : Nat} (h : Inflates v st dst usize total w0 is out w) (hdist : dist ≤ out.length) :
    hsqCopy v dst usize dist n w = repeatTimes n (hsqCopyByte v dst usize dist) w := by
  have ho := h.pours.ocur_eq
  have hcheck : decide (w.ocur < dist) = false := decide_eq_false (by omega)
  exact (eng_bind_ok (outputCursor_apply w)).trans (eng_bind_ok (raiseIf_pass hcheck))

/-- R167: a distance that reaches before the output raises HSQ_BAD_DISTANCE. -/
theorem Inflates.hsqCopy_badDistance {dist n : Nat} (h : Inflates v st dst usize total w0 is out w)
    (hdist : out.length < dist) :
    hsqCopy v dst usize dist n w = .error (.raised .hsqBadDistance out.length) w := by
  have ho := h.pours.ocur_eq
  have hcheck : decide (w.ocur < dist) = true := decide_eq_true (by omega)
  have herr : raiseIf (decide (w.ocur < dist)) .hsqBadDistance w.ocur w = .error (.raised .hsqBadDistance out.length) w := by
    rw [raiseIf_fail hcheck, ho]
  exact (eng_bind_ok (outputCursor_apply w)).trans (eng_bind_error herr)

/-! ### Tokens (R165) -/

/-- R165: what a token does once it has been read. -/
def tokenOutput (v : View) (dst usize : Nat) (k : Token) : Eng Unit :=
  match k, k.copy with
  | .literal x, _ => hsqPut v dst usize x
  | _, some (dist, n) => hsqCopy v dst usize dist n
  | _, none => pure ()

theorem tokenOutput_of_copy {k : Token} {d n : Nat} (h : k.copy = some (d, n)) :
    tokenOutput v dst usize k = hsqCopy v dst usize d n := by
  cases k <;> simp only [Token.copy, Option.some.injEq, Prod.mk.injEq, reduceCtorEq] at h <;>
    simp [tokenOutput, Token.copy, h]

/-- R165: the selector bits and the word of the long form. -/
theorem Inflates.long_word {q : BitVec 16}
    (h : Inflates v st dst usize total w0 (.bit false :: .bit true :: wordItems q ++ is) out w) :
    ∃ w', Inflates v st dst usize total w0 is out w' ∧ hsqToken v st dst usize w
      = (if q.toNat % 8 = 0 then do
          let e ← Machine.inByte v st
          if e.toNat = 0 then pure true
          else do
            hsqCopy v dst usize (8192 - q.toNat / 8) (e.toNat + 2)
            pure false
        else do
          hsqCopy v dst usize (8192 - q.toNat / 8) (q.toNat % 8 + 2)
          pure false) w' := by
  obtain ⟨w1, hliteral, h1⟩ := h.getBit
  obtain ⟨w2, hlong, h2⟩ := h1.getBit
  obtain ⟨w3, hword, h3⟩ := h2.inWord
  exact ⟨w3, h3, (eng_bind_ok hliteral).trans ((eng_bind_ok hlong).trans (eng_bind_ok hword))⟩

/-- R116, R165: a token of the grammar is read off the stream, and what is left to do is its output. -/
theorem Inflates.token {k : Token} (hk : k.grammatical)
    (h : Inflates v st dst usize total w0 (k.items ++ is) out w) :
    ∃ w', Inflates v st dst usize total w0 is out w'
      ∧ hsqToken v st dst usize w = (tokenOutput v dst usize k >>= fun _ => pure false) w' := by
  cases k with
  | literal x =>
    obtain ⟨w1, hbit, h1⟩ := h.getBit
    obtain ⟨w2, hbyte, h2⟩ := h1.inByte
    exact ⟨w2, h2, (eng_bind_ok hbit).trans (eng_bind_ok hbyte)⟩
  | short c1 c0 b =>
    obtain ⟨w1, hliteral, h1⟩ := h.getBit
    obtain ⟨w2, hlong, h2⟩ := h1.getBit
    obtain ⟨w3, hc1, h3⟩ := h2.getBit
    obtain ⟨w4, hc0, h4⟩ := h3.getBit
    obtain ⟨w5, hbyte, h5⟩ := h4.inByte
    have hshort : hsqShort v st dst usize w2 = tokenOutput v dst usize (.short c1 c0 b) w5 :=
      (eng_bind_ok hc1).trans ((eng_bind_ok hc0).trans (eng_bind_ok hbyte))
    refine ⟨w5, h5, (eng_bind_ok hliteral).trans ((eng_bind_ok hlong).trans ?_)⟩
    show (hsqShort v st dst usize >>= fun _ => pure false) w2 = _
    rw [eng_bind, eng_bind, hshort]
  | long q =>
    obtain ⟨w1, h1, heq⟩ := Inflates.long_word h
    rw [if_neg hk] at heq
    exact ⟨w1, h1, heq⟩
  | extended q e =>
    obtain ⟨hq, he⟩ := hk
    have h' : Inflates v st dst usize total w0 (.bit false :: .bit true :: wordItems q ++ (.byte e :: is)) out w := h
    obtain ⟨w1, h1, heq⟩ := h'.long_word
    obtain ⟨w2, hbyte, h2⟩ := h1.inByte
    rw [if_pos hq, eng_bind_ok hbyte, if_neg he] at heq
    exact ⟨w2, h2, heq⟩

/-- R165: the end token ends the token loop. -/
theorem Inflates.endToken {q : BitVec 16} (hq : q.toNat % 8 = 0)
    (h : Inflates v st dst usize total w0 (endItems q ++ is) out w) :
    ∃ w', Inflates v st dst usize total w0 is out w' ∧ hsqToken v st dst usize w = .ok true w' := by
  have h' : Inflates v st dst usize total w0 (.bit false :: .bit true :: wordItems q ++ (.byte 0 :: is)) out w := h
  obtain ⟨w1, h1, heq⟩ := h'.long_word
  obtain ⟨w2, hbyte, h2⟩ := h1.inByte
  have hzero : (0 : Byte).toNat = 0 := rfl
  rw [if_pos hq, eng_bind_ok hbyte, if_pos hzero] at heq
  exact ⟨w2, h2, heq⟩

/-- R167: a token that conforms and fits extends the output. -/
theorem Inflates.output {k : Token} (hk : k.conforms out) (h : Inflates v st dst usize total w0 is out w)
    (hfit : (k.apply out).length ≤ usize) :
    ∃ w', tokenOutput v dst usize k w = .ok () w' ∧ Inflates v st dst usize total w0 is (k.apply out) w' := by
  obtain ⟨-, hreach⟩ := hk
  rcases token_cases k with ⟨x, rfl⟩ | ⟨d, n, hcopy⟩
  · exact h.put (by simpa [Token.apply] using hfit)
  · rw [apply_of_copy hcopy, copyForward_length] at hfit
    have hdist := hreach d n hcopy
    rw [tokenOutput_of_copy hcopy, apply_of_copy hcopy, h.hsqCopy_eq hdist]
    exact h.copyBytes (copy_dist_pos hcopy) hdist hfit

/-- R167: a token that conforms and does not fit raises HSQ_OVERRUN, and the bytes up to the declared size are written. -/
theorem Inflates.output_overrun {k : Token} (hk : k.conforms out) (h : Inflates v st dst usize total w0 is out w)
    (hfit : out.length ≤ usize) (hover : usize < (k.apply out).length) :
    ∃ w', tokenOutput v dst usize k w = .error (.raised .hsqOverrun usize) w'
      ∧ Inflates v st dst usize total w0 is ((k.apply out).take usize) w' := by
  obtain ⟨-, hreach⟩ := hk
  rcases token_cases k with ⟨x, rfl⟩ | ⟨d, n, hcopy⟩
  · have hfull : out.length = usize := by
      simp only [Token.apply, List.length_append, List.length_singleton] at hover
      omega
    refine ⟨w, h.put_overrun hfull, ?_⟩
    have hout : (Token.apply out (.literal x)).take usize = out := hfull ▸ List.take_left
    exact hout.symm ▸ h
  · rw [apply_of_copy hcopy, copyForward_length] at hover
    have hdist := hreach d n hcopy
    rw [tokenOutput_of_copy hcopy, apply_of_copy hcopy, h.hsqCopy_eq hdist]
    exact h.copyBytes_overrun (copy_dist_pos hcopy) hdist hfit hover

/-! ### The token loop (R165) -/

/-- One turn of the token loop, by the token it reads. -/
theorem hsqTokens_succ_of_token {k : Token} {n : Nat} {w' : Work}
    (h : hsqToken v st dst usize w = (tokenOutput v dst usize k >>= fun _ => pure false) w') :
    hsqTokens v st dst usize (n + 1) w
      = (tokenOutput v dst usize k >>= fun _ => hsqTokens v st dst usize n) w' := by
  show (hsqToken v st dst usize >>= fun ended => if ended then pure () else hsqTokens v st dst usize n) w = _
  rw [eng_bind, h, eng_bind, eng_bind]
  cases tokenOutput v dst usize k w' <;> rfl

/-- The token loop over tokens that conform: it goes on behind them, with their output written. -/
theorem Inflates.tokens {ks : List Token} (hks : conforming out ks)
    (h : Inflates v st dst usize total w0 (ks.flatMap Token.items ++ is) out w)
    (hfit : (expandTokens out ks).length ≤ usize) (n : Nat) :
    ∃ w', hsqTokens v st dst usize (ks.length + n) w = hsqTokens v st dst usize n w'
      ∧ Inflates v st dst usize total w0 is (expandTokens out ks) w' := by
  induction ks generalizing out w with
  | nil => exact ⟨w, by rw [List.length_nil, Nat.zero_add], h⟩
  | cons k ks ih =>
    obtain ⟨hk, hrest⟩ := hks
    rw [List.flatMap_cons, List.append_assoc] at h
    obtain ⟨w1, h1, htoken⟩ := h.token hk.1
    have hle : (k.apply out).length ≤ usize := (prefix_expandTokens ks (k.apply out)).length_le.trans hfit
    obtain ⟨w2, hout, h2⟩ := h1.output hk hle
    obtain ⟨w3, hloop, h3⟩ := ih hrest h2 hfit
    refine ⟨w3, ?_, h3⟩
    rw [List.length_cons, Nat.add_right_comm, hsqTokens_succ_of_token htoken, eng_bind_ok hout, hloop]

/-! ### The header (R161) -/

/-- R161: the header parse reads the six bytes the stream feeds. -/
theorem parseHeader_feeds {h0 h1 h2 h3 h4 h5 : Byte} {bs : List Byte}
    (h : Feeds v st w ([h0, h1, h2, h3, h4, h5] ++ bs)) :
    parseHeader v st w = .ok (hsqHeaderOf h0 h1 h2 h3 h4 h5) { w with icur := w.icur + 6 } :=
  (eng_bind_ok (inByte_feeds h)).trans <| (eng_bind_ok (inByte_feeds h.tail)).trans <|
    (eng_bind_ok (inByte_feeds h.tail.tail)).trans <| (eng_bind_ok (inByte_feeds h.tail.tail.tail)).trans <|
    (eng_bind_ok (inByte_feeds h.tail.tail.tail.tail)).trans <|
    eng_bind_ok (inByte_feeds h.tail.tail.tail.tail.tail)

end

/-! ### How HSQ_DECOMPRESS ends (R168) -/

/-- R161: the first six bytes of a source of at least six are fed, and they spell the header of memory. -/
theorem parseHeader_of_readable {s : State} (hlen : 6 ≤ s.snap.srcLen.toNat) (hr : s.readable s.snap.srcAddr.toNat 6) :
    parseHeader s.view s.view.source (s.work none)
      = .ok (headerAt s.snap s.mem) { s.work none with icur := 6 } := by
  have hfeeds : Feeds s.view s.view.source (s.work none)
      ((List.ofFn fun k : Fin 6 => s.byte (s.snap.srcAddr.toNat + k)) ++ []) := by
    rw [List.append_nil]
    refine feeds_of_holds (w := s.work none) rfl ?_ ?_ ?_
    · intro k b hb
      obtain ⟨hk, rfl⟩ := List.getElem?_eq_some_iff.1 hb
      rw [List.getElem_ofFn]
      rfl
    · rw [List.length_ofFn]
      exact hlen
    · rw [List.length_ofFn]
      exact hr
  exact parseHeader_feeds hfeeds

/-- R168: an output that does not fit in DST_LEN is an error before anything is written. -/
theorem hsqDecompress_overflow {s : State} (hlen : 6 ≤ s.snap.srcLen.toNat) (hr : s.readable s.snap.srcAddr.toNat 6)
    (hover : s.snap.dstLen.toNat < hsqOutLen s.snap s.mem) :
    exec .hsqDecompress s = .next (failed s 0x03 (BitVec.ofNat 32 (hsqOutLen s.snap s.mem))) := by
  have hbody : bodyHsqDecompress s.view (s.work none)
      = .error (.raised .dstOverflow (hsqOutLen s.snap s.mem : Nat)) { s.work none with icur := 6 } := by
    refine (eng_bind_ok (parseHeader_of_readable hlen hr)).trans ?_
    unfold hsqOutLen at hover ⊢
    split at hover
    next hok =>
      rw [if_pos hok, if_pos hok]
      exact eng_bind_error (raiseIf_fail (decide_eq_true hover))
    next hok =>
      rw [if_neg hok, if_neg hok]
      exact eng_bind_error (raiseIf_fail (decide_eq_true hover))
  show Host.Outcome.next (s.runCmd bodyHsqDecompress) = _
  rw [runCmd_raised hbody, raiseError_natCast]
  rfl

/-- The end of an HSQ_DECOMPRESS whose pseudocode stopped in an error with `out` written. -/
theorem Inflates.failed_end {s : State} {st : Stream} {dst usize total info : Nat} {is : List Item} {out : List Byte}
    {w : Work} {e : CmdError} (h : Inflates s.view st dst usize total (s.work none) is out w)
    (hbody : bodyHsqDecompress s.view (s.work none) = .error (.raised e info) w) :
    ∃ t, exec .hsqDecompress s = .next t ∧ t = { failed s e.code (BitVec.ofNat 32 info) with mem := t.mem }
      ∧ t.holds dst out ∧ ∀ a, ¬ inRegion dst out.length a → t.byte a = s.byte a := by
  obtain ⟨hbytes, hframe⟩ := writeList_spec s.mem dst out
  have hrun : s.runCmd bodyHsqDecompress
      = { failed s e.code (BitVec.ofNat 32 info) with mem := s.mem.writeList dst out } := by
    rw [runCmd_raised hbody, raiseError_natCast, h.pours.land]
    rfl
  exact ⟨_, congrArg Host.Outcome.next hrun, rfl, hbytes, hframe⟩

/-- R116: what a command finds whose source is a resource of tokens that conform, followed by `is`. -/
structure HsqSource (s : State) (h0 h1 h2 h3 h4 h5 : Byte) (ks : List Token) (is : List Item) (usize : Nat) :
    Prop where
  checked : (h0.toNat + h1.toNat + h2.toNat + h3.toNat + h4.toNat + h5.toNat) % 256 = 0xAB
  size : h0.toNat + 256 * h1.toNat + 65536 * h2.toNat = usize
  space : usize ≤ s.snap.dstLen.toNat
  conforms : conforming [] ks
  fits : (expandTokens [] ks).length ≤ usize
  holds : s.holds s.snap.srcAddr.toNat (hsqResource h0 h1 h2 h3 h4 h5 (ks.flatMap Token.items ++ is))
  inside : (hsqResource h0 h1 h2 h3 h4 h5 (ks.flatMap Token.items ++ is)).length ≤ s.snap.srcLen.toNat
  readable : s.readable s.snap.srcAddr.toNat (hsqResource h0 h1 h2 h3 h4 h5 (ks.flatMap Token.items ++ is)).length
  output : s.readable s.snap.dstAddr.toNat usize
  apart : Machine.apart s.snap.srcAddr.toNat
    (hsqResource h0 h1 h2 h3 h4 h5 (ks.flatMap Token.items ++ is)).length s.snap.dstAddr.toNat usize

section
variable {s : State} {h0 h1 h2 h3 h4 h5 : Byte} {ks : List Token} {is : List Item} {usize : Nat}

/-- R168: the header checks and the output fits, so the command decodes behind the header. -/
theorem HsqSource.start (h : HsqSource s h0 h1 h2 h3 h4 h5 ks is usize) :
    ∃ w, bodyHsqDecompress s.view (s.work none)
        = hsqCompressed s.view s.view.source s.snap.dstAddr.toNat s.snap.dstLen.toNat usize w
      ∧ Inflates s.view s.view.source s.snap.dstAddr.toNat usize
          (hsqResource h0 h1 h2 h3 h4 h5 (ks.flatMap Token.items ++ is)).length (s.work none)
          (ks.flatMap Token.items ++ is) [] w := by
  have hpours := pours_start (st := s.view.source) h.holds h.inside h.readable (fun k hk => (h.output k hk).1) h.apart
  have hok : (hsqHeaderOf h0 h1 h2 h3 h4 h5).ok = true := beq_iff_eq.2 h.checked
  refine ⟨{ s.work none with icur := 6 }, ?_, hpours.advance, rfl, fun k hk => (h.output k hk).2⟩
  refine (eng_bind_ok (parseHeader_feeds hpours.feeds)).trans ?_
  rw [if_pos hok, ← h.size]
  rfl

/-- R165: the decoder reads the tokens and writes their output; then it is before the items that follow. -/
theorem HsqSource.decode (h : HsqSource s h0 h1 h2 h3 h4 h5 ks is usize) :
    ∃ w1 w2 n, bodyHsqDecompress s.view (s.work none)
        = hsqCompressed s.view s.view.source s.snap.dstAddr.toNat s.snap.dstLen.toNat usize w1
      ∧ hsqDecode s.view s.view.source s.snap.dstAddr.toNat usize w1
        = hsqTokens s.view s.view.source s.snap.dstAddr.toNat usize (n + 1) w2
      ∧ Inflates s.view s.view.source s.snap.dstAddr.toNat usize
          (hsqResource h0 h1 h2 h3 h4 h5 (ks.flatMap Token.items ++ is)).length (s.work none) is
          (expandTokens [] ks) w2 := by
  obtain ⟨w1, hbody, h1⟩ := h.start
  have hbound : ks.length ≤ s.view.source.len := by
    have hinside : _ ≤ s.view.source.len := h.inside
    rw [hsqResource, List.length_append] at hinside
    exact (tokens_length_le_layout 0 ks is).trans (by omega)
  obtain ⟨w2, htokens, h2⟩ := h1.tokens h.conforms h.fits (s.view.source.len - ks.length + 1)
  refine ⟨w1, w2, s.view.source.len - ks.length, hbody, ?_, h2⟩
  rw [← htokens, ← Nat.add_assoc, Nat.add_sub_cancel' hbound]
  rfl

/-- R165, R168: a token that stops in an error after tokens that conform ends the command in it. -/
theorem HsqSource.token_error {k : Token} {e : CmdError} {info : Nat} {out : List Byte} {more : List Item}
    (hk : k.grammatical) (h : HsqSource s h0 h1 h2 h3 h4 h5 ks (k.items ++ more) usize)
    (herr : ∀ {total w}, Inflates s.view s.view.source s.snap.dstAddr.toNat usize total (s.work none) more
        (expandTokens [] ks) w →
      ∃ w', tokenOutput s.view s.snap.dstAddr.toNat usize k w = .error (.raised e info) w'
        ∧ Inflates s.view s.view.source s.snap.dstAddr.toNat usize total (s.work none) more out w') :
    ∃ t, exec .hsqDecompress s = .next t ∧ t = { failed s e.code (BitVec.ofNat 32 info) with mem := t.mem }
      ∧ t.holds s.snap.dstAddr.toNat out
      ∧ ∀ a, ¬ inRegion s.snap.dstAddr.toNat out.length a → t.byte a = s.byte a := by
  obtain ⟨w1, w2, n, hbody, hdecode, h2⟩ := h.decode
  obtain ⟨w3, h3, htoken⟩ := h2.token hk
  obtain ⟨w4, hout, h4⟩ := herr h3
  have hspace : decide (s.snap.dstLen.toNat < usize) = false := decide_eq_false (Nat.not_lt.2 h.space)
  refine h4.failed_end (hbody.trans ((eng_bind_ok (raiseIf_pass hspace)).trans (eng_bind_error ?_)))
  rw [hdecode, hsqTokens_succ_of_token htoken, eng_bind_error hout]

/-- R165, R168: the end token after tokens that conform brings the command to its last check. -/
theorem HsqSource.end_token {q : BitVec 16} {more : List Item} (hq : q.toNat % 8 = 0)
    (h : HsqSource s h0 h1 h2 h3 h4 h5 ks (endItems q ++ more) usize) :
    ∃ w, bodyHsqDecompress s.view (s.work none)
        = (raiseIf ((expandTokens [] ks).length != usize) .hsqShort (expandTokens [] ks).length >>= fun _ =>
            inputCursor >>= fun k =>
              pure { result0 := some (word usize), result1 := some (word k), compressed := some true }) w
      ∧ Inflates s.view s.view.source s.snap.dstAddr.toNat usize
          (hsqResource h0 h1 h2 h3 h4 h5 (ks.flatMap Token.items ++ (endItems q ++ more))).length (s.work none) more
          (expandTokens [] ks) w := by
  obtain ⟨w1, w2, n, hbody, hdecode, h2⟩ := h.decode
  obtain ⟨w3, h3, hend⟩ := h2.endToken hq
  have hspace : decide (s.snap.dstLen.toNat < usize) = false := decide_eq_false (Nat.not_lt.2 h.space)
  have hdone : hsqDecode s.view s.view.source s.snap.dstAddr.toNat usize w1 = .ok () w3 :=
    hdecode.trans (eng_bind_ok hend)
  refine ⟨w3, ?_, h3⟩
  rw [hbody, ← h3.pours.ocur_eq]
  exact (eng_bind_ok (raiseIf_pass hspace)).trans ((eng_bind_ok hdone).trans (eng_bind_ok (outputCursor_apply w3)))

end

/-- Settles O33: the end token comes when the output has its declared size, and the cursor then stands behind the
stream. -/
theorem hsqDecompressInvertsConformingStreams : Obligations.HsqDecompressInvertsConformingStreams := by
  intro s h0 h1 h2 h3 h4 h5 ks q src dst stream out hsum hsize hq hks hholds hlen hcap hread hout hap
  have hsource : HsqSource s h0 h1 h2 h3 h4 h5 ks (endItems q ++ []) out.length := by
    rw [List.append_nil]
    exact ⟨hsum, hsize, hcap, hks, le_rfl, hholds, hlen, hread, hout, hap⟩
  obtain ⟨w, hbody, hend⟩ := hsource.end_token hq
  have hicur : w.icur = stream.length := by
    have hconsumed := hend.pours.consumed
    rw [List.append_nil] at hconsumed
    exact hconsumed
  have hshort : (out.length != out.length) = false := bne_self_eq_false _
  have hdone : bodyHsqDecompress s.view (s.work none) = .ok
      { result0 := some (word out.length), result1 := some (word stream.length), compressed := some true } w := by
    rw [hbody, ← hicur]
    exact (eng_bind_ok (raiseIf_pass hshort)).trans (eng_bind_ok (inputCursor_apply w))
  obtain ⟨hbytes, hframe⟩ := writeList_spec s.mem dst out
  refine ⟨s.runCmd bodyHsqDecompress, rfl, ?_, ?_⟩
  · rw [runCmd_ok hdone, hend.pours.land]
    rfl
  · rw [runCmd_ok hdone, hend.pours.land]
    exact ⟨hbytes, hframe⟩

/-- Settles O32: the size check comes before the decoder; after it the last token, or the last check, raises the
error. -/
theorem hsqDecompressErrorEnds : Obligations.HsqDecompressErrorEnds := by
  intro s src dst
  refine ⟨hsqDecompress_overflow, ?_⟩
  intro h0 h1 h2 h3 h4 h5 ks last more usize stream out endsWith hsum hcap hks hfit hholds hlen hread hout hap
  have hsource : HsqSource s h0 h1 h2 h3 h4 h5 ks (last ++ more) usize := by
    have hstream : stream = hsqResource h0 h1 h2 h3 h4 h5 (ks.flatMap Token.items ++ (last ++ more)) := by
      rw [← List.append_assoc]
    rw [hstream] at hholds hlen hread hap
    exact ⟨hsum, rfl, hcap, hks, hfit, hholds, hlen, hread, hout, hap⟩
  refine ⟨?short, ?badDistance, ?overrun⟩
  case short =>
    rintro q hq rfl hless
    obtain ⟨w, hbody, hend⟩ := hsource.end_token hq
    have hshort : (out.length != usize) = true := bne_iff_ne.2 (Nat.ne_of_lt hless)
    exact hend.failed_end (hbody.trans (eng_bind_error (raiseIf_fail hshort)))
  case badDistance =>
    rintro k d n hk rfl hcopy hfar
    refine hsource.token_error (e := .hsqBadDistance) (info := out.length) hk fun h => ⟨_, ?_, h⟩
    rw [tokenOutput_of_copy hcopy, h.hsqCopy_badDistance hfar]
  case overrun =>
    rintro k hk rfl hover
    exact hsource.token_error hk.1 fun h => h.output_overrun hk hfit hover

end Sys2Proof.Proofs
end

section
/-! PROOFS. The palette's streams: PAL_APPLY over its update stream, whole or cut short (`Applies`), and the table that
PAL_EXPORT writes. -/

namespace Sys2Proof.Proofs

open Sys2Proof.Machine Sys2Proof.Claims

/-! ### Slots of a bank (R38, R180) -/

/-- R38: the keys of two entries differ where their banks do. -/
theorem palKey_ne_of_bank {a b i j : Nat} (hi : i < 256) (hj : j < 256) (h : b ≠ a) : palKey b i ≠ palKey a j := by
  unfold palKey
  omega

/-- R38: the keys of two entries of a bank are equal only where the entries are. -/
theorem palKey_inj {b i j : Nat} : palKey b i = palKey b j ↔ i = j := by
  unfold palKey
  omega

/-- R117: the three bytes of a colour. -/
def triple (c : Rgb) : List Byte := [c.r, c.g, c.b]

/-- R117: a run's count byte says how many triples it holds. -/
theorem palRunLength_eq {count : Byte} : palRunLength count = if count = 0 then 256 else count.toNat := by
  unfold palRunLength
  by_cases h : count = 0
  · subst h
    rfl
  · have hne : count.toNat ≠ 0 := fun hz => h (BitVec.eq_of_toNat_eq hz)
    rw [if_neg h, if_neg hne]

/-! ### PAL_APPLY along its stream -/

/-- PAL_APPLY began at `w0`; the slots of bank `bk` are now those of `bank`, no other bank has changed, and the stream
still feeds `bs`, the rest of its first `total` bytes. -/
structure Applies (v : View) (st : Stream) (bk total : Nat) (w0 : Work) (bs : List Byte) (bank : Nat → Rgb) (w : Work) :
    Prop where
  quota : w0.quota = none
  frame : w = { w0 with pal := w.pal, icur := w.icur }
  feeds : Feeds v st w bs
  consumed : w.icur + bs.length = total
  slots : ∀ i, i < 256 → palEntry v.epoch w.pal (palKey bk i) = bank i
  others : ∀ b i, i < 256 → b ≠ bk → palEntry v.epoch w.pal (palKey b i) = palEntry v.epoch w0.pal (palKey b i)

section
variable {v : View} {st : Stream} {bk total : Nat} {w0 w : Work} {bs : List Byte} {bank : Nat → Rgb}

theorem Applies.quota_eq (h : Applies v st bk total w0 bs bank w) : w.quota = none := by
  rw [h.frame]
  exact h.quota

/-- R10: `InByte()` gives the next byte of the stream. -/
theorem Applies.readByte {b : Byte} (h : Applies v st bk total w0 (b :: bs) bank w) :
    ∃ w', inByte v st w = .ok b w' ∧ Applies v st bk total w0 bs bank w' := by
  refine ⟨_, inByte_feeds h.feeds, h.quota, by rw [h.frame], h.feeds.tail, ?_, h.slots, h.others⟩
  have hsum := h.consumed
  rw [List.length_cons] at hsum
  show w.icur + 1 + bs.length = total
  omega

/-- R10: `InByte()` at the stream's end. -/
theorem Applies.readByte_eof (h : Applies v st bk st.len w0 [] bank w) :
    inByte v st w = .error (.raised .srcEof st.len) w := by
  have hend : w.icur = st.len := h.consumed
  rw [inByte_eof (Nat.le_of_eq hend.symm), hend]

/-- `Pal[bk][i] <- c` sets one slot of the bank. -/
theorem Applies.writeSlot {i : Nat} {c : Rgb} (h : Applies v st bk total w0 bs bank w) (hi : i < 256) :
    ∃ w', palWrite bk i c w = .ok () w' ∧ Applies v st bk total w0 bs (fun j => if j = i then c else bank j) w' := by
  refine ⟨_, palWrite_ok h.quota_eq, h.quota, by rw [h.frame], h.feeds.congr rfl fun _ _ => rfl, h.consumed, ?_, ?_⟩
  · intro j hj
    simp only [palEntry_put, palKey_inj, h.slots j hj]
  · intro b j hj hb
    simp only [palEntry_put, if_neg (palKey_ne_of_bank hj hi hb), h.others b j hj hb]

/-- What is set in a bank past its last slot does not matter. -/
theorem Applies.set_outside {i : Nat} {c : Rgb} (h : Applies v st bk total w0 bs bank w) (hi : 256 ≤ i) :
    Applies v st bk total w0 bs (fun j => if j = i then c else bank j) w where
  quota := h.quota
  frame := h.frame
  feeds := h.feeds
  consumed := h.consumed
  slots j hj := by rw [if_neg (by omega), h.slots j hj]
  others := h.others

/-! ### Runs (R180) -/

/-- R180: a triple is read into its slot, or dropped past slot 255. -/
theorem Applies.readTriple {index k : Nat} {c : Rgb} (h : Applies v st bk total w0 (triple c ++ bs) bank w) :
    ∃ w', palTriple v st bk index k w = .ok () w'
      ∧ Applies v st bk total w0 bs (fun i => if i = index + k then c else bank i) w' := by
  obtain ⟨w1, hr, h1⟩ := h.readByte
  obtain ⟨w2, hg, h2⟩ := h1.readByte
  obtain ⟨w3, hb, h3⟩ := h2.readByte
  have hread : palTriple v st bk index k w
      = (if index + k ≤ 255 then palWrite bk (index + k) c else pure ()) w3 :=
    (eng_bind_ok hr).trans ((eng_bind_ok hg).trans (eng_bind_ok hb))
  rw [hread]
  split
  next hin => exact h3.writeSlot (by omega)
  next hout => exact ⟨w3, rfl, h3.set_outside (by omega)⟩

/-- R180: the triples of a run are read into consecutive slots. -/
theorem Applies.readTriples {index k : Nat} {cs : List Rgb}
    (h : Applies v st bk total w0 (cs.flatMap triple ++ bs) bank w) :
    ∃ w', loopFrom (palTriple v st bk index) cs.length k w = .ok () w'
      ∧ Applies v st bk total w0 bs (setSlots bank (index + k) cs) w' := by
  induction cs generalizing k bank w with
  | nil => exact ⟨w, rfl, h⟩
  | cons c cs ih =>
    rw [List.flatMap_cons, List.append_assoc] at h
    obtain ⟨w1, htriple, h1⟩ := h.readTriple (index := index) (k := k)
    obtain ⟨w2, hrest, h2⟩ := ih (k := k + 1) h1
    exact ⟨w2, by rw [List.length_cons, loopFrom_succ, eng_bind_ok htriple, hrest], h2⟩

/-! ### The pair loop (R180) -/

/-- R117: the pair that opens an item. -/
def pairOf : PalItem → Byte × Byte
  | .skip _ _ _ => (0x01, 0x00)
  | .run index count _ => (index, count)

/-- R117: the bytes of an item behind its pair. -/
def itemTail : PalItem → List Byte
  | .skip a b c => [a, b, c]
  | .run _ _ colours => colours.flatMap triple

theorem coded_eq (it : PalItem) : it.coded = (pairOf it).1 :: (pairOf it).2 :: itemTail it := by
  cases it <;> rfl

/-- R180: what the pair loop does with an item once its pair has been read. -/
def itemEffect (v : View) (st : Stream) (bk : Nat) : PalItem → Eng Unit
  | .skip _ _ _ => do
    let _ ← inByte v st
    let _ ← inByte v st
    let _ ← inByte v st
    pure ()
  | .run index count _ => loop (palRunLength count) (palTriple v st bk index.toNat)

/-- R180: the pair loop reads an item's pair, does what the item says, and goes on. -/
theorem Applies.pair {it : PalItem} (hok : it.ok) {n : Nat}
    (h : Applies v st bk total w0 ((pairOf it).1 :: (pairOf it).2 :: bs) bank w) :
    ∃ w', palPairs v st bk (n + 1) w = (itemEffect v st bk it >>= fun _ => palPairs v st bk n) w'
      ∧ Applies v st bk total w0 bs bank w' := by
  obtain ⟨w1, hindex, h1⟩ := h.readByte
  obtain ⟨w2, hcount, h2⟩ := h1.readByte
  refine ⟨w2, (eng_bind_ok hindex).trans ((eng_bind_ok hcount).trans ?_), h2⟩
  cases it with
  | skip a b c =>
    have hpair : (pairOf (.skip a b c)).1.toNat = 0x01 ∧ (pairOf (.skip a b c)).2.toNat = 0x00 := ⟨rfl, rfl⟩
    simp only [itemEffect, bind_assoc, pure_bind]
    exact congrFun (if_pos hpair) w2
  | run index count colours =>
    obtain ⟨hskip, hstop, -⟩ := hok
    have hskip' : ¬ (index.toNat = 0x01 ∧ count.toNat = 0x00) := fun ⟨hi, hc⟩ =>
      hskip ⟨BitVec.eq_of_toNat_eq hi, BitVec.eq_of_toNat_eq hc⟩
    have hstop' : ¬ (index.toNat = 0xFF ∧ count.toNat = 0xFF) := fun ⟨hi, hc⟩ =>
      hstop ⟨BitVec.eq_of_toNat_eq hi, BitVec.eq_of_toNat_eq hc⟩
    exact congrFun ((if_neg hskip').trans (if_neg hstop')) w2

/-- R180: a whole item takes its effect. -/
theorem Applies.wholeItem {it : PalItem} (hok : it.ok) (h : Applies v st bk total w0 (itemTail it ++ bs) bank w) :
    ∃ w', itemEffect v st bk it w = .ok () w' ∧ Applies v st bk total w0 bs (it.apply bank) w' := by
  cases it with
  | skip a b c =>
    obtain ⟨w1, ha, h1⟩ := h.readByte
    obtain ⟨w2, hb, h2⟩ := h1.readByte
    obtain ⟨w3, hc, h3⟩ := h2.readByte
    exact ⟨w3, (eng_bind_ok ha).trans ((eng_bind_ok hb).trans (eng_bind_ok hc)), h3⟩
  | run index count colours =>
    obtain ⟨-, -, hlen⟩ := hok
    show ∃ w', loop (palRunLength count) (palTriple v st bk index.toNat) w = .ok () w' ∧ _
    rw [palRunLength_eq, ← hlen]
    exact h.readTriples (k := 0)

/-- R180: the pair loop over whole items goes on behind them. -/
theorem Applies.items {items : List PalItem} (hok : ∀ it ∈ items, it.ok) (n : Nat)
    (h : Applies v st bk total w0 (items.flatMap PalItem.coded ++ bs) bank w) :
    ∃ w', palPairs v st bk (items.length + n) w = palPairs v st bk n w'
      ∧ Applies v st bk total w0 bs (items.foldl PalItem.apply bank) w' := by
  induction items generalizing bank w with
  | nil => exact ⟨w, by rw [List.length_nil, Nat.zero_add], h⟩
  | cons it items ih =>
    have hit := hok it List.mem_cons_self
    rw [List.flatMap_cons, List.append_assoc, coded_eq] at h
    obtain ⟨w1, hpair, h1⟩ := h.pair (n := items.length + n) hit
    obtain ⟨w2, heffect, h2⟩ := h1.wholeItem hit
    obtain ⟨w3, hrest, h3⟩ := ih (fun x hx => hok x (List.mem_cons_of_mem it hx)) h2
    refine ⟨w3, ?_, h3⟩
    rw [List.length_cons, Nat.add_right_comm, hpair, eng_bind_ok heffect, hrest]

/-- R180: the terminator ends the pair loop. -/
theorem Applies.terminator {n : Nat} (h : Applies v st bk total w0 (0xFF :: 0xFF :: bs) bank w) :
    ∃ w', palPairs v st bk (n + 1) w = .ok () w' ∧ Applies v st bk total w0 bs bank w' := by
  obtain ⟨w1, hindex, h1⟩ := h.readByte
  obtain ⟨w2, hcount, h2⟩ := h1.readByte
  exact ⟨w2, (eng_bind_ok hindex).trans (eng_bind_ok hcount), h2⟩

/-- R180: the filler scan ends behind the filler, at the stream's end or before a byte that is not 0xFF. -/
theorem Applies.filler {f n : Nat} (h : Applies v st bk total w0 (List.replicate f 0xFF) bank w) (hn : f ≤ n)
    (hend : st.len = total ∨ st.base + total < v.plat.memSize ∧ st.base + total ∉ v.contested
      ∧ w0.mem.read (st.base + total) ≠ 0xFF) :
    ∃ w', palFiller v st n w = .ok () w' ∧ Applies v st bk total w0 [] bank w' := by
  induction f generalizing n w with
  | zero =>
    refine ⟨w, ?_, h⟩
    have hicur : w.icur = total := h.consumed
    have hmem : w.mem = w0.mem := by rw [h.frame]
    cases n with
    | zero => rfl
    | succ n =>
      refine (eng_bind_ok (inputCursor_apply w)).trans ?_
      split
      next hin =>
        obtain ⟨hplace, hfree, hbyte⟩ := hend.resolve_left (by omega)
        rw [hicur, eng_bind_ok (memRead_ok hplace hfree), if_neg]
        · rfl
        · exact fun heq => hbyte (hmem ▸ BitVec.eq_of_toNat_eq heq)
      next => rfl
  | succ f ih =>
    cases n with
    | zero => omega
    | succ n =>
      obtain ⟨hin, hplace, hfree, hbyte⟩ := h.feeds 0 (by simp)
      rw [Nat.add_zero] at hin hplace hfree hbyte
      obtain ⟨w1, hread, h1⟩ := h.readByte
      have hw1 : { w with icur := w.icur + 1 } = w1 := by
        have := (inByte_feeds h.feeds).symm.trans hread
        injection this
      obtain ⟨w2, hrest, h2⟩ := ih (n := n) h1 (by omega)
      refine ⟨w2, ?_, h2⟩
      have hff : (w.mem.read (st.base + w.icur)).toNat = 0xFF := by rw [hbyte]; rfl
      refine (eng_bind_ok (inputCursor_apply w)).trans ?_
      rw [if_pos hin, eng_bind_ok (memRead_ok hplace hfree), if_pos hff, eng_bind_ok (setInputCursor_apply _ w), hw1]
      exact hrest

/-! ### A stream cut short (R10, R180) -/

/-- Three reads of a stream that has fewer than three bytes left end at its end. -/
theorem Applies.three_cut {α : Type} {bytes : List Byte} {f : Byte → Byte → Byte → Eng α} (hlen : bytes.length < 3)
    (h : Applies v st bk st.len w0 bytes bank w) :
    ∃ w', (inByte v st >>= fun a => inByte v st >>= fun b => inByte v st >>= f a b) w
        = .error (.raised .srcEof st.len) w'
      ∧ Applies v st bk st.len w0 [] bank w' := by
  match bytes with
  | [] => exact ⟨w, eng_bind_error h.readByte_eof, h⟩
  | [a] =>
    obtain ⟨w1, ha, h1⟩ := h.readByte
    exact ⟨w1, (eng_bind_ok ha).trans (eng_bind_error h1.readByte_eof), h1⟩
  | [a, b] =>
    obtain ⟨w1, ha, h1⟩ := h.readByte
    obtain ⟨w2, hb, h2⟩ := h1.readByte
    exact ⟨w2, (eng_bind_ok ha).trans ((eng_bind_ok hb).trans (eng_bind_error h2.readByte_eof)), h2⟩
  | _ :: _ :: _ :: _ =>
    simp only [List.length_cons] at hlen
    omega

/-- A pair of which fewer than two bytes are left ends at the stream's end. -/
theorem Applies.pair_cut {bytes : List Byte} {n : Nat} (hlen : bytes.length < 2)
    (h : Applies v st bk st.len w0 bytes bank w) :
    ∃ w', palPairs v st bk (n + 1) w = .error (.raised .srcEof st.len) w'
      ∧ Applies v st bk st.len w0 [] bank w' := by
  match bytes with
  | [] => exact ⟨w, eng_bind_error h.readByte_eof, h⟩
  | [a] =>
    obtain ⟨w1, ha, h1⟩ := h.readByte
    exact ⟨w1, (eng_bind_ok ha).trans (eng_bind_error h1.readByte_eof), h1⟩
  | _ :: _ :: _ =>
    simp only [List.length_cons] at hlen
    omega

/-- The triples of a run that the stream's end cuts: the whole ones are read into their slots. -/
theorem Applies.readTriples_cut {index k j : Nat} {cs : List Rgb} (hj : j < 3 * cs.length)
    (h : Applies v st bk st.len w0 ((cs.flatMap triple).take j) bank w) :
    ∃ w', loopFrom (palTriple v st bk index) cs.length k w = .error (.raised .srcEof st.len) w'
      ∧ Applies v st bk st.len w0 [] (setSlots bank (index + k) (cs.take (j / 3))) w' := by
  induction cs generalizing j k bank w with
  | nil => simp at hj
  | cons c cs ih =>
    rw [List.length_cons, loopFrom_succ]
    rw [List.flatMap_cons] at h
    have htriple : (triple c).length = 3 := rfl
    by_cases hlt : j < 3
    · rw [List.take_append_of_le_length (by omega)] at h
      obtain ⟨w1, herr, h1⟩ := Applies.three_cut (f := fun r g b =>
        if index + k ≤ 255 then palWrite bk (index + k) { r := r, g := g, b := b } else pure ())
        (by rw [List.length_take]; omega) h
      rw [Nat.div_eq_of_lt hlt]
      exact ⟨w1, eng_bind_error herr, h1⟩
    · rw [List.take_append, List.take_of_length_le (by omega), htriple] at h
      obtain ⟨w1, hok, h1⟩ := h.readTriple (index := index) (k := k)
      obtain ⟨w2, herr, h2⟩ := ih (j := j - 3) (k := k + 1) (by rw [List.length_cons] at hj; omega) h1
      have hdiv : j / 3 = (j - 3) / 3 + 1 := by omega
      rw [eng_bind_ok hok, hdiv, List.take_succ_cons]
      exact ⟨w2, herr, h2⟩

/-- R180: what takes effect of an item of which only `k` bytes are there. -/
def partOfItem (k : Nat) : PalItem → List PalItem
  | .skip _ _ _ => []
  | .run index count colours => [.run index count (colours.take ((k - 2) / 3))]

theorem cutItems_of_le {it : PalItem} {k : Nat} (h : it.coded.length ≤ k) (items : List PalItem) :
    cutItems k (it :: items) = it :: cutItems (k - it.coded.length) items := by
  rw [cutItems.eq_def]
  exact if_pos h

theorem cutItems_of_lt {it : PalItem} {k : Nat} (h : k < it.coded.length) (items : List PalItem) :
    cutItems k (it :: items) = partOfItem k it := by
  rw [cutItems.eq_def]
  exact (if_neg (Nat.not_le.2 h)).trans (by cases it <;> rfl)

/-- R180: an item that the stream's end cuts takes effect as far as its triples are whole. -/
theorem Applies.item_cut {it : PalItem} {k n : Nat} (hok : it.ok) (hk : k < it.coded.length)
    (h : Applies v st bk st.len w0 (it.coded.take k) bank w) :
    ∃ w', palPairs v st bk (n + 1) w = .error (.raised .srcEof st.len) w'
      ∧ Applies v st bk st.len w0 [] ((partOfItem k it).foldl PalItem.apply bank) w' := by
  rw [coded_eq, List.length_cons, List.length_cons] at hk
  by_cases hpair : k < 2
  · have hnone : (k - 2) / 3 = 0 := by omega
    obtain ⟨w1, herr, h1⟩ := h.pair_cut (n := n) (by rw [List.length_take]; omega)
    refine ⟨w1, herr, ?_⟩
    cases it with
    | skip a b c => exact h1
    | run index count colours =>
      rw [partOfItem, hnone]
      exact h1
  · obtain ⟨j, rfl⟩ := Nat.exists_eq_add_of_le' (Nat.le_of_not_lt hpair)
    rw [coded_eq, List.take_succ_cons, List.take_succ_cons] at h
    obtain ⟨w1, hhead, h1⟩ := h.pair (n := n) hok
    rw [hhead]
    cases it with
    | skip a b c =>
      have hj : j + 2 < 5 := hk
      obtain ⟨w2, herr, h2⟩ := h1.three_cut (f := fun _ _ _ => pure ()) (by rw [List.length_take]; omega)
      exact ⟨w2, eng_bind_error herr, h2⟩
    | run index count colours =>
      obtain ⟨-, -, hlen⟩ := hok
      have hbytes : (itemTail (.run index count colours)).length = 3 * colours.length := by
        simp [itemTail, List.length_flatMap, triple, Nat.mul_comm]
      obtain ⟨w2, herr, h2⟩ := h1.readTriples_cut (index := index.toNat) (k := 0) (by omega)
      rw [partOfItem, Nat.add_sub_cancel]
      refine ⟨w2, eng_bind_error ?_, h2⟩
      show loop (palRunLength count) _ w1 = _
      rw [palRunLength_eq, ← hlen]
      exact herr

/-- R180: a stream that ends before its terminator is complete raises SRC_EOF at its end, and the whole triples before
that are written. -/
theorem Applies.items_cut {items : List PalItem} {k n : Nat} (hok : ∀ it ∈ items, it.ok)
    (hk : k < (items.flatMap PalItem.coded ++ [0xFF, 0xFF]).length) (hn : k < n)
    (h : Applies v st bk st.len w0 ((items.flatMap PalItem.coded ++ [0xFF, 0xFF]).take k) bank w) :
    ∃ w', palPairs v st bk n w = .error (.raised .srcEof st.len) w'
      ∧ Applies v st bk st.len w0 [] ((cutItems k items).foldl PalItem.apply bank) w' := by
  obtain ⟨n, rfl⟩ := Nat.exists_eq_succ_of_ne_zero (Nat.ne_of_gt (Nat.zero_lt_of_lt hn))
  induction items generalizing k n bank w with
  | nil => exact h.pair_cut (by rw [List.length_take]; exact (Nat.min_le_left _ _).trans_lt hk)
  | cons it items ih =>
    have hit := hok it List.mem_cons_self
    rw [List.flatMap_cons, List.append_assoc] at h hk
    by_cases hwhole : it.coded.length ≤ k
    · rw [List.take_append, List.take_of_length_le hwhole, coded_eq] at h
      rw [List.length_append] at hk
      have htwo : 2 ≤ it.coded.length := by
        rw [coded_eq]
        exact Nat.le_add_left _ _
      obtain ⟨w1, hpair, h1⟩ := h.pair (n := n) hit
      obtain ⟨w2, heffect, h2⟩ := h1.wholeItem hit
      rw [← coded_eq] at h2
      obtain ⟨m, rfl⟩ := Nat.exists_eq_succ_of_ne_zero (n := n) (by omega)
      obtain ⟨w3, herr, h3⟩ := ih (k := k - it.coded.length) (fun x hx => hok x (List.mem_cons_of_mem it hx))
        (by omega) h2 m (by omega)
      refine ⟨w3, ?_, ?_⟩
      · rw [hpair, eng_bind_ok heffect, herr]
      · rw [cutItems_of_le hwhole]
        exact h3
    · rw [List.take_append_of_le_length (by omega)] at h
      rw [cutItems_of_lt (by omega)]
      exact h.item_cut hit (by omega)

end

/-! ### How PAL_APPLY ends -/

/-- Parts of at least one byte each are no more than their bytes. -/
theorem length_le_flatMap {α : Type} {f : α → List Byte} (h : ∀ a, 1 ≤ (f a).length) (l : List α) :
    l.length ≤ (l.flatMap f).length := by
  induction l with
  | nil => exact Nat.le_refl 0
  | cons a l ih =>
    have ha := h a
    rw [List.flatMap_cons, List.length_append, List.length_cons]
    omega

/-- PAL_APPLY starts with the slots of its bank as they stand. -/
theorem applies_start {s : State} {bs : List Byte} (hb : s.holds s.snap.srcAddr.toNat bs)
    (hlen : bs.length ≤ s.snap.srcLen.toNat) (hr : s.readable s.snap.srcAddr.toNat bs.length) :
    Applies s.view s.view.source s.snap.bank bs.length (s.work none) bs (s.palAt s.snap.bank) (s.work none) where
  quota := rfl
  frame := rfl
  feeds := feeds_of_holds (w := s.work none) rfl hb (by show 0 + bs.length ≤ s.snap.srcLen.toNat; omega) hr
  consumed := Nat.zero_add _
  slots _ _ := rfl
  others _ _ _ _ := rfl

/-- What PAL_APPLY leaves in the state. -/
theorem Applies.land {s : State} {st : Stream} {bk total : Nat} {bs : List Byte} {bank : Nat → Rgb} {w : Work}
    (h : Applies s.view st bk total (s.work none) bs bank w) : s.land w = { s with pal := w.pal } := by
  rw [h.frame]
  rfl

/-- Settles O34: a whole stream runs through its items, its terminator and its filler; a cut one ends in the item, or the
terminator, that its end falls in. -/
theorem palApplyAppliesItsStream : Obligations.PalApplyAppliesItsStream := by
  intro s items filler src len bank coded stream leaves hok
  have hcoded : coded.length = (items.flatMap PalItem.coded).length + 2 := List.length_append
  have hitems : items.length ≤ (items.flatMap PalItem.coded).length :=
    length_le_flatMap (fun it => by rw [coded_eq]; exact Nat.le_add_left _ _) items
  refine ⟨fun hlen hholds hread hstop => ?whole, fun hlen hholds hread => ?cut⟩
  case whole =>
    have hstream : stream.length = coded.length + filler := by
      rw [List.length_append, List.length_replicate]
    have hbytes : stream = items.flatMap PalItem.coded ++ (0xFF :: 0xFF :: List.replicate filler 0xFF) :=
      List.append_assoc _ _ _
    have hsource : s.view.source.len = len := rfl
    have hstart : Applies s.view s.view.source s.snap.bank stream.length (s.work none)
        (items.flatMap PalItem.coded ++ (0xFF :: 0xFF :: List.replicate filler 0xFF)) (s.palAt bank) (s.work none) := by
      rw [← hbytes]
      exact applies_start hholds hlen hread
    obtain ⟨w1, hloop, h1⟩ := hstart.items hok (len - items.length + 1)
    obtain ⟨w2, hterm, h2⟩ := h1.terminator (n := len - items.length)
    have hafter : s.view.source.len = stream.length ∨ s.view.source.base + stream.length < s.view.plat.memSize
        ∧ s.view.source.base + stream.length ∉ s.view.contested
        ∧ (s.work none).mem.read (s.view.source.base + stream.length) ≠ 0xFF := by
      refine hstop.imp id fun ⟨hnext, hbyte⟩ => ?_
      obtain ⟨hplace, hfree⟩ := hnext 0 Nat.one_pos
      exact ⟨hplace, hfree, hbyte⟩
    obtain ⟨w3, hscan, h3⟩ := h2.filler (n := len) (by omega) hafter
    have hpairs : palPairs s.view s.view.source s.view.snap.bank (s.view.source.len + 1) (s.work none) = .ok () w2 := by
      have hfuel : s.view.source.len + 1 = items.length + (len - items.length + 1) := by omega
      rw [hfuel]
      exact hloop.trans hterm
    have hicur : w3.icur = stream.length := h3.consumed
    have hbody : bodyPalApply s.view (s.work none) = .ok { result0 := some (word stream.length) } w3 := by
      rw [← hicur]
      exact (eng_bind_ok hpairs).trans ((eng_bind_ok hscan).trans (eng_bind_ok (inputCursor_apply w3)))
    refine ⟨s.runCmd bodyPalApply, rfl, ?_, ?_⟩
    · rw [runCmd_ok hbody, h3.land]
      rfl
    · rw [runCmd_ok hbody, h3.land]
      exact ⟨h3.slots, h3.others⟩
  case cut =>
    have htake : (coded.take len).length = len := List.length_take_of_le hlen.le
    have hstart := applies_start hholds htake.le (htake.symm ▸ hread)
    rw [htake] at hstart
    obtain ⟨w, herr, hend⟩ := Applies.items_cut (st := s.view.source) (n := s.view.source.len + 1) hok hlen
      (Nat.lt_succ_self _) hstart
    have hbody : bodyPalApply s.view (s.work none) = .error (.raised .srcEof (len : Nat)) w := eng_bind_error herr
    have hrun : s.runCmd bodyPalApply = { failed s 0x02 s.snap.srcLen with pal := w.pal } := by
      rw [runCmd_raised hbody, raiseError_natCast, hend.land, BitVec.ofNat_toNat, BitVec.setWidth_eq]
      rfl
    refine ⟨{ failed s 0x02 s.snap.srcLen with pal := w.pal }, congrArg Host.Outcome.next hrun, rfl, ?_⟩
    exact ⟨hend.slots, hend.others⟩

/-! ### PAL_EXPORT (R123, R186) -/

/-- R123: the three bytes PAL_EXPORT writes for an entry. -/
def exportedEntry (c : Rgb) : List Byte := [expand c.r, expand c.g, expand c.b]

/-- R186: PAL_EXPORT began at `w0` and has written the bytes of the bank's first `n` entries, and nothing else. -/
structure Exports (v : View) (w0 : Work) (n : Nat) (w : Work) : Prop where
  frame : w = { w0 with mem := w.mem }
  written : ∀ i, i < n → ∀ k (hk : k < 3), w.mem.read (v.snap.dstAddr.toNat + 3 * i + k)
    = (exportedEntry (palEntry v.epoch w0.pal (palKey v.snap.bank i)))[k]
  kept : ∀ a, ¬ inRegion v.snap.dstAddr.toNat (3 * n) a → w.mem.read a = w0.mem.read a

/-- R186: an entry whose three bytes exist is written as one list. -/
theorem palExportEntry_ok {v : View} {w : Work} {i : Nat} (hq : w.quota = none)
    (hroom : ∀ k, k < 3 → v.snap.dstAddr.toNat + 3 * i + k < v.plat.memSize) :
    palExportEntry v i w = .ok ()
      { w with
        mem := w.mem.writeList (v.snap.dstAddr.toNat + 3 * i)
          (exportedEntry (palEntry v.epoch w.pal (palKey v.snap.bank i))) } := by
  have store : ∀ (m : Memory) (k : Nat) (x : Byte), k < 3 →
      memWrite v (v.snap.dstAddr.toNat + 3 * i + k) x { w with mem := m }
        = .ok () { w with mem := m.write (v.snap.dstAddr.toNat + 3 * i + k) x } := fun m k x hk =>
    memWrite_ok (w := { w with mem := m }) (hroom k hk) hq
  exact (eng_bind_ok (palRead_apply v v.snap.bank i w)).trans <|
    (eng_bind_ok (store _ 0 _ (by decide))).trans <|
    (eng_bind_ok (store _ 1 _ (by decide))).trans (store _ 2 _ (by decide))

/-- R186: one turn of PAL_EXPORT's loop. -/
theorem Exports.step {v : View} {w0 w : Work} {n : Nat} (h : Exports v w0 n w) (hq : w0.quota = none)
    (hroom : ∀ k, k < 3 → v.snap.dstAddr.toNat + 3 * n + k < v.plat.memSize) :
    ∃ w', palExportEntry v n w = .ok () w' ∧ Exports v w0 (n + 1) w' := by
  have hquota : w.quota = none := by
    rw [h.frame]
    exact hq
  have hpal : w.pal = w0.pal := by rw [h.frame]
  obtain ⟨hentry, hother⟩ := writeList_spec w.mem (v.snap.dstAddr.toNat + 3 * n)
    (exportedEntry (palEntry v.epoch w.pal (palKey v.snap.bank n)))
  rw [hpal] at hentry hother
  refine ⟨_, palExportEntry_ok hquota hroom, ?_, ?_, ?_⟩
  · rw [h.frame]
  · intro i hi k hk
    rw [hpal]
    rcases Nat.lt_succ_iff_lt_or_eq.1 hi with hlt | rfl
    · have houtside : ¬ inRegion (v.snap.dstAddr.toNat + 3 * n) 3 (v.snap.dstAddr.toNat + 3 * i + k) := by
        unfold inRegion
        omega
      rw [hother _ houtside, h.written i hlt k hk]
    · exact hentry k _ (List.getElem?_eq_getElem hk)
  · intro a ha
    have hentry : ¬ inRegion (v.snap.dstAddr.toNat + 3 * n) 3 a := by
      unfold inRegion at ha ⊢
      omega
    have hbefore : ¬ inRegion v.snap.dstAddr.toNat (3 * n) a := by
      unfold inRegion at ha ⊢
      omega
    rw [hpal, hother a hentry, h.kept a hbefore]

/-- Settles O42: the size check comes first, and the loop writes entry after entry. -/
theorem palExportWritesTheDisplayTable : Obligations.PalExportWritesTheDisplayTable := by
  intro s dst
  refine ⟨fun hcap hwrite => ?table, fun hcap => ?overflow⟩
  case table =>
    have hstart : Exports s.view (s.work none) 0 (s.work none) :=
      ⟨rfl, fun _ hi => absurd hi (Nat.not_lt_zero _), fun _ _ => rfl⟩
    obtain ⟨w, hloop, hend⟩ := loop_ok (Exports s.view (s.work none)) (n := 256) (fun j w hj h =>
      h.step rfl fun k hk => (Nat.add_assoc dst (3 * j) k).symm ▸ hwrite (3 * j + k) (by omega)) hstart
    have hbody : bodyPalExport s.view (s.work none) = .ok {} w :=
      (eng_bind_ok (raiseIf_pass (decide_eq_false (Nat.not_lt.2 hcap)))).trans (eng_bind_ok hloop)
    have hrun : s.runCmd bodyPalExport = { ended s with mem := w.mem } := by
      rw [runCmd_ok hbody, hend.frame]
      rfl
    refine ⟨{ ended s with mem := w.mem }, congrArg Host.Outcome.next hrun, rfl, fun i hi => ?_, hend.kept⟩
    exact ⟨hend.written i hi 0 (by decide), hend.written i hi 1 (by decide), hend.written i hi 2 (by decide)⟩
  case overflow =>
    have hbody : bodyPalExport s.view (s.work none) = .error (.raised .dstOverflow 768) (s.work none) :=
      eng_bind_error (raiseIf_fail (decide_eq_true hcap))
    show Host.Outcome.next (s.runCmd bodyPalExport) = _
    rw [runCmd_raised hbody]
    rfl

end Sys2Proof.Proofs
end

section
/-! PROOFS. The globe draw over a column list: each part of the draw against the pixels it stands for (`Draws`), from one
pixel to the two halves. -/

namespace Sys2Proof.Proofs

open Sys2Proof.Machine Sys2Proof.Claims

/-! ### The phases (R256, R257) -/

/-- R256: entry 0's phase, as a quotient. -/
theorem phase0_eq (rot : Nat) : phase0 rot = 398 * rot / 65536 * 65536 := by
  unfold phase0
  omega

theorem phasedRot_zero (s : State) : word (phase0 s.snap.rot) = (phasedRot s 0).phase := by
  rw [phase0_eq]
  rfl

/-- R256, R257, log 31: the phase an entry other than entry 0 gets. -/
theorem phasedRot_succ (s : State) {i : Nat} (hi : i ≠ 0) :
    newPhase s.snap.rot s.draws i (tableGet s.rotLen i) = (phasedRot s i).phase := by
  unfold phasedRot
  rw [if_neg hi]
  cases tableGet s.rotLen i with
  | none => rfl
  | some len =>
    simp only [newPhase, phaseOf, phaseQuotient, phase0_eq]
    rfl

/-- R256: `ComputePhases` began at `s` and has set the phases of the first `n` entries. -/
structure Phased (s : State) (n : Nat) (w : Work) : Prop where
  frame : w = { s.work none with rotPhase := w.rotPhase, draws := w.draws }
  rot : ∀ i, rotEntryAt s.epoch s.rotStart s.rotLen w.rotPhase i = if i < n then phasedRot s i else s.rotAt i

/-- R256: setting the phase of the next entry. -/
theorem Phased.write {s : State} {n : Nat} {w : Work} (h : Phased s n w) :
    ∃ w', rotWritePhase n (phasedRot s n).phase w = .ok () w' ∧ Phased s (n + 1) w' := by
  have hq : w.quota = none := by rw [h.frame]; rfl
  refine ⟨_, rotWritePhase_ok hq, by rw [h.frame], fun i => ?_⟩
  have hold := h.rot i
  unfold rotEntryAt at hold ⊢
  rw [rotPhaseAt_put]
  by_cases hi : i = n
  · subst hi
    rw [if_pos rfl, if_pos (Nat.lt_succ_self i)]
    rfl
  · rw [if_neg hi, hold]
    by_cases hlt : i < n
    · rw [if_pos hlt, if_pos (by omega)]
    · rw [if_neg hlt, if_neg (by omega)]

/-- R256: one turn of the phase loop. -/
theorem Phased.step {s : State} {n : Nat} {w : Work} (h : Phased s n w) (hn : n ≠ 0) :
    ∃ w', computePhase s.snap.rot s.draws n w = .ok () w' ∧ Phased s (n + 1) w' := by
  have hlen : w.rotLen = s.rotLen := by rw [h.frame]; rfl
  obtain ⟨w', hwrite, h'⟩ := h.write
  refine ⟨w', (eng_bind_ok (rotLenWritten_apply n w)).trans ?_, h'⟩
  rw [hlen, phasedRot_succ s hn]
  exact hwrite

/-- R256: `ComputePhases` sets the phases of all 99 entries and draws one free value. -/
theorem computePhases_ok (s : State) : ∃ w, computePhases s.snap.rot (s.work none) = .ok () w ∧ Phased s 99 w := by
  have hstart : Phased s 0 { s.work none with draws := s.draws + 1 } := ⟨rfl, fun _ => rfl⟩
  obtain ⟨w1, hzero, h1⟩ := hstart.write
  obtain ⟨w2, hloop, h2⟩ := loopFrom_ok (Phased s) (n := 98) (k := 1) (fun j w hj _ h => h.step (by omega)) h1
  refine ⟨w2, (eng_bind_ok (drawNumber_apply _)).trans ?_, h2⟩
  rw [phasedRot_zero]
  exact (eng_bind_ok hzero).trans hloop

/-! ### The state of the draw -/

/-- The regions a globe draw reads can be read, its surface can be written, and they lie apart. -/
structure GlobeRegions (s : State) : Prop where
  elevation : s.readable s.snap.globeElevAddr.toNat s.snap.globeElevLen.toNat
  map : s.readable s.snap.globeMapAddr.toNat s.snap.globeMapLen.toNat
  surface : s.writable s.snap.surfBase.toNat (s.snap.surfW * s.snap.surfH)
  elevationApart : apart s.snap.globeElevAddr.toNat s.snap.globeElevLen.toNat s.snap.surfBase.toNat
    (s.snap.surfW * s.snap.surfH)
  mapApart : apart s.snap.globeMapAddr.toNat s.snap.globeMapLen.toNat s.snap.surfBase.toNat
    (s.snap.surfW * s.snap.surfH)

/-- R259: a globe draw that began at `s` has its phases computed, memory reads as `m`, and only the surface has changed. -/
structure Drawing (s : State) (m : Nat → Byte) (w : Work) : Prop where
  frame : w = { s.work none with mem := w.mem, rotPhase := w.rotPhase, draws := w.draws, icur := w.icur }
  bytes : ∀ a, w.mem.read a = m a
  kept : ∀ a, ¬ inRegion s.snap.surfBase.toNat (s.snap.surfW * s.snap.surfH) a → m a = s.byte a
  rot : ∀ i, rotEntryAt s.epoch s.rotStart s.rotLen w.rotPhase i = if i ≤ 98 then phasedRot s i else s.rotAt i

/-- R256: the draw begins when the phases are computed. -/
theorem Phased.drawing {s : State} {w : Work} (h : Phased s 99 w) : Drawing s s.byte w where
  frame := by rw [h.frame]
  bytes a := by rw [h.frame]; rfl
  kept _ _ := rfl
  rot i := by simp only [h.rot i, Nat.lt_succ_iff]

/-- How a part of the draw ended, where the pixels it stands for leave the memory and the error `r`; without an error its
input cursor is `j`. -/
def Drawn (s : State) (j : Nat) (r : (Nat → Byte) × Option (BitVec 8 × Int)) (res : EStateM.Result Stop Work Unit) :
    Prop :=
  (r.2 = none → ∃ w, res = .ok () w ∧ Drawing s r.1 w ∧ w.icur = j)
    ∧ ∀ code info, r.2 = some (code, info) → ∃ e w, res = .error (.raised e info) w ∧ e.code = code ∧ Drawing s r.1 w

/-- Started with its input cursor at `i`, this part of the draw does what the pixels `js` stand for; without an error its
input cursor is then `j`. -/
def Draws (s : State) (x : Eng Unit) (i j : Nat) (js : List ((Int × Int) × Except (BitVec 8 × Int) Byte)) : Prop :=
  ∀ m w, Drawing s m w → w.icur = i → Drawn s j (drawPixels s.snap js m) (x w)

section
variable {s : State} {m : Nat → Byte} {w : Work} {i j k : Nat} {x y : Eng Unit}
  {js ks : List ((Int × Int) × Except (BitVec 8 × Int) Byte)}

theorem Drawing.setInput (h : Drawing s m w) (n : Nat) : Drawing s m { w with icur := n } where
  frame := by rw [h.frame]
  bytes := h.bytes
  kept := h.kept
  rot := h.rot

/-- R80: a byte of a region apart from the surface is read as it stood at the start. -/
theorem Drawing.read {base n o : Nat} (h : Drawing s m w) (hr : s.readable base n)
    (hap : apart base n s.snap.surfBase.toNat (s.snap.surfW * s.snap.surfH)) (ho : o < n) :
    memRead s.view (base + o) w = .ok (s.byte (base + o)) w := by
  obtain ⟨hplace, hfree⟩ := hr o ho
  have houtside : ¬ inRegion s.snap.surfBase.toNat (s.snap.surfW * s.snap.surfH) (base + o) := by
    unfold inRegion
    unfold apart at hap
    omega
  rw [memRead_ok hplace hfree, h.bytes, h.kept _ houtside]

/-! ### One part after another -/

theorem drawPixels_append_ok (p : Params) (h : (drawPixels p js m).2 = none) :
    drawPixels p (js ++ ks) m = drawPixels p ks (drawPixels p js m).1 := by
  induction js generalizing m with
  | nil => rfl
  | cons d js ih =>
    obtain ⟨q, _ | c⟩ := d
    · exact absurd h (Option.some_ne_none _)
    · exact ih h

theorem drawPixels_append_error (p : Params) (h : (drawPixels p js m).2 ≠ none) :
    drawPixels p (js ++ ks) m = drawPixels p js m := by
  induction js generalizing m with
  | nil => exact absurd rfl h
  | cons d js ih =>
    obtain ⟨q, _ | c⟩ := d
    · rfl
    · exact ih h

theorem draws_pure : Draws s (pure ()) i i [] :=
  fun _ w hw hi => ⟨fun _ => ⟨w, rfl, hw, hi⟩, fun _ _ h => absurd h.symm (Option.some_ne_none _)⟩

/-- Two parts of the draw, one after the other. -/
theorem Draws.bind (hx : Draws s x i j js) (hy : Draws s y j k ks) : Draws s (x >>= fun _ => y) i k (js ++ ks) := by
  intro m w hw hi
  obtain ⟨hok, herr⟩ := hx m w hw hi
  cases hr : (drawPixels s.snap js m).2 with
  | none =>
    obtain ⟨w', hrun, hw', hj⟩ := hok hr
    rw [drawPixels_append_ok _ hr, eng_bind_ok hrun]
    exact hy _ w' hw' hj
  | some d =>
    obtain ⟨code, info⟩ := d
    obtain ⟨e, w', hrun, hcode, hw'⟩ := herr code info hr
    rw [drawPixels_append_error _ (by simp [hr]), eng_bind_error hrun]
    refine ⟨fun hnone => absurd (hnone.symm.trans hr) (Option.some_ne_none _).symm, fun code' info' hsome => ?_⟩
    obtain ⟨rfl, rfl⟩ := Prod.mk.inj (Option.some.inj (hr.symm.trans hsome))
    exact ⟨e, w', rfl, hcode, hw'⟩

/-- What stands behind a part of the draw that always ends in an error is never reached. -/
theorem Draws.bind_error (hx : Draws s x i j js) (herr : ∀ m, (drawPixels s.snap js m).2 ≠ none) :
    Draws s (x >>= fun _ => y) i k js := by
  intro m w hw hi
  obtain ⟨-, hstop⟩ := hx m w hw hi
  refine ⟨fun hnone => absurd hnone (herr m), fun code info hsome => ?_⟩
  obtain ⟨e, w', hrun, hcode, hw'⟩ := hstop code info hsome
  exact ⟨e, w', eng_bind_error hrun, hcode, hw'⟩

/-- A part of the draw after a step that draws nothing. -/
theorem Draws.after {α : Type} {z : Eng α} {f : α → Eng Unit} {a : α}
    (hz : ∀ m w, Drawing s m w → w.icur = i → ∃ w', z w = .ok a w' ∧ Drawing s m w' ∧ w'.icur = j)
    (hf : Draws s (f a) j k js) : Draws s (z >>= f) i k js := by
  intro m w hw hi
  obtain ⟨w', hrun, hw', hj⟩ := hz m w hw hi
  rw [eng_bind_ok hrun]
  exact hf m w' hw' hj

/-- An error at once is a pixel that is an error. -/
theorem drawn_error {e : CmdError} {info : Int} {res : EStateM.Result Stop Work Unit} (q : Int × Int)
    (hw : Drawing s m w) (hres : res = .error (.raised e info) w) :
    Drawn s j (drawPixels s.snap ((q, .error (e.code, info)) :: js) m) res := by
  refine ⟨fun hnone => absurd hnone (Option.some_ne_none _), fun code info' hsome => ?_⟩
  obtain ⟨rfl, rfl⟩ := Prod.mk.inj (Option.some.inj hsome)
  exact ⟨e, w, hres, rfl, hw⟩

/-- A part of the draw that raises an error at once stands for a pixel that does. -/
theorem draws_error {e : CmdError} {info : Int} (q : Int × Int)
    (hx : ∀ m w, Drawing s m w → w.icur = i → x w = .error (.raised e info) w) :
    Draws s x i j ((q, .error (e.code, info)) :: js) :=
  fun m w hw hi => drawn_error q hw (hx m w hw hi)

/-! ### One pixel (R261 to R264) -/

/-- R264: an offset inside the surface. -/
theorem pointOffset_lt {p : Params} {q : Int × Int} (hx : 0 ≤ q.1) (hx' : q.1 < p.surfW) (hy : 0 ≤ q.2)
    (hy' : q.2 < p.surfH) :
    (q.2 * p.surfW + q.1).toNat = pointOffset p q ∧ pointOffset p q < p.surfW * p.surfH := by
  obtain ⟨a, ha⟩ := Int.eq_ofNat_of_zero_le hx
  obtain ⟨b, hb⟩ := Int.eq_ofNat_of_zero_le hy
  have haw : a < p.surfW := by omega
  have hbh : b < p.surfH := by omega
  unfold pointOffset
  rw [ha, hb, Int.toNat_natCast, Int.toNat_natCast]
  refine ⟨by rw [← Int.natCast_mul, ← Int.natCast_add, Int.toNat_natCast], ?_⟩
  calc b * p.surfW + a < b * p.surfW + p.surfW := by omega
    _ = (b + 1) * p.surfW := by ring
    _ ≤ p.surfH * p.surfW := Nat.mul_le_mul_right _ hbh
    _ = p.surfW * p.surfH := Nat.mul_comm _ _

/-- R264: a byte of the surface is written. -/
theorem Drawing.store (h : Drawing s m w) {o : Nat} (ho : o < s.snap.surfW * s.snap.surfH) (c : Byte) :
    Drawing s (fun a => if a = s.snap.surfBase.toNat + o then c else m a)
      { w with mem := w.mem.write (s.snap.surfBase.toNat + o) c } where
  frame := by rw [h.frame]
  bytes a := by simp only [Memory.read_write, h.bytes]
  kept a ha := by
    have hne : a ≠ s.snap.surfBase.toNat + o := by
      unfold inRegion at ha
      omega
    rw [if_neg hne, h.kept a ha]
  rot := h.rot

/-- R264: `GlobePlot` draws one pixel. -/
theorem draws_globePlot (hs : GlobeRegions s) (q : Int × Int) (c : Byte) :
    Draws s (globePlot s.view q.1 q.2 c) i i [(q, .ok c)] := by
  intro m w hw hi
  refine ⟨fun _ => ?_, fun _ _ hsome => absurd hsome.symm (Option.some_ne_none _)⟩
  by_cases hin : 0 ≤ q.1 ∧ q.1 < s.snap.surfW ∧ 0 ≤ q.2 ∧ q.2 < s.snap.surfH
  · have hmem : (drawPixels s.snap [(q, .ok c)] m).1
        = fun a => if a = s.snap.surfBase.toNat + pointOffset s.snap q then c else m a := if_pos hin
    have hplot : globePlot s.view q.1 q.2 c
        = memWrite s.view (s.snap.surfBase.toNat + (q.2 * s.snap.surfW + q.1).toNat) c := if_pos hin
    obtain ⟨hx, hx', hy, hy'⟩ := hin
    obtain ⟨hoffset, hlt⟩ := pointOffset_lt hx hx' hy hy'
    have hq : w.quota = none := by rw [hw.frame]; rfl
    rw [hmem, hplot, hoffset]
    exact ⟨_, memWrite_ok (hs.surface _ hlt) hq, hw.store hlt c, hi⟩
  · have hmem : (drawPixels s.snap [(q, .ok c)] m).1 = m := if_neg hin
    have hplot : globePlot s.view q.1 q.2 c = pure () := if_neg hin
    rw [hmem, hplot]
    exact ⟨w, rfl, hw, hi⟩

/-- R259, R260: the tilt index of an elevation byte. -/
def tiltIndex (p : Params) (half : Half) (e : Byte) : Int := elevationOf half e + 196 + p.tiltClamped

/-- R260: the claims' tilt index is the draw's. -/
theorem tiltIndex_eq (p : Params) (half : Half) (e : Byte) :
    (if half = .lower then -sext 8 e.toNat else sext 8 e.toNat) + 196 + min (max p.tiltRaw (-96)) 96
      = tiltIndex p half e := by
  cases half <;> rfl

/-- R260: a pixel whose tilt index is out of range is an error. -/
theorem globePixel_tiltRange (G : GlobeFns) (rot : Nat → RotEntry) {half : Half} (row x : Nat) {e : Byte} (side : Side)
    (h : tiltIndex s.snap half e < 0 ∨ 391 < tiltIndex s.snap half e) :
    globePixel G s rot half row x e side = .error (0x0C, tiltIndex s.snap half e) := by
  unfold globePixel
  simp only [tiltIndex_eq]
  rw [if_pos h]

/-- A read gives the byte of a pixel's colour, or the error of a pixel that is one. -/
def ReadsPixel (s : State) (px : Except (BitVec 8 × Int) Byte) (w : Work) (res : EStateM.Result Stop Work Byte) :
    Prop :=
  match px with
  | .ok c => ∃ b, res = .ok b w ∧ globeColour s.plat b = c
  | .error (code, info) => ∃ e : CmdError, e.code = code ∧ res = .error (.raised e info) w

/-- R261, R262: `MapByte` reads the map byte of a pixel whose tilt index is in range. -/
theorem mapByte_reads (G : GlobeFns) (hs : GlobeRegions s) (hw : Drawing s m w) {half : Half} {e : Byte} (row x : Nat)
    (side : Side) (h : ¬ (tiltIndex s.snap half e < 0 ∨ 391 < tiltIndex s.snap half e)) :
    ReadsPixel s (globePixel G s (phasedRot s) half row x e side) w
      (mapByte G s.view x row half side (tilt (tiltIndex s.snap half e).toNat).1
        (tilt (tiltIndex s.snap half e).toNat).2 w) := by
  unfold globePixel
  simp only [tiltIndex_eq]
  rw [if_neg h]
  generalize (tilt (tiltIndex s.snap half e).toNat).1 = sec
  generalize (tilt (tiltIndex s.snap half e).toNat).2 = lat
  by_cases hrs : s.snap.globeElevLen.toNat ≤ G.auxRs x lat
  · rw [if_pos hrs]
    exact ⟨.srcEof, rfl, eng_bind_error (raiseIf_fail (decide_eq_true hrs))⟩
  have hrsPass : decide (s.view.elevation.len ≤ G.auxRs x lat) = false := decide_eq_false hrs
  rw [if_neg hrs]
  by_cases hsd : s.snap.globeElevLen.toNat ≤ G.auxSd x lat
  · rw [if_pos hsd]
    exact ⟨.srcEof, rfl,
      (eng_bind_ok (raiseIf_pass hrsPass)).trans (eng_bind_error (raiseIf_fail (decide_eq_true hsd)))⟩
  have hsdPass : decide (s.view.elevation.len ≤ G.auxSd x lat) = false := decide_eq_false hsd
  rw [if_neg hsd]
  have hreadRs := hw.read hs.elevation hs.elevationApart (Nat.lt_of_not_le hrs)
  have hreadSd := hw.read hs.elevation hs.elevationApart (Nat.lt_of_not_le hsd)
  generalize s.byte (s.snap.globeElevAddr.toNat + G.auxRs x lat) = rs at hreadRs ⊢
  generalize s.byte (s.snap.globeElevAddr.toNat + G.auxSd x lat) = sd at hreadSd ⊢
  have hhead : mapByte G s.view x row half side sec lat w = _ :=
    (eng_bind_ok (raiseIf_pass hrsPass)).trans ((eng_bind_ok (raiseIf_pass hsdPass)).trans
      ((eng_bind_ok hreadRs).trans (eng_bind_ok hreadSd)))
  rw [hhead]
  by_cases hrow : 98 < rs.toNat
  · rw [if_pos hrow]
    exact ⟨.globeRowRange, rfl, eng_bind_error (raiseIf_fail (decide_eq_true hrow))⟩
  have hentry : rotRead s.view rs.toNat w = .ok (phasedRot s rs.toNat) w := by
    have hrot := hw.rot rs.toNat
    rw [if_pos (Nat.le_of_not_lt hrow)] at hrot
    rw [← hrot, hw.frame]
    rfl
  rw [if_neg hrow, eng_bind_ok (raiseIf_pass (decide_eq_false hrow)), eng_bind_ok hentry]
  generalize G.offset _ = o
  unfold mapRead mapOffset
  generalize (if o < 0 then o + ((phasedRot s rs.toNat).len.toNat : Int) else o) = k
  by_cases hmap : k < 0 ∨ (s.snap.globeMapLen.toNat : Int) ≤ k
  · rw [if_pos hmap]
    exact ⟨.globeMapRange, rfl, congrFun (if_pos hmap) w⟩
  · rw [if_neg hmap]
    have hk : k.toNat < s.snap.globeMapLen.toNat := by omega
    exact ⟨_, (congrFun (if_neg hmap) w).trans (hw.read hs.map hs.mapApart hk), rfl⟩

/-- R259: one of the two mirrored pixels of a column whose tilt index is in range. -/
theorem draws_globeSide (G : GlobeFns) (hs : GlobeRegions s) {half : Half} {e : Byte} (row x : Nat) (side : Side)
    (h : ¬ (tiltIndex s.snap half e < 0 ∨ 391 < tiltIndex s.snap half e)) :
    Draws s (globeSide G s.view half row x (tilt (tiltIndex s.snap half e).toNat).1
        (tilt (tiltIndex s.snap half e).toNat).2 side) i i
      [(globePoint s.snap half row x side, globePixel G s (phasedRot s) half row x e side)] := by
  intro m w hw hi
  have hpoint : globePoint s.snap half row x side = (globeX s.snap x side, globeY s.snap row half) := by
    cases half <;> cases side <;> rfl
  have hread := mapByte_reads G hs hw row x side h
  unfold globeSide
  cases hpx : globePixel G s (phasedRot s) half row x e side with
  | ok c =>
    rw [hpx] at hread
    obtain ⟨b, hb, rfl⟩ := hread
    rw [eng_bind_ok hb, hpoint]
    exact draws_globePlot hs (globeX s.snap x side, globeY s.snap row half) _ m w hw hi
  | error d =>
    obtain ⟨code, info⟩ := d
    rw [hpx] at hread
    obtain ⟨e', rfl, herr⟩ := hread
    exact drawn_error _ hw (eng_bind_error herr)

end

end Sys2Proof.Proofs
end

section
/-! PROOFS. The globe draw from a column to the whole command: the column list in the elevation resource, the runs of a
half, and the end of GLOBE_DRAW. -/

namespace Sys2Proof.Proofs

open Sys2Proof.Machine Sys2Proof.Claims

/-! ### The elevation resource (R121) -/

/-- These bytes stand in the elevation resource from offset `i` on. -/
def ElevationAt (s : State) (i : Nat) (bs : List Byte) : Prop :=
  i + bs.length ≤ s.snap.globeElevLen.toNat ∧ s.holds (s.snap.globeElevAddr.toNat + i) bs

section
variable {s : State} {m : Nat → Byte} {w : Work} {i j : Nat} {bs cs : List Byte} {half : Half}
  {js : List ((Int × Int) × Except (BitVec 8 × Int) Byte)}

theorem ElevationAt.append (h : ElevationAt s i (bs ++ cs)) :
    ElevationAt s i bs ∧ ElevationAt s (i + bs.length) cs := by
  obtain ⟨hlen, hbytes⟩ := h
  rw [List.length_append] at hlen
  refine ⟨⟨by omega, fun k b hb => ?_⟩, by omega, fun k b hb => ?_⟩
  · obtain ⟨hk, -⟩ := List.getElem?_eq_some_iff.1 hb
    exact hbytes k b (by rw [List.getElem?_append_left hk, hb])
  · rw [← Nat.add_assoc, Nat.add_assoc _ bs.length k]
    exact hbytes (bs.length + k) b (by rw [List.getElem?_append_right (by omega), Nat.add_sub_cancel_left, hb])

theorem ElevationAt.tail {b : Byte} (h : ElevationAt s i (b :: bs)) : ElevationAt s (i + 1) bs :=
  (ElevationAt.append (bs := [b]) h).2

/-- R10: the draw reads the next byte of the elevation resource. -/
theorem ElevationAt.inByte {b : Byte} (h : ElevationAt s i (b :: bs)) (hs : GlobeRegions s) (hw : Drawing s m w)
    (hi : w.icur = i) :
    ∃ w', inByte s.view s.view.elevation w = .ok b w' ∧ Drawing s m w' ∧ w'.icur = i + 1 := by
  obtain ⟨hlen, hbytes⟩ := h
  rw [List.length_cons] at hlen
  have hin : w.icur < s.view.elevation.len := by
    show w.icur < s.snap.globeElevLen.toNat
    omega
  have hbyte : s.byte (s.snap.globeElevAddr.toNat + i) = b := hbytes 0 b rfl
  have hread := hw.read hs.elevation hs.elevationApart hin
  rw [hi, hbyte, ← hi] at hread
  refine ⟨{ w with icur := w.icur + 1 }, (eng_bind_ok (inputCursor_apply w)).trans ?_, hw.setInput _, congrArg (· + 1) hi⟩
  rw [if_pos hin]
  exact eng_bind_ok hread

/-- The error that the end of the elevation resource raises, as a pixel (log 19). -/
def eofPixel (s : State) : (Int × Int) × Except (BitVec 8 × Int) Byte :=
  ((0, 0), .error (0x02, (s.snap.globeElevLen.toNat : Int)))

/-- R10: a read at the end of the elevation resource. -/
theorem inByte_elevation_eof (hi : w.icur = s.snap.globeElevLen.toNat) :
    inByte s.view s.view.elevation w = .error (.raised .srcEof (s.snap.globeElevLen.toNat : Nat)) w := by
  have hend : s.view.elevation.len ≤ w.icur := Nat.le_of_eq hi.symm
  rw [inByte_eof hend, hi]

/-- A part of the draw that begins with a read at the end of the elevation resource ends there. -/
theorem draws_eof {f : Byte → Eng Unit} (hi : i = s.snap.globeElevLen.toNat) :
    Draws s (inByte s.view s.view.elevation >>= f) i j [eofPixel s] :=
  draws_error (e := .srcEof) _ fun _ _ _ hicur => eng_bind_error (inByte_elevation_eof (hicur.trans hi))

/-- Pixels that end with the end of the elevation resource end in an error. -/
theorem drawPixels_eof_ne_none {p : Params} : (drawPixels p (js ++ [eofPixel s]) m).2 ≠ none := by
  by_cases h : (drawPixels p js m).2 = none
  · rw [drawPixels_append_ok p h]
    exact Option.some_ne_none _
  · rw [drawPixels_append_error p h]
    exact h

/-! ### Columns and runs (R259) -/

/-- R259: the two mirrored pixels of a column. -/
def columnPixels (G : GlobeFns) (s : State) (half : Half) (row x : Nat) (e : Byte) :
    List ((Int × Int) × Except (BitVec 8 × Int) Byte) :=
  [Side.left, Side.right].map fun side =>
    (globePoint s.snap half row x side, globePixel G s (phasedRot s) half row x e side)

/-- R259: the pixels of a run from column `x` on. -/
def rowPixels (G : GlobeFns) (s : State) (half : Half) (row x : Nat) (es : List Byte) :
    List ((Int × Int) × Except (BitVec 8 × Int) Byte) :=
  (es.zipIdx x).flatMap fun (e, x) => columnPixels G s half row x e

/-- R259: the pixels of a half from run `row` on. -/
def runPixels (G : GlobeFns) (s : State) (half : Half) (row : Nat) (rows : List (List Byte)) :
    List ((Int × Int) × Except (BitVec 8 × Int) Byte) :=
  (rows.zipIdx row).flatMap fun (es, row) => rowPixels G s half row 0 es

theorem globePixels_eq_runPixels (G : GlobeFns) (s : State) (half : Half) (rows : List (List Byte)) :
    globePixels G s (phasedRot s) half rows = runPixels G s half 0 rows := rfl

theorem runPixels_append_one (G : GlobeFns) (rows : List (List Byte)) (es : List Byte) :
    runPixels G s half 0 (rows ++ [es]) = runPixels G s half 0 rows ++ rowPixels G s half rows.length 0 es := by
  unfold runPixels
  rw [List.zipIdx_append, List.flatMap_append, List.zipIdx_singleton, List.flatMap_singleton, Nat.zero_add]

/-- R259, R260: a column draws its two pixels, or ends at its tilt lookup. -/
theorem draws_globeColumn (G : GlobeFns) (hs : GlobeRegions s) {e : Byte} (h : ElevationAt s i (e :: bs)) (row x : Nat) :
    Draws s (globeColumn G s.view half row x) i (i + 1) (columnPixels G s half row x e) := by
  refine Draws.after (fun m w hw hi => h.inByte hs hw hi) ?_
  by_cases hrange : tiltIndex s.snap half e < 0 ∨ 391 < tiltIndex s.snap half e
  · have hlookup : tiltLookup (tiltIndex s.snap half e) = raise .globeTiltRange (tiltIndex s.snap half e) :=
      if_pos hrange
    rw [columnPixels, List.map_cons, globePixel_tiltRange G (phasedRot s) row x .left hrange]
    exact draws_error (e := .globeTiltRange) _ fun _ w _ _ => eng_bind_error (congrFun hlookup w)
  · have hlookup : tiltLookup (tiltIndex s.snap half e) = pure (tilt (tiltIndex s.snap half e).toNat) :=
      if_neg hrange
    refine Draws.after (fun _ w hw hi => ⟨w, congrFun hlookup w, hw, hi⟩) ?_
    exact (draws_globeSide G hs row x .left hrange).bind (draws_globeSide G hs row x .right hrange)

/-- R259: the columns of a run whose elevation bytes are there. -/
theorem draws_globeColumns (G : GlobeFns) (hs : GlobeRegions s) {es : List Byte} (h : ElevationAt s i es)
    (row x : Nat) :
    Draws s (loopFrom (globeColumn G s.view half row) es.length x) i (i + es.length)
      (rowPixels G s half row x es) := by
  induction es generalizing i x with
  | nil => exact draws_pure
  | cons e es ih =>
    have hrest := ih h.tail (x + 1)
    rw [Nat.add_right_comm, Nat.add_assoc] at hrest
    rw [List.length_cons, loopFrom_succ, rowPixels, List.zipIdx_cons, List.flatMap_cons]
    exact (draws_globeColumn G hs h row x).bind hrest

/-- A loop is its first calls and then the others. -/
theorem loopFrom_add (f : Nat → Eng Unit) (a b k : Nat) :
    loopFrom f (a + b) k = (loopFrom f a k >>= fun _ => loopFrom f b (k + a)) := by
  induction a generalizing k with
  | zero =>
    rw [Nat.zero_add]
    rfl
  | succ a ih =>
    rw [Nat.add_right_comm, loopFrom_succ, loopFrom_succ, ih, bind_assoc, Nat.add_right_comm k 1 a]
    rfl

/-- R259: the columns of a run that the end of the elevation resource cuts. -/
theorem draws_globeColumns_cut (G : GlobeFns) (hs : GlobeRegions s) {es : List Byte} {n : Nat} (h : ElevationAt s i es)
    (hn : es.length < n) (hend : i + es.length = s.snap.globeElevLen.toNat) (row : Nat) :
    Draws s (loop n (globeColumn G s.view half row)) i j (rowPixels G s half row 0 es ++ [eofPixel s]) := by
  obtain ⟨d, rfl⟩ := Nat.exists_eq_add_of_lt hn
  unfold loop
  rw [Nat.add_assoc, loopFrom_add]
  refine (draws_globeColumns G hs h row 0).bind (Draws.bind_error (j := j) (draws_eof hend) fun m => ?_)
  exact Option.some_ne_none _

/-- R121: the length byte of a run. -/
theorem runLength_ofNat {n : Nat} (h : 1 ≤ n ∧ n ≤ 255) : runLength (BitVec.ofNat 8 (256 - n)) = n := by
  unfold runLength
  rw [BitVec.toNat_ofNat]
  omega

/-- R121: a run is its length byte, its columns and the runs after it. -/
theorem draws_globeRuns_succ (G : GlobeFns) (hs : GlobeRegions s) {n fuel row : Nat} (hn : 1 ≤ n ∧ n ≤ 255)
    (h : ElevationAt s i (BitVec.ofNat 8 (256 - n) :: bs))
    (hrun : Draws s (loop n (globeColumn G s.view half row) >>= fun _ => globeRuns G s.view half fuel (row + 1)) (i + 1)
      j js) :
    Draws s (globeRuns G s.view half (fuel + 1) row) i j js := by
  refine Draws.after (fun m w hw hi => h.inByte hs hw hi) ?_
  rw [runLength_ofNat hn, if_neg (Nat.ne_of_gt hn.1)]
  exact hrun

/-- R259: whole runs draw their pixels, and then comes what follows them. -/
theorem draws_globeRuns (G : GlobeFns) (hs : GlobeRegions s) {rows : List (List Byte)} {fuel row : Nat}
    (hrows : ∀ es ∈ rows, 1 ≤ es.length ∧ es.length ≤ 255)
    (h : ElevationAt s i (rows.flatMap fun es => codedRow es.length es))
    (hrest : Draws s (globeRuns G s.view half fuel (row + rows.length))
      (i + (rows.flatMap fun es => codedRow es.length es).length) j js) :
    Draws s (globeRuns G s.view half (rows.length + fuel) row) i j (runPixels G s half row rows ++ js) := by
  induction rows generalizing i row with
  | nil =>
    rw [List.length_nil, Nat.zero_add]
    exact hrest
  | cons es rows ih =>
    rw [List.flatMap_cons] at h hrest
    obtain ⟨hrow, htail⟩ := h.append
    have hlen : (codedRow es.length es).length = es.length + 1 := rfl
    rw [List.length_append, ← Nat.add_assoc, List.length_cons, Nat.add_comm rows.length, ← Nat.add_assoc] at hrest
    have hnext := ih (fun x hx => hrows x (List.mem_cons_of_mem es hx)) htail hrest
    rw [hlen, Nat.add_comm es.length, ← Nat.add_assoc] at hnext
    rw [List.length_cons, Nat.add_right_comm, runPixels, List.zipIdx_cons, List.flatMap_cons, List.append_assoc]
    exact draws_globeRuns_succ G hs (hrows es List.mem_cons_self) hrow
      ((draws_globeColumns G hs hrow.tail row 0).bind hnext)

/-! ### The end of the column list (R121, R259) -/

/-- R121: the bytes that end a column list. -/
def endBytes : ListEnd → List Byte
  | .stop => [0]
  | .missing => []
  | .partway n es => codedRow n es

/-- R259: the pixels behind the whole runs of a half. -/
def endPixels (G : GlobeFns) (s : State) (half : Half) (row : Nat) :
    ListEnd → List ((Int × Int) × Except (BitVec 8 × Int) Byte)
  | .stop => []
  | .missing => [eofPixel s]
  | .partway _ es => rowPixels G s half row 0 es ++ [eofPixel s]

theorem columnList_eq (rows : List (List Byte)) (fin : ListEnd) :
    columnList rows fin = (rows.flatMap fun es => codedRow es.length es) ++ endBytes fin := by
  cases fin <;> rfl

/-- R259: what a half does behind its whole runs: it ends at the terminator, or at the end of the resource. -/
theorem draws_listEnd (G : GlobeFns) (hs : GlobeRegions s) {fin : ListEnd} {fuel row : Nat}
    (hpart : ∀ n es, fin = .partway n es → es.length < n ∧ n ≤ 255) (h : ElevationAt s i (endBytes fin))
    (hend : fin ≠ .stop → i + (endBytes fin).length = s.snap.globeElevLen.toNat) :
    Draws s (globeRuns G s.view half (fuel + 1) row) i (i + (endBytes fin).length) (endPixels G s half row fin) := by
  cases fin with
  | stop => exact Draws.after (fun m w hw hi => h.inByte hs hw hi) draws_pure
  | missing => exact draws_eof (hend (by simp))
  | partway n es =>
    obtain ⟨hlt, hle⟩ := hpart n es rfl
    have hcut : i + 1 + es.length = s.snap.globeElevLen.toNat := by
      have hlen : (endBytes (.partway n es)).length = es.length + 1 := rfl
      have := hend (by simp)
      omega
    refine draws_globeRuns_succ G hs ⟨by omega, hle⟩ h ?_
    exact Draws.bind_error (draws_globeColumns_cut (j := 0) G hs h.tail hlt hcut row) fun m => drawPixels_eof_ne_none

/-! ### A half and the whole draw (R259) -/

/-- R259: a half draws the pixels of the column list. -/
theorem draws_globeHalf (G : GlobeFns) (hs : GlobeRegions s) {rows : List (List Byte)} {fin : ListEnd}
    (hrows : ∀ es ∈ rows, 1 ≤ es.length ∧ es.length ≤ 255)
    (hpart : ∀ n es, fin = .partway n es → es.length < n ∧ n ≤ 255)
    (h : ElevationAt s s.plat.collistOff (columnList rows fin))
    (hend : fin ≠ .stop → s.plat.collistOff + (columnList rows fin).length = s.snap.globeElevLen.toNat) (i : Nat) :
    Draws s (globeHalf G s.view half) i (s.plat.collistOff + (columnList rows fin).length)
      (runPixels G s half 0 rows ++ endPixels G s half rows.length fin) := by
  refine Draws.after (j := s.plat.collistOff) (fun m w hw _ => ⟨_, rfl, hw.setInput _, rfl⟩) ?_
  rw [columnList_eq] at h hend ⊢
  have hfuel : rows.length ≤ s.view.elevation.len := by
    have hinside : _ ≤ s.view.elevation.len := h.1
    have hbytes := length_le_flatMap (f := fun es => codedRow es.length es) (fun es => Nat.le_add_left 1 es.length) rows
    rw [List.length_append] at hinside
    omega
  obtain ⟨hruns, htail⟩ := h.append
  rw [List.length_append, ← Nat.add_assoc] at hend ⊢
  have htotal : s.view.elevation.len + 1 = rows.length + (s.view.elevation.len - rows.length + 1) := by omega
  rw [htotal]
  refine draws_globeRuns G hs hrows hruns ?_
  rw [Nat.zero_add]
  exact draws_listEnd G hs hpart htail hend

/-- R259: the upper half and then the lower half draw the pixels of the draw; a list without its terminator ends it in
the upper half. -/
theorem draws_halves (G : GlobeFns) (hs : GlobeRegions s) {rows : List (List Byte)} {fin : ListEnd}
    (hrows : ∀ es ∈ rows, 1 ≤ es.length ∧ es.length ≤ 255)
    (hpart : ∀ n es, fin = .partway n es → es.length < n ∧ n ≤ 255)
    (h : ElevationAt s s.plat.collistOff (columnList rows fin))
    (hend : fin ≠ .stop → s.plat.collistOff + (columnList rows fin).length = s.snap.globeElevLen.toNat) (i : Nat) :
    Draws s (globeHalf G s.view .upper >>= fun _ => globeHalf G s.view .lower) i
      (s.plat.collistOff + (columnList rows fin).length) (drawnPixels G s (phasedRot s) rows fin) := by
  have half : ∀ (half : Half) (i : Nat), Draws s (globeHalf G s.view half) i _ _ := fun half =>
    draws_globeHalf G hs hrows hpart h hend
  cases fin with
  | stop =>
    have hboth := (half .upper i).bind (half .lower _)
    rw [endPixels, endPixels, List.append_nil, List.append_nil] at hboth
    exact hboth
  | missing => exact (half .upper i).bind_error fun m => drawPixels_eof_ne_none
  | partway n es =>
    have hpixels : drawnPixels G s (phasedRot s) rows (.partway n es)
        = (runPixels G s .upper 0 rows ++ rowPixels G s .upper rows.length 0 es) ++ [eofPixel s] := by
      rw [drawnPixels, globePixels_eq_runPixels, runPixels_append_one]
      rfl
    have hupper := half .upper i
    rw [endPixels, ← List.append_assoc] at hupper
    rw [hpixels]
    exact hupper.bind_error fun m => drawPixels_eof_ne_none

/-! ### The end of the command (R259, R330) -/

/-- What a globe draw leaves in the state. -/
theorem Drawing.land (h : Drawing s m w) :
    s.land w = { s with mem := w.mem, rotPhase := w.rotPhase, draws := w.draws } := by
  rw [h.frame]
  rfl

/-- R259: the draw computes the phases, and then it is its two halves. -/
theorem drawGlobe_eq (G : GlobeFns) (v : View) :
    drawGlobe G v = (computePhases v.snap.rot >>= fun _ =>
      (globeHalf G v .upper >>= fun _ => globeHalf G v .lower) >>= fun _ => pure {}) := by
  unfold drawGlobe
  rw [bind_assoc]

/-- R330, R334: how a command ends that computes its phases and draws pixels. -/
theorem Drawn.runCmd {r : (Nat → Byte) × Option (BitVec 8 × Int)} {x : Eng Unit} {body : View → Eng Staged}
    (h : Drawn s j r (x w)) (hbody : body s.view (s.work none) = (x >>= fun _ => pure {}) w) :
    ∃ w', Drawing s r.1 w'
      ∧ (r.2 = none → s.runCmd body
          = { ended s with mem := w'.mem, rotPhase := w'.rotPhase, draws := w'.draws })
      ∧ ∀ code info, r.2 = some (code, info) → s.runCmd body
          = { failed s code (BitVec.ofInt 32 info) with mem := w'.mem, rotPhase := w'.rotPhase, draws := w'.draws } := by
  obtain ⟨hok, herr⟩ := h
  cases hr : r.2 with
  | none =>
    obtain ⟨w', hrun, hw', -⟩ := hok hr
    rw [eng_bind_ok hrun] at hbody
    refine ⟨w', hw', fun _ => ?_, fun _ _ hsome => absurd hsome.symm (Option.some_ne_none _)⟩
    rw [runCmd_ok hbody, hw'.land]
    rfl
  | some d =>
    obtain ⟨code, info⟩ := d
    obtain ⟨e, w', hrun, hcode, hw'⟩ := herr code info hr
    rw [eng_bind_error hrun] at hbody
    refine ⟨w', hw', fun hnone => absurd hnone (Option.some_ne_none _), fun code' info' hsome => ?_⟩
    obtain ⟨rfl, rfl⟩ := Prod.mk.inj (Option.some.inj hsome)
    rw [runCmd_raised hbody, hw'.land, ← hcode]
    rfl

end

/-- Settles O59: after the phases the two halves draw the pixels of the column list, up to the first error. -/
theorem globeDrawDrawsItsColumnList : Obligations.GlobeDrawDrawsItsColumnList := by
  intro G s rows fin p elev len list surf area drawn hrows hpart hstop hcut hholds helev hmap hsurf hapElev hapMap
  have hs : GlobeRegions s := ⟨helev, hmap, hsurf, hapElev, hapMap⟩
  have hlist : ElevationAt s s.plat.collistOff list := by
    refine ⟨?_, hholds⟩
    by_cases hfin : fin = .stop
    · exact hstop hfin
    · exact (hcut hfin).le
  obtain ⟨w0, hphases, h0⟩ := computePhases_ok s
  have hdrawn := draws_halves G hs hrows hpart hlist hcut w0.icur s.byte w0 h0.drawing rfl
  have hbody : drawGlobe G s.view (s.work none)
      = ((globeHalf G s.view .upper >>= fun _ => globeHalf G s.view .lower) >>= fun _ => pure {}) w0 := by
    rw [drawGlobe_eq]
    exact eng_bind_ok hphases
  obtain ⟨w, hw, hok, herr⟩ := hdrawn.runCmd hbody
  have hexec : G = globeFns → exec .globeDraw s = .next (s.runCmd (drawGlobe G)) := by
    rintro rfl
    rfl
  cases hr : drawn.2 with
  | none =>
    rw [hok hr] at hexec ⊢
    exact ⟨_, rfl, hexec, fun _ => rfl, fun _ _ h => absurd h.symm (Option.some_ne_none _), hw.bytes, hw.rot⟩
  | some d =>
    obtain ⟨code, info⟩ := d
    rw [herr code info hr] at hexec ⊢
    refine ⟨_, rfl, hexec, fun h => absurd h (Option.some_ne_none _), fun code' info' h => ?_, hw.bytes, hw.rot⟩
    obtain ⟨rfl, rfl⟩ := Prod.mk.inj (Option.some.inj h)
    rfl

end Sys2Proof.Proofs
end

section
/-! PROOFS. NOP (spec/40_control.md): its body writes and stages nothing, so its end is the common end of a
command shows (R150, R334). -/

namespace Sys2Proof.Proofs

open Sys2Proof.Machine Sys2Proof.Claims

/-- A command that wrote nothing leaves memory and the internal RAMs as they were. -/
theorem land_work (s : State) (quota : Option Nat) : s.land (s.work quota) = s := rfl

/-- R334: with no staged result, a command's end is only the common end. -/
theorem commitDone_of_nothing_staged (s : State) : s.commitDone {} = ended s := rfl

/-- Settles O29: NOP's body succeeds with nothing written and nothing staged. -/
theorem nopOnlyEnds : Obligations.NopOnlyEnds := by
  intro s
  have hbody : body .nop s.view (s.work none) = .ok {} (s.work none) := rfl
  rw [exec_eq_body, runCmd_ok hbody, land_work, commitDone_of_nothing_staged]

end Sys2Proof.Proofs
end

section
/-! PROOFS. The other ends of the HSQ commands (spec/41_hsq.md): HSQ_PROBE with a whole and with a short header, and
HSQ_DECOMPRESS's verbatim copy, whose loop copies byte after byte (`Copies`). -/

namespace Sys2Proof.Proofs

open Sys2Proof.Machine Sys2Proof.Claims

/-! ### Reads past the end of a source (R10) -/

/-- R10: with fewer than `n` bytes of the source left, `x` ends with SRC_EOF at the source's end. -/
def NeedsBytes {α : Type} (s : State) (n : Nat) (x : Eng α) : Prop :=
  ∀ w : Work, w.icur ≤ s.view.source.len → s.view.source.len < w.icur + n →
    x w = .error (.raised .srcEof s.view.source.len) { w with icur := s.view.source.len }

section
variable {α : Type} {s : State} {n : Nat}

theorem needsBytes_zero (x : Eng α) : NeedsBytes s 0 x := fun _ hle hlt => absurd hle (Nat.not_le.2 hlt)

/-- A read of one byte, and then a part that needs `n`, needs `n + 1`. -/
theorem needsBytes_inByte {f : Byte → Eng α} (hr : s.readable s.snap.srcAddr.toNat s.snap.srcLen.toNat)
    (hf : ∀ b, NeedsBytes s n (f b)) : NeedsBytes s (n + 1) (inByte s.view s.view.source >>= f) := by
  intro w hle hlt
  rcases Nat.eq_or_lt_of_le hle with hend | hin
  · rw [eng_bind_error (inByte_eof (Nat.le_of_eq hend.symm)), ← hend]
  · obtain ⟨hplace, hfree⟩ := hr w.icur hin
    rw [eng_bind_ok (inByte_ok (v := s.view) hin hplace hfree)]
    exact hf _ { w with icur := w.icur + 1 } hin (by show _ < w.icur + 1 + n; omega)

/-- R161: the header parse needs six bytes. -/
theorem parseHeader_needsBytes (hr : s.readable s.snap.srcAddr.toNat s.snap.srcLen.toNat) :
    NeedsBytes s 6 (parseHeader s.view s.view.source) :=
  needsBytes_inByte hr fun _ => needsBytes_inByte hr fun _ => needsBytes_inByte hr fun _ =>
    needsBytes_inByte hr fun _ => needsBytes_inByte hr fun _ => needsBytes_inByte hr fun _ => needsBytes_zero _

end

/-! ### HSQ_PROBE (R162) -/

/-- R162: the second result word, its fields in the order of the header's bytes. -/
theorem probeWord_eq (csize unused : Nat) :
    word (csize + (unused <<< 16)) = BitVec.ofNat 32 (csize + 65536 * unused) := by
  rw [word, Nat.shiftLeft_eq, Nat.mul_comm]

/-- Settles O30: a header of six bytes that can be read is parsed, a shorter one ends the parse at the source's end. -/
theorem hsqProbeReportsTheHeader : Obligations.HsqProbeReportsTheHeader := by
  intro s b
  refine ⟨fun hlen hr => ?whole, fun hlen hr => ?short⟩
  case whole =>
    have hbody : body .hsqProbe s.view (s.work none) = .ok
        { result0 := some (word (headerAt s.snap s.mem).usize)
          result1 := some (word ((headerAt s.snap s.mem).csize + ((headerAt s.snap s.mem).unused <<< 16)))
          compressed := some (headerAt s.snap s.mem).ok } { s.work none with icur := 6 } :=
      eng_bind_ok (parseHeader_of_readable hlen hr)
    rw [exec_eq_body, runCmd_ok hbody, probeWord_eq]
    rfl
  case short =>
    have hbody : body .hsqProbe s.view (s.work none)
        = .error (.raised .srcEof s.snap.srcLen.toNat) { s.work none with icur := s.snap.srcLen.toNat } :=
      eng_bind_error (parseHeader_needsBytes hr (s.work none) (Nat.zero_le _) hlen)
    rw [exec_eq_body, runCmd_raised hbody, raiseError_natCast, BitVec.ofNat_toNat, BitVec.setWidth_eq]
    rfl

/-! ### The verbatim copy (R168) -/

/-- R168: a forward copy from `src` to `dst` began at `w0` and has copied the first `n` bytes, and written nothing
else. -/
structure Copies (src dst : Nat) (w0 : Work) (n : Nat) (w : Work) : Prop where
  frame : w = { w0 with mem := w.mem }
  copied : ∀ k, k < n → w.mem.read (dst + k) = w0.mem.read (src + k)
  kept : ∀ a, ¬ inRegion dst n a → w.mem.read a = w0.mem.read a

theorem copies_start (src dst : Nat) (w0 : Work) : Copies src dst w0 0 w0 :=
  ⟨rfl, fun _ hk => absurd hk (Nat.not_lt_zero _), fun _ _ => rfl⟩

/-- R168: one turn of the copy, where the destination begins at or before the source or behind the byte that is read:
the bytes written so far do not hold that byte. -/
theorem Copies.step {v : View} {st : Stream} {dst n : Nat} {w0 w : Work} (h : Copies st.base dst w0 n w)
    (hq : w0.quota = none) (hread : st.base + n < v.plat.memSize ∧ st.base + n ∉ v.contested)
    (hwrite : dst + n < v.plat.memSize) (hsafe : dst ≤ st.base ∨ st.base + n < dst) :
    ∃ w', verbatimByte v st dst n w = .ok () w' ∧ Copies st.base dst w0 (n + 1) w' := by
  have hquota : w.quota = none := by
    rw [h.frame]
    exact hq
  have hsource : w.mem.read (st.base + n) = w0.mem.read (st.base + n) :=
    h.kept _ (by unfold inRegion; omega)
  refine ⟨{ w with mem := w.mem.write (dst + n) (w0.mem.read (st.base + n)) }, ?_, ?_, ?_, ?_⟩
  · rw [← hsource]
    exact (eng_bind_ok (memRead_ok hread.1 hread.2)).trans (memWrite_ok hwrite hquota)
  · rw [h.frame]
  · intro k hk
    rcases Nat.lt_succ_iff_lt_or_eq.1 hk with hlt | rfl
    · rw [Memory.read_write_other _ _ (by omega), h.copied k hlt]
    · exact Memory.read_write_same _ _ _
  · intro a ha
    unfold inRegion at ha
    rw [Memory.read_write_other _ _ (by omega), h.kept a (by unfold inRegion; omega)]

/-- Settles O31: the header does not check and the source fits, so the loop copies byte after byte. -/
theorem hsqDecompressCopiesVerbatim : Obligations.HsqDecompressCopiesVerbatim := by
  intro s src len dst hlen hok hfit hread hwrite hsafe
  have hheader := parseHeader_of_readable hlen fun k hk => hread k (by omega)
  obtain ⟨w, hloop, hend⟩ := loop_ok (Copies src dst { s.work none with icur := 6 }) (n := len)
    (fun j w hj h => h.step (v := s.view) (st := s.view.source) rfl (hread j hj) (hwrite j hj)
      (hsafe.imp_right fun hbehind => (Nat.add_lt_add_left hj src).trans_le hbehind)) (copies_start src dst _)
  have hbody : body .hsqDecompress s.view (s.work none) = .ok
      { result0 := some (word len), result1 := some (word len), compressed := some false } w := by
    refine (eng_bind_ok hheader).trans ?_
    rw [if_neg (Bool.eq_false_iff.1 hok)]
    exact (eng_bind_ok (raiseIf_pass (decide_eq_false (Nat.not_lt.2 hfit)))).trans (eng_bind_ok hloop)
  have hword : word len = s.snap.srcLen := by rw [word, BitVec.ofNat_toNat, BitVec.setWidth_eq]
  have hrun : s.runCmd (body .hsqDecompress)
      = { ended s with
          mem := w.mem, result0 := s.snap.srcLen, result1 := s.snap.srcLen
          status := { s.status with done := true, compressed := false } } := by
    rw [runCmd_ok hbody, hend.frame, hword]
    rfl
  rw [exec_eq_body, hrun]
  exact ⟨_, rfl, rfl, hend.copied, hend.kept⟩

end Sys2Proof.Proofs
end

section
/-! PROOFS. The palette's other commands (spec/42_palette.md): the update laws of PAL_APPLY, PAL_COPY entry after entry
(`Clones`), and the commands on a single entry or on two packed colours. -/

namespace Sys2Proof.Proofs

open Sys2Proof.Machine Sys2Proof.Claims

/-! ### Packed colours and signed fields (R8, R114) -/

/-- R7: a field of a register, as a number. -/
theorem bits_eq_toNat (v : Word) (n lo : Nat) : bits v (lo + n) lo = (v.extractLsb' lo (n + 1)).toNat := by
  have hwidth : lo + n + 1 - lo = n + 1 := by omega
  rw [bits, hwidth, BitVec.extractLsb'_toNat]

/-- R7: a field of a register, as the bit vector of its width. -/
theorem ofNat_bits (v : Word) (n lo : Nat) : BitVec.ofNat (n + 1) (bits v (lo + n) lo) = v.extractLsb' lo (n + 1) := by
  rw [bits_eq_toNat, BitVec.ofNat_toNat, BitVec.setWidth_eq]

/-- R8: sign extension of a bit vector's value is its signed value. -/
theorem sext_toNat {n : Nat} (x : BitVec n) : sext n x.toNat = x.toInt := by
  rw [sext, BitVec.testBit_toNat, ← BitVec.msb_eq_getLsbD_last, BitVec.toInt_eq_msb_cond]
  norm_cast

/-- R114 (c): a packed colour is its channels' bytes below a zero byte. -/
theorem packColour_eq (c : Rgb) : packColour c = (0 : BitVec 8) ++ c.b ++ c.g ++ c.r := by
  have hword := wordOfBytes_toNat c.r c.g c.b 0
  have hzero : (0 : Byte).toNat = 0 := rfl
  have hr := c.r.isLt
  have hg := c.g.isLt
  have hb := c.b.isLt
  apply BitVec.eq_of_toNat_eq
  refine Eq.trans ?_ hword.symm
  simp only [packColour, word, BitVec.toNat_ofNat, Nat.shiftLeft_eq]
  omega

/-- R114 (c): the colour of a packed register has the register's three low bytes as its channels. -/
theorem unpackColour_eq (v : Word) :
    unpackColour v = { r := v.extractLsb' 0 8, g := v.extractLsb' 8 8, b := v.extractLsb' 16 8 } := by
  rw [unpackColour, ofNat_bits v 7 0, ofNat_bits v 7 8, ofNat_bits v 7 16]

/-- R114: LERP_DIV.DIV is the signed value of its field. -/
theorem lerpD_eq (p : Params) : p.lerpD = (p.lerpDiv.extractLsb' 0 16).toInt := by
  rw [Params.lerpD, bits_eq_toNat p.lerpDiv 15 0, sext_toNat]

/-! ### Commands that only report a word (R334) -/

/-- R334: a command that writes nothing and stages RESULT0 ends with that word in it. -/
theorem runCmd_result0 {s : State} {b : View → Eng Staged} {x : Word}
    (h : b s.view (s.work none) = .ok { result0 := some x } (s.work none)) :
    s.runCmd b = { ended s with result0 := x } :=
  runCmd_ok h

/-- Settles O36: PAL_READ stages the entry, packed. -/
theorem palReadReturnsTheEntry : Obligations.PalReadReturnsTheEntry := by
  intro s c
  have hbody : body .palRead s.view (s.work none) = .ok { result0 := some (packColour c) } (s.work none) :=
    eng_bind_ok (palRead_apply s.view _ _ _)
  rw [exec_eq_body, runCmd_result0 hbody, packColour_eq]

/-- R183: a 6-bit channel expands to the whole quotient. -/
theorem expand_toNat_of_le {x : Byte} (h : x.toNat ≤ 63) : (expand x).toNat = 255 * x.toNat / 63 := by
  rw [expand, BitVec.toNat_ofNat]
  omega

/-- Settles O38: PAL_DISPLAY stages the expanded entry, packed. -/
theorem palDisplayExpandsTheEntry : Obligations.PalDisplayExpandsTheEntry := by
  refine ⟨fun s => ?_, fun x => expand_toNat_of_le, by decide, by decide⟩
  intro c e
  have hbody : body .palDisplay s.view (s.work none)
      = .ok { result0 := some (packColour (expandRgb c)) } (s.work none) := eng_bind_ok (palRead_apply s.view _ _ _)
  rw [exec_eq_body, runCmd_result0 hbody, packColour_eq]
  rfl

/-- Settles O40: the divisor's check comes first, and then the lerp of the channels is staged, packed. -/
theorem palLerpInterpolates : Obligations.PalLerpInterpolates := by
  intro s d ch
  have hdiv : s.view.snap.lerpD = d := lerpD_eq s.snap
  refine ⟨fun hpos => ?interpolates, fun hneg => ?badDivisor⟩
  case interpolates =>
    have hcheck : decide (s.view.snap.lerpD ≤ 0) = false := decide_eq_false (by omega)
    have hbody : body .palLerp s.view (s.work none) = .ok
        { result0 := some (packColour
            (lerpRgb (unpackColour s.snap.lerpA) (unpackColour s.snap.lerpB) s.view.snap.lerpD)) }
        (s.work none) := eng_bind_ok (raiseIf_pass hcheck)
    rw [exec_eq_body, runCmd_result0 hbody, packColour_eq, hdiv, unpackColour_eq, unpackColour_eq]
    rfl
  case badDivisor =>
    have hcheck : decide (s.view.snap.lerpD ≤ 0) = true := decide_eq_true (by omega)
    have hbody : body .palLerp s.view (s.work none)
        = .error (.raised .palBadDivisor (bits s.snap.lerpDiv 15 0 : Nat)) (s.work none) :=
      eng_bind_error (raiseIf_fail hcheck)
    rw [exec_eq_body, runCmd_raised hbody, land_work, raiseError_natCast, bits_eq_toNat s.snap.lerpDiv 15 0,
      BitVec.ofNat_toNat]
    rfl

/-! ### PAL_WRITE (R182) -/

/-- R38: the keys of two entries are equal only where their banks and their entries are. -/
theorem palKey_eq_iff {a b i j : Nat} (hi : i < 256) (hj : j < 256) : palKey b i = palKey a j ↔ (b, i) = (a, j) := by
  rw [Prod.mk.injEq]
  unfold palKey
  omega

/-- Settles O37: the one table write of PAL_WRITE sets the key of the entry. -/
theorem palWriteSetsOneEntry : Obligations.PalWriteSetsOneEntry := by
  intro s
  have hindex : s.snap.palIdx < 256 := Nat.lt_succ_of_le s.snap.palIdx_le
  have hbody : body .palWrite s.view (s.work none) = .ok {} { s.work none with
      pal := tablePut s.pal (palKey s.snap.bank s.snap.palIdx) (unpackColour s.snap.palData) } :=
    eng_bind_ok (palWrite_ok rfl)
  rw [exec_eq_body, runCmd_ok hbody, commitDone_of_nothing_staged, unpackColour_eq]
  refine ⟨_, rfl, rfl, ?_, fun b i hi hother => ?_⟩
  · exact (palEntry_put ..).trans (if_pos rfl)
  · exact (palEntry_put ..).trans (if_neg (mt (palKey_eq_iff hi hindex).1 hother))

/-! ### PAL_COPY (R184) -/

/-- R184: PAL_COPY began at `w0` and has copied the first `n` entries of its source bank, and written no other entry. -/
structure Clones (v : View) (w0 : Work) (n : Nat) (w : Work) : Prop where
  frame : w = { w0 with pal := w.pal }
  copied : ∀ i, i < n → palEntry v.epoch w.pal (palKey v.snap.bank i)
    = palEntry v.epoch w0.pal (palKey v.snap.srcBank i)
  kept : ∀ b i, i < 256 → b ≠ v.snap.bank ∨ n ≤ i →
    palEntry v.epoch w.pal (palKey b i) = palEntry v.epoch w0.pal (palKey b i)

theorem clones_start (v : View) (w0 : Work) : Clones v w0 0 w0 :=
  ⟨rfl, fun _ hi => absurd hi (Nat.not_lt_zero _), fun _ _ _ _ => rfl⟩

/-- R184: one turn of the loop. The source entry is still the one PAL_COPY began with, also where the two banks are the
same. -/
theorem Clones.step {v : View} {w0 w : Work} {n : Nat} (h : Clones v w0 n w) (hq : w0.quota = none) (hn : n < 256) :
    ∃ w', palCopyEntry v n w = .ok () w' ∧ Clones v w0 (n + 1) w' := by
  have hquota : w.quota = none := by
    rw [h.frame]
    exact hq
  have hsource := h.kept v.snap.srcBank n hn (.inr (Nat.le_refl n))
  refine ⟨_, (eng_bind_ok (palRead_apply v v.snap.srcBank n w)).trans (palWrite_ok hquota), ?_, ?_, ?_⟩
  · rw [h.frame]
  · intro i hi
    simp only [palEntry_put, palKey_inj]
    split
    next heq => rw [heq, hsource]
    next hne => exact h.copied i (by omega)
  · intro b i hi hother
    have hkey : palKey b i ≠ palKey v.snap.bank n := by
      rw [Ne, palKey_eq_iff hi hn, Prod.mk.injEq]
      omega
    simp only [palEntry_put, if_neg hkey]
    exact h.kept b i hi (by omega)

/-- Settles O39: the loop clones entry after entry. -/
theorem palCopyClonesTheBank : Obligations.PalCopyClonesTheBank := by
  intro s
  obtain ⟨w, hloop, hend⟩ := loop_ok (Clones s.view (s.work none)) (n := 256) (fun j w hj h => h.step rfl hj)
    (clones_start s.view (s.work none))
  have hbody : body .palCopy s.view (s.work none) = .ok {} w := eng_bind_ok hloop
  have hrun : s.runCmd (body .palCopy) = { ended s with pal := w.pal } := by
    rw [runCmd_ok hbody, hend.frame]
    rfl
  rw [exec_eq_body, hrun]
  exact ⟨_, rfl, rfl, hend.copied, fun b i hi hb => hend.kept b i hi (.inl hb)⟩

/-! ### The update that is only a terminator (R180, R187) -/

/-- R180: at the stream's end there is no filler. -/
theorem palFiller_at_end {v : View} {st : Stream} {w : Work} (h : st.len ≤ w.icur) (n : Nat) :
    palFiller v st n w = .ok () w := by
  cases n with
  | zero => rfl
  | succ n => exact (eng_bind_ok (inputCursor_apply w)).trans (congrFun (if_neg (Nat.not_lt.2 h)) w)

/-- R180: the terminator ends the pair loop, and nothing but the input cursor has changed. -/
theorem palPairs_terminator {v : View} {st : Stream} {w : Work} {bs : List Byte} (h : Feeds v st w (0xFF :: 0xFF :: bs))
    (bk n : Nat) : palPairs v st bk (n + 1) w = .ok () { w with icur := w.icur + 2 } :=
  (eng_bind_ok (inByte_feeds h)).trans (eng_bind_ok (inByte_feeds h.tail))

/-- R187: the terminator-only update leaves the palette as it is. -/
theorem exec_palApply_terminator {s : State} (hlen : s.snap.srcLen = 2)
    (hholds : s.holds s.snap.srcAddr.toNat [0xFF, 0xFF]) (hread : s.readable s.snap.srcAddr.toNat 2) :
    exec .palApply s = .next { ended s with result0 := 2 } := by
  have hsource : s.view.source.len = 2 := congrArg BitVec.toNat hlen
  have hfeeds : Feeds s.view s.view.source (s.work none) [0xFF, 0xFF] :=
    feeds_of_holds rfl hholds hsource.ge hread
  have hbody : body .palApply s.view (s.work none) = .ok { result0 := some (word 2) } { s.work none with icur := 2 } :=
    (eng_bind_ok (palPairs_terminator hfeeds _ _)).trans <|
    (eng_bind_ok (palFiller_at_end hsource.le _)).trans (eng_bind_ok (inputCursor_apply _))
  rw [exec_eq_body, runCmd_ok hbody]
  rfl

/-! ### The update that is one full run (R180, R187) -/

/-- The bytes of system memory in a region. -/
def bytesAt (s : State) (base n : Nat) : List Byte := (List.range' base n).map s.byte

theorem bytesAt_length (s : State) (base n : Nat) : (bytesAt s base n).length = n := by
  rw [bytesAt, List.length_map, List.length_range']

theorem bytesAt_add (s : State) (base m n : Nat) :
    bytesAt s base (m + n) = bytesAt s base m ++ bytesAt s (base + m) n := by
  rw [bytesAt, ← List.range'_append_1, List.map_append]
  rfl

theorem holds_bytesAt (s : State) (base n : Nat) : s.holds base (bytesAt s base n) := by
  intro k b hk
  obtain ⟨_, rfl⟩ := List.getElem?_eq_some_iff.1 hk
  simp [bytesAt]

theorem bytesAt_two {s : State} {base : Nat} {x y : Byte} (hx : s.byte base = x) (hy : s.byte (base + 1) = y) :
    bytesAt s base 2 = [x, y] := by
  subst hx hy
  rfl

/-- R117: the colour whose three bytes begin at an address. -/
def colourAt (s : State) (a : Nat) : Rgb := { r := s.byte a, g := s.byte (a + 1), b := s.byte (a + 2) }

/-- R117: the first `n` triples of a run that begins at an address. -/
def coloursAt (s : State) (base n : Nat) : List Rgb := (List.range n).map fun i => colourAt s (base + 3 * i)

theorem coloursAt_length (s : State) (base n : Nat) : (coloursAt s base n).length = n := by
  rw [coloursAt, List.length_map, List.length_range]

/-- R117: the triples' bytes are the bytes of their region. -/
theorem coloursAt_triples (s : State) (base n : Nat) :
    (coloursAt s base n).flatMap triple = bytesAt s base (3 * n) := by
  induction n with
  | zero => rfl
  | succ n ih =>
    have hsucc : coloursAt s base (n + 1) = coloursAt s base n ++ [colourAt s (base + 3 * n)] := by
      rw [coloursAt, List.range_succ, List.map_append]
      rfl
    rw [hsucc, List.flatMap_append, ih, Nat.mul_succ, bytesAt_add]
    rfl

/-- R180: what a bank holds after consecutive slots have been set. -/
theorem setSlots_apply (bank : Nat → Rgb) (index : Nat) (cs : List Rgb) (i : Nat) :
    setSlots bank index cs i = if index ≤ i then (cs[i - index]?).getD (bank i) else bank i := by
  induction cs generalizing bank index with
  | nil => simp [setSlots]
  | cons c cs ih =>
    rw [setSlots, ih]
    rcases Nat.lt_trichotomy i index with hlt | rfl | hgt
    · rw [if_neg (by omega), if_neg (by omega), if_neg (by omega)]
    · simp
    · obtain ⟨k, rfl⟩ := Nat.exists_eq_add_of_lt hgt
      have hrest : index + k + 1 - (index + 1) = k := by omega
      have hwhole : index + k + 1 - index = k + 1 := by omega
      rw [if_pos (by omega), if_neg (by omega), if_pos (by omega), hrest, hwhole, List.getElem?_cons_succ]

/-- R180: the effect of an update of one run, which starts at slot 0. -/
theorem foldl_fullRun (bank : Nat → Rgb) (cs : List Rgb) :
    [PalItem.run 0 0 cs].foldl PalItem.apply bank = setSlots bank 0 cs := rfl

/-- R187: a run of all 256 slots sets each slot to its triple. -/
theorem setSlots_coloursAt (bank : Nat → Rgb) (s : State) (base : Nat) {i : Nat} (hi : i < 256) :
    setSlots bank 0 (coloursAt s base 256) i = colourAt s (base + 3 * i) := by
  have hslot : (coloursAt s base 256)[i]? = some (colourAt s (base + 3 * i)) := by
    simp [coloursAt, List.getElem?_range hi]
  rw [setSlots_apply, if_pos (Nat.zero_le i), Nat.sub_zero, hslot, Option.getD_some]

/-- Settles O35: the terminator-only update is run as it stands; the full-run update is the stream of one run, whose
triples are the bytes between its pair and its terminator. -/
theorem paletteUpdateLaws : Obligations.PaletteUpdateLaws := by
  intro s src at'
  refine ⟨fun hlen hread h0 h1 => ?terminator, fun hlen hread h0 h1 h770 h771 => ?fullRun⟩
  case terminator =>
    have hbytes : bytesAt s src 2 = [0xFF, 0xFF] := bytesAt_two h0 h1
    exact exec_palApply_terminator hlen (hbytes ▸ holds_bytesAt s src 2) hread
  case fullRun =>
    have hsrcLen : s.snap.srcLen.toNat = 772 := congrArg BitVec.toNat hlen
    have hpair : bytesAt s src 2 = [0, 0] := bytesAt_two h0 h1
    have hterminator : bytesAt s (src + 770) 2 = [0xFF, 0xFF] := bytesAt_two h770 h771
    have hstream : [PalItem.run 0 0 (coloursAt s (src + 2) 256)].flatMap PalItem.coded ++ [0xFF, 0xFF]
        ++ List.replicate 0 0xFF = bytesAt s src 772 := by
      calc _ = [0, 0] ++ (coloursAt s (src + 2) 256).flatMap triple ++ [0xFF, 0xFF] := by
            simp [coded_eq, pairOf, itemTail]
        _ = bytesAt s src (2 + 3 * 256 + 2) := by
            rw [coloursAt_triples, bytesAt_add, bytesAt_add, hpair, hterminator]
    have happly := palApplyAppliesItsStream s [.run 0 0 (coloursAt s (src + 2) 256)] 0
    simp only [hstream, bytesAt_length] at happly
    obtain ⟨hwhole, -⟩ := happly (by simp [PalItem.ok, coloursAt_length])
    obtain ⟨t, hexec, ht, hslots, -⟩ :=
      hwhole hsrcLen.ge (holds_bytesAt s src 772) hread (.inl hsrcLen)
    refine ⟨t, hexec, ht, fun i hi => ?_⟩
    have hr : src + 2 + 3 * i = src + (2 + 3 * i) := by omega
    have hg : src + 2 + 3 * i + 1 = src + (3 + 3 * i) := by omega
    have hb : src + 2 + 3 * i + 2 = src + (4 + 3 * i) := by omega
    rw [hslots i hi, foldl_fullRun, setSlots_coloursAt _ _ _ hi, colourAt, hb, hg, hr]

end Sys2Proof.Proofs
end

section
/-! PROOFS. The sprite header and the two clears (spec/43_surface_sprite.md): the header's fields in terms of its four
bytes, and a grid fill as one run of rising addresses, which a missing byte cuts. -/

namespace Sys2Proof.Proofs

open Sys2Proof.Machine Sys2Proof.Claims

/-! ### A grid as one run of addresses (R203, R204) -/

/-- A loop over shifted indices is the loop from the shifted start. -/
theorem loopFrom_shift (f : Nat → Eng Unit) (a n k : Nat) :
    loopFrom (fun j => f (a + j)) n k = loopFrom f n (a + k) := by
  induction n generalizing k with
  | zero => rfl
  | succ n ih => rw [loopFrom_succ, loopFrom_succ, ih, Nat.add_assoc]

/-- Rows from `j` on, cell by cell, are one run of cells from the first cell of row `j` on. -/
theorem loopFrom_rows (f : Nat → Eng Unit) (wd h j : Nat) :
    loopFrom (fun row => loop wd fun col => f (row * wd + col)) h j = loopFrom f (wd * h) (j * wd) := by
  induction h generalizing j with
  | zero => rfl
  | succ h ih =>
    rw [loopFrom_succ, ih, Nat.mul_succ, Nat.add_comm (wd * h), loopFrom_add, loop, loopFrom_shift f (j * wd),
      Nat.add_zero, Nat.succ_mul]

/-- R203, R204: a grid fill writes the addresses of one region in rising order. -/
theorem fillGrid_eq_loop (v : View) (base wd h : Nat) (x : Byte) :
    fillGrid v base wd h x = loop (wd * h) fun k => memWrite v (base + k) x := by
  simpa [fillGrid, loop, Nat.add_assoc] using loopFrom_rows (fun k => memWrite v (base + k) x) wd h 0

/-- R203, R333: a grid fill whose first `fit` bytes exist and whose next one does not writes those and stops at it. -/
theorem fillGrid_busError {v : View} {base wd h fit : Nat} {x : Byte} {w : Work}
    (hfit : ∀ k, k < fit → base + k < v.plat.memSize) (hmissing : v.plat.memSize ≤ base + fit) (hlt : fit < wd * h)
    (hq : w.quota = none) :
    fillGrid v base wd h x w = .error (.raised .busError (base + fit : Nat))
      { w with mem := w.mem.writeList base (List.replicate fit x) } := by
  obtain ⟨d, hd⟩ := Nat.exists_eq_add_of_lt hlt
  rw [fillGrid_eq_loop, loop, hd, Nat.add_assoc, loopFrom_add, Nat.zero_add]
  exact (eng_bind_ok (fillRow_ok hfit hq)).trans (eng_bind_error (memWrite_busError hmissing))

/-! ### The end of a clear (R203, R204) -/

/-- What memory holds after a region has been filled: the value inside, the old bytes outside. -/
theorem writeList_replicate_spec (m : Memory) (base n : Nat) (x : Byte) :
    (∀ a, inRegion base n a → (m.writeList base (List.replicate n x)).read a = x)
      ∧ ∀ a, ¬ inRegion base n a → (m.writeList base (List.replicate n x)).read a = m.read a := by
  obtain ⟨hin, hout⟩ := writeList_spec m base (List.replicate n x)
  rw [List.length_replicate] at hout
  refine ⟨fun a ha => ?_, hout⟩
  obtain ⟨k, rfl⟩ := Nat.exists_eq_add_of_le ha.1
  exact hin k x (by rw [List.getElem?_replicate, if_pos (Nat.lt_of_add_lt_add_left ha.2)])

/-- A command whose pseudocode fills a grid of bytes that exist, and stages nothing, only writes that region. -/
theorem runCmd_fill {s : State} {b : View → Eng Staged} {base wd h : Nat} {x : Byte}
    (hbody : b s.view = (fillGrid s.view base wd h x >>= fun _ => pure {})) (hw : s.writable base (wd * h)) :
    s.runCmd b = { ended s with mem := s.mem.writeList base (List.replicate (wd * h) x) } :=
  runCmd_ok ((congrFun hbody _).trans (eng_bind_ok (fillGrid_ok hw rfl)))

/-- R203: CLEAR_VAL's low byte. -/
theorem clearByte_eq (p : Params) : p.clearByte = p.clearVal.extractLsb' 0 8 := ofNat_bits p.clearVal 7 0

/-- Settles O44: the fill of a surface inside memory, and the fill that the first missing byte stops. -/
theorem surfClearFillsTheSurface : Obligations.SurfClearFillsTheSurface := by
  intro s base n
  rw [exec_eq_body, ← clearByte_eq]
  refine ⟨fun hw => ?inside, fun hpast hpos => ?cut⟩
  case inside =>
    rw [runCmd_fill rfl hw]
    exact ⟨_, rfl, rfl, writeList_replicate_spec s.mem base n s.snap.clearByte⟩
  case cut =>
    have hend : max base s.plat.memSize = base + (s.plat.memSize - base) := by omega
    have hregion : ∀ a, (base ≤ a ∧ a < s.plat.memSize) ↔ inRegion base (s.plat.memSize - base) a := by
      intro a
      unfold inRegion
      omega
    have hbody : body .surfClear s.view (s.work none)
        = .error (.raised .busError (max base s.plat.memSize : Nat)) { s.work none with
            mem := s.mem.writeList base (List.replicate (s.plat.memSize - base) s.snap.clearByte) } := by
      rw [hend]
      exact eng_bind_error (fillGrid_busError (v := s.view) (fun k hk => Nat.add_lt_of_lt_sub' hk)
        (hend ▸ Nat.le_max_right ..) (show _ < n by omega) rfl)
    obtain ⟨hin, hout⟩ := writeList_replicate_spec s.mem base (s.plat.memSize - base) s.snap.clearByte
    rw [runCmd_raised hbody, raiseError_natCast]
    exact ⟨_, rfl, rfl, fun a hle hlt => hin a ((hregion a).1 ⟨hle, hlt⟩), fun a ha => hout a (mt (hregion a).2 ha)⟩

/-- Settles O45: the fill of the index map. -/
theorem imapClearFillsTheIndexMap : Obligations.ImapClearFillsTheIndexMap := by
  intro s base n hw
  rw [exec_eq_body, runCmd_fill rfl hw]
  exact ⟨_, rfl, rfl, writeList_replicate_spec s.mem base n 0xFF⟩

/-! ### The sprite header (R118, R200 to R202) -/

/-- R7: a field of a register of any width, as a number (`bits_eq_toNat` is for words). -/
theorem bits_eq_extractLsb' {m : Nat} (v : BitVec m) (n lo : Nat) :
    bits v (lo + n) lo = (v.extractLsb' lo (n + 1)).toNat := by
  have hwidth : lo + n + 1 - lo = n + 1 := by omega
  rw [bits, hwidth, BitVec.extractLsb'_toNat]

/-- R7: a one-bit field is that bit. -/
theorem bits_self {m : Nat} (v : BitVec m) (i : Nat) : bits v i i = (v.getLsbD i).toNat := by
  rw [bits, Nat.add_sub_cancel_left, Nat.pow_one, ← BitVec.testBit_toNat, Nat.toNat_testBit, Nat.shiftRight_eq_div_pow]

/-- R83: a 16-bit value from its bytes, the first one low. -/
theorem ofNat_le16 (b0 b1 : Byte) : BitVec.ofNat 16 (le16 b0 b1) = b1 ++ b0 := by
  apply BitVec.eq_of_toNat_eq
  rw [toNat_append_byte, BitVec.toNat_ofNat, le16]
  omega

/-- R118, R201: the fields of a sprite header in terms of its four bytes. -/
theorem spriteFields_bytes (b0 b1 b2 b3 : Byte) :
    spriteFields (BitVec.ofNat 16 (le16 b0 b1)) (BitVec.ofNat 16 (le16 b2 b3)) =
      { width := ((b1 ++ b0).extractLsb' 0 9).toNat
        flags := ((b1 ++ b0).extractLsb' 9 7).toNat
        rle := ((b1 ++ b0).getLsbD 15).toNat
        height := b2.toNat
        mode := b3.toNat } := by
  have hheight : bits (b3 ++ b2) 7 0 = b2.toNat := by
    rw [bits_eq_extractLsb' _ 7 0, BitVec.extractLsb'_append_eq_right]
  have hmode : bits (b3 ++ b2) 15 8 = b3.toNat := by
    rw [bits_eq_extractLsb' _ 7 8, BitVec.extractLsb'_append_eq_left]
  rw [ofNat_le16, ofNat_le16, spriteFields, hheight, hmode, bits_self, bits_eq_extractLsb' _ 8 0,
    bits_eq_extractLsb' _ 6 9]

/-- R200: RESULT1's fields by their place values. -/
theorem spriteResult1_eq (h : SpriteHeader) :
    spriteResult1 h = BitVec.ofNat 32
      (h.rle + 256 * h.mode + 65536 * h.flags + 16777216 * (if 254 ≤ h.mode then 1 else 0)) := by
  simp only [spriteResult1, word, Nat.shiftLeft_eq]
  congr 1
  omega

/-- R202: both dimensions are not 0, as bit vectors. -/
theorem spriteValid_eq {m n : Nat} {h : SpriteHeader} {width : BitVec m} {height : BitVec n}
    (hw : h.width = width.toNat) (hh : h.height = height.toNat) :
    spriteValid h = decide (width ≠ 0 ∧ height ≠ 0) := by
  rw [Bool.eq_iff_iff]
  simp [spriteValid, hw, hh, ← BitVec.toNat_inj]

/-- R200: what SPR_HEADER stages for a header. -/
def spriteStaged (h : SpriteHeader) : Staged :=
  { result0 := some (spriteResult0 h), result1 := some (spriteResult1 h), valid := some (spriteValid h) }

/-- R200: the pseudocode of SPR_HEADER on the four bytes its stream feeds. -/
theorem bodySprHeader_feeds {v : View} {w : Work} {b0 b1 b2 b3 : Byte} (h : Feeds v v.source w [b0, b1, b2, b3]) :
    bodySprHeader v w = .ok
      (spriteStaged (spriteFields (BitVec.ofNat 16 (le16 b0 b1)) (BitVec.ofNat 16 (le16 b2 b3))))
      { w with icur := w.icur + 4 } :=
  (eng_bind_ok (inByte_feeds h)).trans <| (eng_bind_ok (inByte_feeds h.tail)).trans <|
    (eng_bind_ok (inByte_feeds h.tail.tail)).trans <| eng_bind_ok (inByte_feeds h.tail.tail.tail)

/-- R200: SPR_HEADER needs four bytes. -/
theorem bodySprHeader_needsBytes {s : State} (hr : s.readable s.snap.srcAddr.toNat s.snap.srcLen.toNat) :
    NeedsBytes s 4 (bodySprHeader s.view) :=
  needsBytes_inByte hr fun _ => needsBytes_inByte hr fun _ => needsBytes_inByte hr fun _ =>
    needsBytes_inByte hr fun _ => needsBytes_zero _

/-- Settles O43: a header of four bytes that can be read is reported field by field, a shorter one ends the command at
the source's end. -/
theorem sprHeaderReportsTheHeader : Obligations.SprHeaderReportsTheHeader := by
  intro s b w0 width flags
  refine ⟨fun hlen hr => ?whole, fun hlen hr => ?short⟩
  case whole =>
    have hfeeds : Feeds s.view s.view.source (s.work none) [b 0, b 1, b 2, b 3] :=
      feeds_of_holds rfl (holds_bytesAt s s.snap.srcAddr.toNat 4) hlen hr
    have hbody := bodySprHeader_feeds hfeeds
    rw [spriteFields_bytes, spriteStaged, spriteResult0, probeWord_eq, spriteResult1_eq,
      spriteValid_eq (width := width) (height := b 2) rfl rfl] at hbody
    rw [exec_eq_body]
    exact congrArg _ (runCmd_ok hbody)
  case short =>
    have hbody : body .sprHeader s.view (s.work none)
        = .error (.raised .srcEof s.snap.srcLen.toNat) { s.work none with icur := s.snap.srcLen.toNat } :=
      bodySprHeader_needsBytes hr (s.work none) (Nat.zero_le _) hlen
    rw [exec_eq_body, runCmd_raised hbody, raiseError_natCast, BitVec.ofNat_toNat, BitVec.setWidth_eq]
    rfl

end Sys2Proof.Proofs
end

section
/-! PROOFS. The ends of RLE_DECODE and BLIT that write nothing (spec/44_blit.md): the checks of R232 and R233 in their
order, a first run that overruns its row, and the 8bpp draw with a scale code. -/

namespace Sys2Proof.Proofs

open Sys2Proof.Machine Sys2Proof.Claims

/-! ### Checks (R232, R233, R331) -/

/-- R330: an error whose information is a register, raised before anything was written. -/
theorem runCmd_fails {s : State} {b : View → Eng Staged} {e : CmdError} {info : Word} {w : Work}
    (h : b s.view (s.work none) = .error (.raised e info.toNat) w) (hw : s.land w = s) :
    s.runCmd b = failed s e.code info := by
  rw [runCmd_raised h, hw, raiseError_natCast, BitVec.ofNat_toNat, BitVec.setWidth_eq]

theorem zeroDim_eq_true {p : Params} : p.zeroDim = true ↔ p.blitW = 0 ∨ p.blitH = 0 := by
  simp [Params.zeroDim]

theorem zeroDim_eq_false {p : Params} (hwidth : p.blitW ≠ 0) (hheight : p.blitH ≠ 0) : p.zeroDim = false := by
  simp [Params.zeroDim, hwidth, hheight]

/-- R233: what BLIT does once its pixels lie at `pix`. -/
def blitFrom (v : View) (pix : Nat) : Eng Staged := do
  blitDraw v v.snap.clipRect pix
  let n ← writtenCount
  pure { result0 := some (word n), result1 := some (word (v.snap.destSize.1 + (v.snap.destSize.2 <<< 16))) }

/-- R233: past its two checks, BLIT finds its pixels and draws from them. -/
theorem bodyBlit_eq {v : View} {w : Work} (hzero : v.snap.zeroDim = false)
    (hscaled : ¬ (v.snap.bpp8 = true ∧ v.snap.scale ≠ 0)) :
    bodyBlit v w = (blitPixels v >>= fun pix => blitFrom v pix) w := by
  refine (eng_bind_ok (raiseIf_pass hzero)).trans ?_
  rw [if_neg hscaled]
  rfl

/-- R242: past the first check, an 8bpp draw with a scale code is over. -/
theorem bodyBlit_scaled8 {v : View} {w : Work} (hzero : v.snap.zeroDim = false)
    (hscaled : v.snap.bpp8 = true ∧ v.snap.scale ≠ 0) :
    bodyBlit v w = .ok { result0 := some 0, result1 := some 0 } w := by
  refine (eng_bind_ok (raiseIf_pass hzero)).trans ?_
  rw [if_pos hscaled]
  rfl

/-- R233: a raw source is where the pixels lie. -/
theorem blitPixels_raw {v : View} {w : Work} (hrle : v.snap.rle = false)
    (hlen : v.snap.blitH * v.snap.pitch ≤ v.snap.srcLen.toNat) : blitPixels v w = .ok v.snap.srcAddr.toNat w := by
  unfold blitPixels
  rw [if_neg (by simp [hrle]), eng_bind_ok (raiseIf_pass (decide_eq_false (Nat.not_lt.2 hlen)))]
  rfl

/-- R233: a raw source shorter than its pixels is an error. -/
theorem blitPixels_short {v : View} {w : Work} (hrle : v.snap.rle = false)
    (hlen : v.snap.srcLen.toNat < v.snap.blitH * v.snap.pitch) :
    blitPixels v w = .error (.raised .srcEof v.snap.srcLen.toNat) w := by
  unfold blitPixels
  rw [if_neg (by simp [hrle]), eng_bind_error (raiseIf_fail (decide_eq_true hlen))]

/-- R233: the pixels of an RLE source, which the pre-pass leaves in the scratch buffer. -/
theorem blitPixels_rle {v : View} (hrle : v.snap.rle = true) :
    blitPixels v = (rleDecode v v.source v.snap.scratchAddr.toNat v.snap.blitH v.snap.pitch >>= fun _ =>
      pure v.snap.scratchAddr.toNat) :=
  if_pos hrle

/-- R232: an output that does not fit is an error. -/
theorem bodyRleDecode_overflow {v : View} {w : Work} (hzero : v.snap.zeroDim = false)
    (hlong : v.snap.dstLen.toNat < v.snap.blitH * v.snap.pitch) :
    bodyRleDecode v w = .error (.raised .dstOverflow (v.snap.blitH * v.snap.pitch : Nat)) w :=
  (eng_bind_ok (raiseIf_pass hzero)).trans (eng_bind_error (raiseIf_fail (decide_eq_true hlong)))

/-- R232: past its two checks, RLE_DECODE decodes. -/
theorem bodyRleDecode_eq {v : View} {w : Work} (hzero : v.snap.zeroDim = false)
    (hfit : v.snap.blitH * v.snap.pitch ≤ v.snap.dstLen.toNat) :
    bodyRleDecode v w = (rleDecode v v.source v.snap.dstAddr.toNat v.snap.blitH v.snap.pitch >>= fun _ =>
      inputCursor >>= fun k =>
        pure { result0 := some (word k), result1 := some (word (v.snap.blitH * v.snap.pitch)) }) w :=
  (eng_bind_ok (raiseIf_pass hzero)).trans
    (eng_bind_ok (raiseIf_pass (decide_eq_false (Nat.not_lt.2 hfit))))

/-- Settles O46: each check comes before anything is written. -/
theorem blitChecksItsSizeFirst : Obligations.BlitChecksItsSizeFirst := by
  intro s
  simp only [exec_eq_body]
  refine ⟨fun hdim => ?zeroDim, fun hwidth hheight hlong => ?overflow, fun hwidth hheight hscaled hrle hshort => ?short⟩
  case zeroDim =>
    have hzero : s.view.snap.zeroDim = true := zeroDim_eq_true.2 hdim
    have hdecode : body .rleDecode s.view (s.work none)
        = .error (.raised .blitZeroDim s.snap.blitSize.toNat) (s.work none) := eng_bind_error (raiseIf_fail hzero)
    have hblit : body .blit s.view (s.work none)
        = .error (.raised .blitZeroDim s.snap.blitSize.toNat) (s.work none) := eng_bind_error (raiseIf_fail hzero)
    rw [runCmd_fails hdecode rfl, runCmd_fails hblit rfl]
    exact ⟨rfl, rfl⟩
  case overflow =>
    have hdecode : body .rleDecode s.view (s.work none)
        = .error (.raised .dstOverflow (s.snap.blitH * s.snap.pitch : Nat)) (s.work none) :=
      bodyRleDecode_overflow (v := s.view) (zeroDim_eq_false hwidth hheight) hlong
    rw [runCmd_raised hdecode, raiseError_natCast]
    rfl
  case short =>
    have hblit : body .blit s.view (s.work none) = .error (.raised .srcEof s.snap.srcLen.toNat) (s.work none) :=
      (bodyBlit_eq (v := s.view) (zeroDim_eq_false hwidth hheight) hscaled).trans
        (eng_bind_error (blitPixels_short (v := s.view) hrle hshort))
    rw [runCmd_fails hblit rfl]
    rfl

/-! ### An 8bpp draw with a scale code (R242) -/

/-- Settles O49: both results are staged, and nothing else happens. -/
theorem scaledEightBppDrawsNothing : Obligations.ScaledEightBppDrawsNothing := by
  intro s hwidth hheight h8 hscale
  have hbody : body .blit s.view (s.work none) = .ok { result0 := some 0, result1 := some 0 } (s.work none) :=
    bodyBlit_scaled8 (zeroDim_eq_false hwidth hheight) ⟨h8, hscale⟩
  rw [exec_eq_body, runCmd_ok hbody]
  rfl

/-! ### A run longer than its row (R119, R231) -/

/-- R119: a command byte of 128 or more opens a repeat run. -/
theorem rleLength_eq (c : Byte) : rleLength c = if 128 ≤ c.toNat then 257 - c.toNat else c.toNat + 1 := by
  have hbit : bitSet c 7 = decide (128 ≤ c.toNat) := by
    have hlt := c.isLt
    rw [bitSet, Nat.testBit_eq_decide_div_mod_eq]
    exact decide_eq_decide.2 (by omega)
  rw [rleLength, hbit]
  simp only [decide_eq_true_eq]

/-- R231: a run longer than the room it has ends at its command byte. -/
theorem rleRun_overrun {v : View} {st : Stream} {out room : Nat} {c : Byte} {w w' : Work}
    (hread : inByte v st w = .ok c w') (hlong : room < rleLength c) :
    rleRun v st out room w = .error (.raised .rleOverrun w.icur) w' :=
  (eng_bind_ok (inputCursor_apply w)).trans
    ((eng_bind_ok hread).trans (eng_bind_error (raiseIf_fail (decide_eq_true hlong))))

/-- R231: a decoder whose first run overruns its row ends there. -/
theorem rleDecode_overrun {v : View} {st : Stream} {out height pitch : Nat} {c : Byte} {w w' : Work}
    (hheight : height ≠ 0) (hpitch : pitch ≠ 0) (hread : inByte v st { w with ocur := 0 } = .ok c w')
    (hlong : pitch < rleLength c) :
    rleDecode v st out height pitch w = .error (.raised .rleOverrun w.icur) w' := by
  obtain ⟨rows, rfl⟩ := Nat.exists_eq_succ_of_ne_zero hheight
  have hrow : rleRow v st out pitch pitch 0 { w with ocur := 0 } = .error (.raised .rleOverrun w.icur) w' := by
    obtain ⟨n, rfl⟩ := Nat.exists_eq_succ_of_ne_zero hpitch
    rw [rleRow, if_pos (Nat.succ_pos n)]
    exact eng_bind_error (rleRun_overrun hread hlong)
  refine (eng_bind_ok (setOutputCursor_apply 0 w)).trans ?_
  rw [loop, loopFrom_succ]
  exact eng_bind_error hrow

/-- R230: a row of a sprite with a width has at least one byte. -/
theorem pitch_pos {p : Params} (h : p.blitW ≠ 0) : p.pitch ≠ 0 := by
  unfold Params.pitch Machine.pitch
  split
  · exact h
  · omega

/-- Settles O48: the decoder ends at the first command byte, before its first write. -/
theorem rleOverrunWritesNothing : Obligations.RleOverrunWritesNothing := by
  intro s c hwidth hheight hfit hlen hread hlong
  obtain ⟨hplace, hfree⟩ := hread 0 Nat.one_pos
  have hbyte : inByte s.view s.view.source (s.work none)
      = .ok (s.byte s.snap.srcAddr.toNat) { s.work none with icur := 1 } :=
    inByte_ok (v := s.view) (st := s.view.source) (w := s.work none) hlen hplace hfree
  have hdecode : rleDecode s.view s.view.source s.snap.dstAddr.toNat s.snap.blitH s.snap.pitch (s.work none)
      = .error (.raised .rleOverrun 0) { s.work none with icur := 1 } :=
    rleDecode_overrun (w := s.work none) hheight (pitch_pos hwidth) hbyte ((rleLength_eq _).symm ▸ hlong)
  have hbody : body .rleDecode s.view (s.work none)
      = .error (.raised .rleOverrun (0 : Word).toNat) { s.work none with icur := 1 } :=
    (bodyRleDecode_eq (v := s.view) (zeroDim_eq_false hwidth hheight) hfit).trans (eng_bind_error hdecode)
  rw [exec_eq_body, runCmd_fails hbody rfl]
  rfl

end Sys2Proof.Proofs
end

section
/-! PROOFS. A BLIT's draw (R239, R241): it goes through one grid of image pixels (`drawPixel`), whatever the format and
the scale, and what its parts have in common it has too (`DrawRule`). -/

namespace Sys2Proof.Proofs

open Sys2Proof.Machine Sys2Proof.Claims

/-! ### One pixel of the image -/

/-- R241: the source column or row of an image column or row; without a scale code the factor is 256. -/
def sourceIndex (p : Params) (k : Nat) : Nat := k * scaleFactor p.scale / 256

/-- R237, R238: where the byte of an image pixel stands in the pixel buffer. -/
def pixelByte (p : Params) (x y : Nat) : Nat :=
  if p.bpp8 then y * p.blitW + x else sourceIndex p y * p.pitch + sourceIndex p x / 2

/-- R237, R238: the colour that the byte of an image pixel in column `x` gives, none where the pixel is transparent. -/
def pixelColour (p : Params) (x : Nat) (b : Byte) : Option Byte :=
  if p.bpp8 then (if p.transparent8 b then none else some b)
  else if nibbleOf b (sourceIndex p x) = 0 then none else some (p.colour4 (nibbleOf b (sourceIndex p x)))

/-- R235: the plot of a pixel's colour, if it has one. -/
def plotColour (v : View) (x y : Nat) : Option Byte → Eng Unit
  | none => pure ()
  | some c =>
    plot v v.snap.clipRect (v.snap.destX x (imageSize v.snap).1) (v.snap.destY y (imageSize v.snap).2) c

/-- R239, R241: one pixel of the image, from the pixel buffer at `pix`. -/
def drawPixel (v : View) (pix x y : Nat) : Eng Unit :=
  memRead v (pix + pixelByte v.snap x y) >>= fun b => plotColour v x y (pixelColour v.snap x b)

/-- The claims' pixel is the one a draw reads off the buffer. -/
theorem imagePixel_eq (s : State) (pix x y : Nat) :
    imagePixel s pix x y = pixelColour s.snap x (s.byte (pix + pixelByte s.snap x y)) := by
  have hzero (b : Byte) : b = 0#8 ↔ b.toNat = 0 := BitVec.toNat_eq
  have hnibble (b : Byte) (k : Nat) : nibbleOf b k = if k % 2 = 0 then b.toNat % 16 else b.toNat / 16 := by
    have hlt := b.isLt
    simp only [nibbleOf, bits, Nat.shiftRight_eq_div_pow]
    split <;> omega
  unfold imagePixel pixelColour pixelByte sourceIndex
  by_cases h8 : s.snap.bpp8
  · simp [h8, Params.transparent8, hzero, Nat.add_assoc]
  · simp [h8, hnibble, Params.colour4, Nat.add_assoc]

/-! ### The draw as one grid -/

theorem sourceIndex_unscaled {p : Params} (h : p.scale = 0) (k : Nat) : sourceIndex p k = k := by
  rw [sourceIndex, h, scaleFactor, Nat.mul_div_cancel _ (by decide)]

theorem scaledSize_eq (dim f : Nat) : scaledSize dim f = dim * 256 / f := by
  rw [scaledSize, Nat.shiftLeft_eq]

/-- R240: the claims' size of the image is the one BLIT reports. -/
theorem destSize_eq (p : Params) : p.destSize = imageSize p := by
  simp only [Params.destSize, imageSize, scaledSize_eq, Bool.or_eq_true, beq_iff_eq]

/-- R239: one 8bpp pixel. -/
theorem drawByte_eq {v : View} (h8 : v.snap.bpp8 = true) (pix x y : Nat) :
    drawByte v v.snap.clipRect pix x y = drawPixel v pix x y := by
  have hsize : imageSize v.snap = (v.snap.blitW, v.snap.blitH) := if_pos (.inl h8)
  unfold drawByte drawPixel pixelByte pixelColour
  rw [if_pos h8, Nat.add_assoc]
  refine congrArg _ (funext fun b => ?_)
  rw [if_pos h8]
  by_cases ht : v.snap.transparent8 b
  · rw [if_pos ht, if_pos ht]
    rfl
  · rw [if_neg ht, if_neg ht, plotColour, hsize]

/-- R239, R241: one 4bpp pixel, scaled or not. -/
theorem drawNibble_eq {v : View} (h8 : v.snap.bpp8 = false) (pix x y : Nat) :
    drawNibble v v.snap.clipRect pix v.snap.pitch (imageSize v.snap).1 (imageSize v.snap).2 (sourceIndex v.snap x)
      (sourceIndex v.snap y) x y = drawPixel v pix x y := by
  have h4 : ¬ v.snap.bpp8 = true := by simp [h8]
  unfold drawNibble fetchNibble drawPixel pixelByte pixelColour
  rw [if_neg h4, Nat.add_assoc, bind_assoc]
  refine congrArg _ (funext fun b => ?_)
  rw [if_neg h4, pure_bind]
  by_cases ht : nibbleOf b (sourceIndex v.snap x) = 0
  · rw [if_pos ht, if_pos ht]
    rfl
  · rw [if_neg ht, if_neg ht]
    rfl

/-- R239, R241: a draw is one pixel after another, row by row. -/
theorem blitDraw_eq (v : View) (pix : Nat) :
    blitDraw v v.snap.clipRect pix
      = loop (imageSize v.snap).2 fun y => loop (imageSize v.snap).1 fun x => drawPixel v pix x y := by
  unfold blitDraw
  by_cases h8 : v.snap.bpp8 = true
  · have hsize : imageSize v.snap = (v.snap.blitW, v.snap.blitH) := if_pos (.inl h8)
    simp only [if_pos h8, draw8, drawByte_eq h8, hsize]
  · have hdraw := drawNibble_eq (v := v) (Bool.eq_false_iff.2 h8) pix
    rw [if_neg h8]
    by_cases hscale : v.snap.scale = 0
    · have hsize : imageSize v.snap = (v.snap.blitW, v.snap.blitH) := if_pos (.inr hscale)
      simp only [sourceIndex_unscaled hscale, hsize] at hdraw
      simp only [if_pos hscale, draw4, hdraw, hsize]
    · have hsize : imageSize v.snap = (scaledSize v.snap.blitW (scaleFactor v.snap.scale),
          scaledSize v.snap.blitH (scaleFactor v.snap.scale)) := by
        rw [scaledSize_eq, scaledSize_eq]
        exact if_neg (not_or.2 ⟨h8, hscale⟩)
      simp only [sourceIndex, hsize] at hdraw
      simp only [if_neg hscale, draw4Scaled, Nat.shiftRight_eq_div_pow, Nat.reducePow, hdraw, hsize]

/-! ### What every part of a draw has in common -/

/-- A property of pseudocode that sequencing keeps and that the operations a draw is made of have. -/
structure DrawRule (v : View) (M : (α : Type) → Eng α → Prop) : Prop where
  pure : ∀ {α : Type} (a : α), M α (pure a)
  bind : ∀ {α β : Type} {x : Eng α} {f : α → Eng β}, M α x → (∀ a, M β (f a)) → M β (x >>= f)
  load : ∀ a, M Byte (memRead v a)
  store : ∀ a x, M Unit (memWrite v a x)
  count : M Unit countWritten

section
variable {v : View} {M : (α : Type) → Eng α → Prop}

theorem DrawRule.loop (h : DrawRule v M) {f : Nat → Eng Unit} (hf : ∀ k, M Unit (f k)) (n : Nat) :
    M Unit (loop n f) := by
  have hfrom (k : Nat) : M Unit (loopFrom f n k) := by
    induction n generalizing k with
    | zero => exact h.pure ()
    | succ n ih => exact h.bind (hf k) fun _ => ih (k + 1)
  exact hfrom 0

theorem DrawRule.markOwner (h : DrawRule v M) (off : Nat) : M Unit (markOwner v off) := by
  unfold Machine.markOwner
  split
  · exact h.store _ _
  · exact h.pure ()

theorem DrawRule.plot (h : DrawRule v M) (clip : Rect) (x y : Int) (c : Byte) : M Unit (plot v clip x y c) := by
  unfold Machine.plot
  split
  · exact h.bind (h.store _ _) fun _ => h.bind (h.markOwner _) fun _ => h.count
  · exact h.pure ()

theorem DrawRule.drawPixel (h : DrawRule v M) (pix x y : Nat) : M Unit (drawPixel v pix x y) := by
  refine h.bind (h.load _) fun b => ?_
  cases pixelColour v.snap x b with
  | none => exact h.pure ()
  | some c => exact h.plot _ _ _ c

/-- What the operations of a draw have, the draw has. -/
theorem DrawRule.blitDraw (h : DrawRule v M) (pix : Nat) : M Unit (blitDraw v v.snap.clipRect pix) := by
  rw [blitDraw_eq]
  exact h.loop (fun y => h.loop (fun x => h.drawPixel pix x y) _) _

end

end Sys2Proof.Proofs
end

section
/-! PROOFS. A BLIT with RLE (R232, R233): an error of its pre-pass leaves everything but the scratch buffer, and a
pre-pass that ends well leaves the draw what a raw BLIT from the scratch buffer has. -/

namespace Sys2Proof.Proofs

open Sys2Proof.Machine Sys2Proof.Claims

/-! ### An error of the pre-pass (R233, R243) -/

/-- BUS_ERROR is the only error that `x` can raise. -/
def BusErrorOnly (α : Type) (x : Eng α) : Prop := ∀ w e info w', x w = .error (.raised e info) w' → e = .busError

/-- R331: a draw reads and writes system memory, and raises nothing itself. -/
theorem busErrorOnly_rule (v : View) : DrawRule v BusErrorOnly where
  pure _ _ _ _ _ h := by cases h
  bind {_ _ x _} hx hf w e info w' h := by
    rw [eng_bind] at h
    cases hr : x w with
    | ok a w1 =>
      rw [hr] at h
      exact hf a w1 e info w' h
    | error stop w1 =>
      rw [hr] at h
      cases h
      exact hx w e info w' hr
  load a w e info w' h := by
    unfold memRead at h
    split at h
    · split at h <;> cases h
    · cases h
      rfl
  store a x w e info w' h := by
    unfold memWrite at h
    split at h
    · rw [eng_bind, spend] at h
      rcases hq : w.quota with _ | _ | n <;> rw [hq] at h <;> cases h
    · cases h
      rfl
  count _ _ _ _ h := by cases h

/-- R233: past its pre-pass or its length check, BLIT can only meet a byte that does not exist. -/
theorem blitFrom_busErrorOnly (v : View) (pix : Nat) : BusErrorOnly Staged (blitFrom v pix) :=
  (busErrorOnly_rule v).bind ((busErrorOnly_rule v).blitDraw pix) fun _ w e info w' h => by cases h

/-- R231: however the decoder ends, it has written inside its output only. -/
theorem rleDecode_memKept (v : View) (st : Stream) (out height pitch : Nat) :
    Keeps (MemKept ⟨inRegion out (height * pitch), True, True, True⟩) (rleDecode v st out height pitch) :=
  rleDecode_keeps (closed_memKept v.plat.memSize _) st fun o ho => ⟨Nat.le_add_right out o, Nat.add_lt_add_left ho out⟩

/-- R233: where a BLIT with RLE raises an error other than BUS_ERROR, it has written in the scratch buffer only. -/
theorem bodyBlit_rle_error {v : View} {w w' : Work} {e : CmdError} {info : Int} (hrle : v.snap.rle = true)
    (h : bodyBlit v w = .error (.raised e info) w') (he : e ≠ .busError) {a : Nat}
    (ha : ¬ inRegion v.snap.scratchAddr.toNat (v.snap.blitH * v.snap.pitch) a) : w'.mem.read a = w.mem.read a := by
  cases hzero : v.snap.zeroDim with
  | true =>
    have hstart : bodyBlit v w = .error (.raised .blitZeroDim v.snap.blitSize.toNat) w :=
      eng_bind_error (raiseIf_fail hzero)
    rw [hstart] at h
    cases h
    rfl
  | false =>
    by_cases hscaled : v.snap.bpp8 = true ∧ v.snap.scale ≠ 0
    · rw [bodyBlit_scaled8 hzero hscaled] at h
      cases h
    · rw [bodyBlit_eq hzero hscaled, blitPixels_rle hrle, bind_assoc, eng_bind] at h
      have hkept := rleDecode_memKept v v.source v.snap.scratchAddr.toNat v.snap.blitH v.snap.pitch w
      cases hr : rleDecode v v.source v.snap.scratchAddr.toNat v.snap.blitH v.snap.pitch w with
      | ok _ w1 =>
        rw [hr] at h
        exact absurd (blitFrom_busErrorOnly v _ w1 e info w' h) he
      | error stop w1 =>
        rw [hr] at h hkept
        cases h
        exact hkept.1 a ha

/-- Settles O51: the error is not the draw's, so the draw never began. -/
theorem rleErrorLeavesTheSurface : Obligations.RleErrorLeavesTheSurface := by
  intro s t hrle herr h hfailed hcode a ha
  rcases exec_next_cases h with ⟨g, w, -, rfl⟩ | ⟨e, info, w, hbody, rfl⟩
  · exact absurd (herr.symm.trans hfailed) Bool.false_ne_true
  · exact bodyBlit_rle_error (v := s.view) hrle hbody (fun he => hcode (he ▸ rfl)) ha

/-! ### What the pre-pass leaves (R231) -/

/-- A command that nothing cuts short has changed system memory and moved its cursors, and nothing else. -/
def CursorsMoved (a b : Work) : Prop := a.quota = none → b = { a with mem := b.mem, icur := b.icur, ocur := b.ocur }

theorem chain_cursorsMoved : Chain CursorsMoved where
  refl _ _ := rfl
  trans {a b c} hab hbc hq := by
    have hb := hab hq
    have hc := hbc (by rw [hb]; exact hq)
    rw [hc, hb]

section
variable {v : View}

/-- R80, R86: without a contested byte a read changes nothing. -/
theorem memRead_cursorsMoved (hc : v.contested = []) (a : Nat) : Keeps CursorsMoved (memRead v a) := by
  intro w
  by_cases ha : a < v.plat.memSize
  · rw [memRead_ok ha (by simp [hc])]
    exact chain_cursorsMoved.refl w
  · rw [memRead_busError (Nat.not_lt.1 ha)]
    exact ⟨chain_cursorsMoved.refl w, by intro h; cases h⟩

theorem inByte_cursorsMoved (hc : v.contested = []) (st : Stream) : Keeps CursorsMoved (inByte v st) :=
  keeps_bind chain_cursorsMoved (keeps_readWork chain_cursorsMoved _) fun _ =>
    keeps_ite (keeps_bind chain_cursorsMoved (memRead_cursorsMoved hc _) fun _ =>
      keeps_bind chain_cursorsMoved (keeps_modifyWork fun _ _ => rfl) fun _ => keeps_pure chain_cursorsMoved _)
      (keeps_raiseEof chain_cursorsMoved)

theorem rlePut_cursorsMoved (out : Nat) (x : Byte) : Keeps CursorsMoved (rlePut v out x) :=
  keeps_bind chain_cursorsMoved (keeps_readWork chain_cursorsMoved _) fun _ =>
    keeps_bind chain_cursorsMoved
      (keeps_memWrite chain_cursorsMoved (fun w n hsome hnone => by rw [hnone] at hsome; cases hsome) v _ x
        fun _ _ _ => rfl)
      fun _ => keeps_modifyWork fun _ _ => rfl

theorem rleBytes_cursorsMoved (hc : v.contested = []) (st : Stream) (out : Nat) (c : Byte) :
    Keeps CursorsMoved (rleBytes v st out c) :=
  keeps_ite
    (keeps_bind chain_cursorsMoved (inByte_cursorsMoved hc st) fun x =>
      keeps_repeatTimes chain_cursorsMoved (rlePut_cursorsMoved out x))
    (keeps_repeatTimes chain_cursorsMoved
      (keeps_bind chain_cursorsMoved (inByte_cursorsMoved hc st) fun x => rlePut_cursorsMoved out x))

theorem rleRun_cursorsMoved (hc : v.contested = []) (st : Stream) (out room : Nat) :
    Keeps CursorsMoved (rleRun v st out room) :=
  keeps_bind chain_cursorsMoved (keeps_readWork chain_cursorsMoved _) fun _ =>
    keeps_bind chain_cursorsMoved (inByte_cursorsMoved hc st) fun c =>
      keeps_bind chain_cursorsMoved (keeps_raiseIf chain_cursorsMoved _ _ _) fun _ =>
        keeps_bind chain_cursorsMoved (rleBytes_cursorsMoved hc st out c) fun _ => keeps_pure chain_cursorsMoved _

theorem rleRow_cursorsMoved (hc : v.contested = []) (st : Stream) (out pitch n emitted : Nat) :
    Keeps CursorsMoved (rleRow v st out pitch n emitted) := by
  induction n generalizing emitted with
  | zero => exact keeps_pure chain_cursorsMoved ()
  | succ n ih =>
    exact keeps_ite (keeps_bind chain_cursorsMoved (rleRun_cursorsMoved hc st out _) fun len => ih (emitted + len))
      (keeps_pure chain_cursorsMoved ())

/-- R231: the decoder writes system memory and moves its cursors. -/
theorem rleDecode_cursorsMoved (hc : v.contested = []) (st : Stream) (out height pitch : Nat) :
    Keeps CursorsMoved (rleDecode v st out height pitch) :=
  keeps_bind chain_cursorsMoved (keeps_modifyWork fun _ _ => rfl) fun _ =>
    keeps_loop chain_cursorsMoved fun _ _ => rleRow_cursorsMoved hc st out pitch pitch 0

end

/-- A command's view with other parameters. -/
def setSnap (v : View) (p : Params) : View := { v with snap := p }

@[simp] theorem setSnap_snap (v : View) (p : Params) : (setSnap v p).snap = p := rfl

/-- R231: the decoder reads no parameter itself. -/
theorem rleDecode_setSnap (v : View) (p : Params) (st : Stream) (out height pitch : Nat) :
    rleDecode (setSnap v p) st out height pitch = rleDecode v st out height pitch := by
  have hrow (n emitted : Nat) :
      rleRow (setSnap v p) st out pitch n emitted = rleRow v st out pitch n emitted := by
    induction n generalizing emitted with
    | zero => rfl
    | succ n ih =>
      simp only [rleRow, ih]
      rfl
  simp only [rleDecode, hrow]

/-- R232: an RLE_DECODE that ends well has passed its check and decoded. -/
theorem bodyRleDecode_ok {v : View} {w w' : Work} {g : Staged} (h : bodyRleDecode v w = .ok g w') :
    v.snap.zeroDim = false
      ∧ rleDecode v v.source v.snap.dstAddr.toNat v.snap.blitH v.snap.pitch w = .ok () w' := by
  have hzero : v.snap.zeroDim = false := by
    refine Bool.eq_false_iff.2 fun htrue => ?_
    rw [bodyRleDecode, eng_bind_error (raiseIf_fail htrue)] at h
    cases h
  refine ⟨hzero, ?_⟩
  by_cases hlong : v.snap.dstLen.toNat < v.snap.blitH * v.snap.pitch
  · rw [bodyRleDecode_overflow hzero hlong] at h
    cases h
  · rw [bodyRleDecode_eq hzero (Nat.not_lt.1 hlong), eng_bind] at h
    cases hr : rleDecode v v.source v.snap.dstAddr.toNat v.snap.blitH v.snap.pitch w with
    | ok _ w1 =>
      rw [hr] at h
      cases h
      rfl
    | error stop w1 =>
      rw [hr] at h
      cases h

/-! ### A draw and the cursors -/

/-- A working state with its stream cursors set. -/
def withCursors (i o : Nat) (w : Work) : Work := { w with icur := i, ocur := o }

/-- How pseudocode ended, with the stream cursors set in the working state it left. -/
def endWithCursors {α : Type} (i o : Nat) : EStateM.Result Stop Work α → EStateM.Result Stop Work α
  | .ok a w => .ok a (withCursors i o w)
  | .error e w => .error e (withCursors i o w)

/-- `x` does the same wherever the stream cursors stand, and leaves them there. -/
def IgnoresCursors (α : Type) (x : Eng α) : Prop := ∀ i o w, x (withCursors i o w) = endWithCursors i o (x w)

/-- R239: a draw reads no stream. -/
theorem ignoresCursors_rule (v : View) : DrawRule v IgnoresCursors where
  pure _ _ _ _ := rfl
  bind {_ _ x _} hx hf i o w := by
    rw [eng_bind, eng_bind, hx i o w]
    cases x w with
    | ok a w1 => exact hf a i o w1
    | error e w1 => rfl
  load a i o w := by
    by_cases ha : a < v.plat.memSize
    · by_cases hc : a ∈ v.contested <;> simp [memRead, ha, hc, withCursors, endWithCursors]
    · rw [memRead_busError (Nat.not_lt.1 ha), memRead_busError (Nat.not_lt.1 ha)]
      rfl
  store a x i o w := by
    by_cases ha : a < v.plat.memSize
    · obtain ⟨mem, pal, start, len, phase, draws, quota, icur, ocur, queue, qbits, written⟩ := w
      rcases quota with _ | _ | n <;> simp [memWrite, ha] <;> rfl
    · rw [memWrite_busError (Nat.not_lt.1 ha), memWrite_busError (Nat.not_lt.1 ha)]
      rfl
  count _ _ _ := rfl

/-- R233: past its pre-pass, BLIT uses no cursor. -/
theorem blitFrom_ignoresCursors (v : View) (pix : Nat) : IgnoresCursors Staged (blitFrom v pix) :=
  (ignoresCursors_rule v).bind ((ignoresCursors_rule v).blitDraw pix) fun _ _ _ _ => rfl

/-! ### The raw BLIT from the scratch buffer (R233) -/

/-- R232, R233: the parameters of the RLE_DECODE that the pre-pass is. -/
def decodeParams (p : Params) : Params :=
  { p with dstAddr := p.scratchAddr, dstLen := BitVec.ofNat 32 (p.blitH * p.pitch) }

/-- R233: the parameters of the raw BLIT that draws what the pre-pass left. -/
def drawParams (p : Params) : Params :=
  { p with
    srcAddr := p.scratchAddr, srcLen := BitVec.ofNat 32 (p.blitH * p.pitch), blitCfg := p.blitCfg &&& ~~~1 }

/-- R33: clearing bit 0 of a register leaves its other bits. -/
theorem bitSet_clearLow (c : Word) (i : Nat) : bitSet (c &&& ~~~1) (i + 1) = bitSet c (i + 1) := by
  rw [bitSet, bitSet, BitVec.testBit_toNat, BitVec.testBit_toNat, BitVec.getLsbD_and, BitVec.getLsbD_not]
  by_cases hi : i + 1 < 32
  · simp [hi]
  · simp [BitVec.getLsbD_of_ge c _ (Nat.not_lt.1 hi)]

/-- R33: clearing bit 0 of a register leaves a field above it. -/
theorem bits_clearLow (c : Word) (hi lo : Nat) : bits (c &&& ~~~1) hi (lo + 1) = bits c hi (lo + 1) := by
  have hshift : (c &&& ~~~1).toNat >>> (lo + 1) = c.toNat >>> (lo + 1) := by
    refine Nat.eq_of_testBit_eq fun k => ?_
    rw [Nat.testBit_shiftRight, Nat.testBit_shiftRight, Nat.add_right_comm]
    exact bitSet_clearLow c (lo + k)
  rw [bits, hshift, bits]

section
variable (p : Params)

theorem drawParams_rle : (drawParams p).rle = false := by
  simp [Params.rle, drawParams, bitSet]

theorem drawParams_flipX : (drawParams p).flipX = p.flipX := bitSet_clearLow p.blitCfg 0

theorem drawParams_flipY : (drawParams p).flipY = p.flipY := bitSet_clearLow p.blitCfg 1

theorem drawParams_scale : (drawParams p).scale = p.scale := bits_clearLow p.blitCfg 5 2

theorem drawParams_clipEn : (drawParams p).clipEn = p.clipEn := bitSet_clearLow p.blitCfg 5

theorem drawParams_imapEn : (drawParams p).imapEn = p.imapEn := bitSet_clearLow p.blitCfg 6

theorem drawParams_palMode : (drawParams p).palMode = p.palMode := bits_clearLow p.blitCfg 15 7

theorem drawParams_bpp8 : (drawParams p).bpp8 = p.bpp8 := by rw [Params.bpp8, drawParams_palMode]; rfl

theorem drawParams_pitch : (drawParams p).pitch = p.pitch := by rw [Params.pitch, drawParams_bpp8]; rfl

theorem drawParams_imageSize : imageSize (drawParams p) = imageSize p := by
  rw [imageSize, drawParams_bpp8, drawParams_scale]
  rfl

theorem drawParams_pixelByte (x y : Nat) : pixelByte (drawParams p) x y = pixelByte p x y := by
  rw [pixelByte, sourceIndex, sourceIndex, drawParams_bpp8, drawParams_scale, drawParams_pitch]
  rfl

theorem drawParams_pixelColour (x : Nat) (b : Byte) : pixelColour (drawParams p) x b = pixelColour p x b := by
  rw [pixelColour, sourceIndex, Params.transparent8, Params.colour4, drawParams_bpp8, drawParams_scale,
    drawParams_palMode]
  rfl

theorem drawParams_clipRect : (drawParams p).clipRect = p.clipRect := by
  have hraw : (drawParams p).clipRaw = p.clipRaw := by
    rw [Params.clipRaw, drawParams_clipEn]
    rfl
  rw [Params.clipRect, hraw]
  rfl

theorem drawParams_destX (x dw : Nat) : (drawParams p).destX x dw = p.destX x dw := by
  rw [Params.destX, drawParams_flipX]
  rfl

theorem drawParams_destY (y dh : Nat) : (drawParams p).destY y dh = p.destY y dh := by
  rw [Params.destY, drawParams_flipY]
  rfl

end

/-- R235: the plot of a raw BLIT from the scratch buffer. -/
theorem plotColour_drawParams (v : View) (x y : Nat) (c : Option Byte) :
    plotColour (setSnap v (drawParams v.snap)) x y c = plotColour v x y c := by
  have hmark (off : Nat) : markOwner (setSnap v (drawParams v.snap)) off = markOwner v off := by
    rw [markOwner, setSnap_snap, drawParams_imapEn]
    rfl
  cases c with
  | none => rfl
  | some c =>
    simp only [plotColour, plot, hmark, setSnap_snap, drawParams_clipRect, drawParams_imageSize,
      drawParams_destX, drawParams_destY]
    rfl

/-- R233: a raw BLIT from the scratch buffer draws what the BLIT with RLE draws. -/
theorem blitFrom_drawParams (v : View) (pix : Nat) :
    blitFrom (setSnap v (drawParams v.snap)) pix = blitFrom v pix := by
  have hpixel (x y : Nat) : drawPixel (setSnap v (drawParams v.snap)) pix x y = drawPixel v pix x y := by
    simp only [drawPixel, setSnap_snap, drawParams_pixelByte, drawParams_pixelColour, plotColour_drawParams]
    rfl
  rw [blitFrom, blitFrom, blitDraw_eq, blitDraw_eq]
  simp only [setSnap_snap, destSize_eq, hpixel, drawParams_imageSize]

/-! ### The two commands one after the other -/

/-- A state with other memory, running a command with other parameters. -/
def rerun (s : State) (r : Running) (m : Memory) (p : Params) : State :=
  { s with mem := m, phase := .running { r with snap := p } }

/-- What the command then sees. -/
theorem rerun_view {s : State} {r : Running} (hphase : s.phase = .running r) (m : Memory) (p : Params) :
    (rerun s r m p).view = setSnap s.view p := by
  simp only [rerun, setSnap, State.view, State.snap, State.contested, hphase]

/-- R330, R334: a command's end replaces memory and phase, and does not look at the cursors. -/
theorem rerun_finish (s : State) (r : Running) (m : Memory) (p : Params) (i o : Nat)
    (res : EStateM.Result Stop Work Staged) : (rerun s r m p).finish res = s.finish (endWithCursors i o res) := by
  rcases res with ⟨g, w⟩ | ⟨_ | _, w⟩ <;> rfl

/-- R232, R233: an RLE_DECODE into the scratch buffer that ends well is a pre-pass that does. -/
theorem prepass_of_decode {s d : State} {r : Running} (hphase : s.phase = .running r)
    (hcontested : r.contested = [])
    (hdecode : exec .rleDecode (rerun s r s.mem (decodeParams s.snap)) = .next d) (hdone : d.status.err = false) :
    s.snap.zeroDim = false ∧ ∃ i o,
      rleDecode s.view s.view.source s.snap.scratchAddr.toNat s.snap.blitH s.snap.pitch (s.work none)
        = .ok () (withCursors i o { s.work none with mem := d.mem }) := by
  have hc : s.view.contested = [] := by simp only [State.view, State.contested, hphase, hcontested]
  rcases exec_next_cases hdecode with ⟨g, w, hbody, rfl⟩ | ⟨e, info, w, -, rfl⟩
  · rw [rerun_view hphase] at hbody
    obtain ⟨hzero, hdecoded⟩ := bodyRleDecode_ok hbody
    have hprepass : rleDecode s.view s.view.source s.snap.scratchAddr.toNat s.snap.blitH s.snap.pitch (s.work none)
        = .ok () w :=
      (congrFun (rleDecode_setSnap s.view (decodeParams s.snap) _ _ _ _).symm _).trans hdecoded
    have hmoved := rleDecode_cursorsMoved hc s.view.source s.snap.scratchAddr.toNat s.snap.blitH s.snap.pitch
      (s.work none)
    rw [hprepass] at hmoved
    have hw : w = withCursors w.icur w.ocur { s.work none with mem := w.mem } := hmoved rfl
    exact ⟨hzero, w.icur, w.ocur, hprepass.trans (congrArg _ hw)⟩
  · exact absurd hdone (by simp)

/-- R233: a raw BLIT from a scratch buffer that can be named draws from it at once. -/
theorem bodyBlit_drawParams {v : View} {w : Work} (hzero : v.snap.zeroDim = false)
    (hscaled : ¬ (v.snap.bpp8 = true ∧ v.snap.scale ≠ 0)) (hsize : v.snap.blitH * v.snap.pitch < 2 ^ 32) :
    bodyBlit (setSnap v (drawParams v.snap)) w = blitFrom v v.snap.scratchAddr.toNat w := by
  have hlen : (drawParams v.snap).blitH * (drawParams v.snap).pitch ≤ (drawParams v.snap).srcLen.toNat := by
    rw [drawParams_pitch]
    show v.snap.blitH * v.snap.pitch ≤ (BitVec.ofNat 32 (v.snap.blitH * v.snap.pitch)).toNat
    rw [BitVec.toNat_ofNat, Nat.mod_eq_of_lt hsize]
  have hscaled' : ¬ ((drawParams v.snap).bpp8 = true ∧ (drawParams v.snap).scale ≠ 0) := by
    rwa [drawParams_bpp8, drawParams_scale]
  rw [bodyBlit_eq (v := setSnap v (drawParams v.snap)) hzero hscaled',
    eng_bind_ok (blitPixels_raw (v := setSnap v (drawParams v.snap)) (drawParams_rle v.snap) hlen), blitFrom_drawParams]
  rfl

/-- R233: a BLIT with RLE whose pre-pass ends well draws from the scratch buffer. -/
theorem bodyBlit_decoded {v : View} {w w' : Work} (hzero : v.snap.zeroDim = false)
    (hscaled : ¬ (v.snap.bpp8 = true ∧ v.snap.scale ≠ 0)) (hrle : v.snap.rle = true)
    (hdecode : rleDecode v v.source v.snap.scratchAddr.toNat v.snap.blitH v.snap.pitch w = .ok () w') :
    bodyBlit v w = blitFrom v v.snap.scratchAddr.toNat w' := by
  rw [bodyBlit_eq hzero hscaled, blitPixels_rle hrle, bind_assoc, eng_bind_ok hdecode, pure_bind]

/-- Settles O52: the pre-pass is that RLE_DECODE, and past it both draws do the same, wherever their cursors stand. -/
theorem rleBlitIsDecodeThenBlit : Obligations.RleBlitIsDecodeThenBlit := by
  intro s d t r hphase hrle _ hcontested hsize hscaled size decodeSnap drawSnap hdecode hdone hdraw
  obtain ⟨hzero, i, o, hprepass⟩ := prepass_of_decode hphase hcontested hdecode hdone
  have hraw : body .blit (rerun s r d.mem (drawParams s.snap)).view ((rerun s r d.mem (drawParams s.snap)).work none)
      = blitFrom s.view s.snap.scratchAddr.toNat { s.work none with mem := d.mem } := by
    rw [rerun_view hphase]
    exact bodyBlit_drawParams (v := s.view) hzero hscaled hsize
  have hblit : body .blit s.view (s.work none)
      = endWithCursors i o (blitFrom s.view s.snap.scratchAddr.toNat { s.work none with mem := d.mem }) :=
    (bodyBlit_decoded (v := s.view) hzero hscaled hrle hprepass).trans (blitFrom_ignoresCursors _ _ i o _)
  calc exec .blit s = .next (s.finish (body .blit s.view (s.work none))) := exec_eq_body .blit s
    _ = .next ((rerun s r d.mem (drawParams s.snap)).runCmd (body .blit)) := by
      rw [State.runCmd, hraw, hblit, rerun_finish]
    _ = exec .blit (rerun s r d.mem (drawParams s.snap)) := (exec_eq_body .blit _).symm
    _ = .next t := hdraw

end Sys2Proof.Proofs
end

section
/-! PROOFS. A raw BLIT (R233 to R241): where its pixels go, what plotting one of them does to memory, and the draw as it
goes through the pixels of its image (`Blitted`). -/

namespace Sys2Proof.Proofs

open Sys2Proof.Machine Sys2Proof.Claims

/-! ### Points of the surface (R234 to R236) -/

section
variable {p : Params} {q q' : Int × Int}

/-- R234: a point is in the clip rect of a draw where the draw may plot it. -/
theorem clipRect_contains_iff : p.clipRect.contains q.1 q.2 = true ↔ drawable p q := by
  simp only [Rect.contains, Bool.and_eq_true, decide_eq_true_eq]
  simp only [Params.clipRect, clamp, Params.clipRaw, drawable]
  by_cases hclip : p.clipEn = true
  · simp only [hclip, if_true, true_imp_iff]
    omega
  · simp only [hclip, Bool.false_eq_true, if_false, false_imp_iff, true_and]
    omega

/-- R236: the draw's destination point is the claims'. -/
theorem destPoint_eq (p : Params) (dw dh x y : Nat) : destPoint p dw dh x y = (p.destX x dw, p.destY y dh) := by
  unfold destPoint Params.destX Params.destY
  split <;> split <;> rfl

/-- R236: different pixels of an image have different destinations. -/
theorem destPoint_inj {dw dh x y x' y' : Nat} (h : destPoint p dw dh x y = destPoint p dw dh x' y') :
    x = x' ∧ y = y' := by
  obtain ⟨hx, hy⟩ := Prod.mk.inj h
  constructor
  · split at hx <;> omega
  · split at hy <;> omega

/-- R45: a point that may be plotted has its offset in the surface. -/
theorem pointOffset_lt_area (h : drawable p q) : pointOffset p q < p.surfW * p.surfH := by
  obtain ⟨-, hx, hx', hy, hy'⟩ := h
  exact (pointOffset_lt hx hx' hy hy').2

/-- R45: different points of the surface have different offsets. -/
theorem pointOffset_inj (h : drawable p q) (h' : drawable p q') (heq : pointOffset p q = pointOffset p q') :
    q = q' := by
  obtain ⟨-, hx, hxW, hy, -⟩ := h
  obtain ⟨-, hx', hxW', hy', -⟩ := h'
  have hpos : 0 < p.surfW := by omega
  unfold pointOffset at heq
  have hrow : q.2.toNat = q'.2.toNat := by
    have hdiv := congrArg (· / p.surfW) heq
    simp only [Nat.mul_comm _ p.surfW, Nat.mul_add_div hpos] at hdiv
    rwa [Nat.div_eq_of_lt (by omega), Nat.div_eq_of_lt (by omega)] at hdiv
  rw [hrow] at heq
  ext <;> omega

end

/-! ### Source pixels (R230, R237, R241) -/

theorem scaleFactor_pos (k : Nat) : 0 < scaleFactor k := by unfold scaleFactor; split <;> decide

/-- R240: the size of a 4bpp image, scaled or not. -/
theorem imageSize_of_4bpp {p : Params} (h : p.bpp8 = false) :
    imageSize p = (p.blitW * 256 / scaleFactor p.scale, p.blitH * 256 / scaleFactor p.scale) := by
  by_cases hscale : p.scale = 0
  · rw [imageSize, if_pos (.inr hscale), hscale, scaleFactor, Nat.mul_div_cancel _ (by decide),
      Nat.mul_div_cancel _ (by decide)]
  · rw [imageSize, if_neg (by simp [h, hscale])]

/-- R241: a scaled image reads columns and rows of its source only. -/
theorem sourceIndex_lt {p : Params} {k dim : Nat} (h : k < dim * 256 / scaleFactor p.scale) :
    sourceIndex p k < dim := by
  have hle := (Nat.le_div_iff_mul_le (scaleFactor_pos p.scale)).1 h
  have hpos := scaleFactor_pos p.scale
  rw [Nat.succ_mul] at hle
  exact Nat.div_lt_of_lt_mul (by omega)

/-- R45: a cell of a grid lies in the grid. -/
theorem cell_lt {row col h wd : Nat} (hrow : row < h) (hcol : col < wd) : row * wd + col < h * wd :=
  calc row * wd + col < row * wd + wd := by omega
    _ = (row + 1) * wd := by ring
    _ ≤ h * wd := Nat.mul_le_mul_right wd hrow

/-- R230: a pixel's byte lies in the pixel buffer. -/
theorem pixelByte_lt {p : Params} {x y : Nat} (hx : x < (imageSize p).1) (hy : y < (imageSize p).2) :
    pixelByte p x y < p.blitH * p.pitch := by
  unfold pixelByte
  by_cases h8 : p.bpp8 = true
  · rw [imageSize, if_pos (.inl h8)] at hx hy
    rw [if_pos h8, Params.pitch, Machine.pitch, if_pos h8]
    exact cell_lt hy hx
  · rw [imageSize_of_4bpp (Bool.eq_false_iff.2 h8)] at hx hy
    have hcol := sourceIndex_lt hx
    rw [if_neg h8, Params.pitch, Machine.pitch, if_neg h8]
    exact cell_lt (sourceIndex_lt hy) (by omega)

/-! ### Plotting a point (R235) -/

/-- R235: the byte at `a` is none of those that a plot of the point `q` writes. -/
def Spares (p : Params) (q : Int × Int) (a : Nat) : Prop :=
  a ≠ p.surfBase.toNat + pointOffset p q ∧ (p.imapEn = true → a ≠ p.imapBase.toNat + pointOffset p q)

/-- R235: memory once the point `q` is plotted. -/
def plotMem (p : Params) (m : Memory) (q : Int × Int) (c : Byte) : Memory :=
  if p.imapEn = true then
    (m.write (p.surfBase.toNat + pointOffset p q) c).write (p.imapBase.toNat + pointOffset p q) p.objByte
  else m.write (p.surfBase.toNat + pointOffset p q) c

/-- The regions of a raw BLIT: its source can be read, its surface and index map can be written, and no two of them
overlap. -/
structure BlitRegions (s : State) : Prop where
  source : s.readable s.snap.srcAddr.toNat (s.snap.blitH * s.snap.pitch)
  surface : s.writable s.snap.surfBase.toNat (s.snap.surfW * s.snap.surfH)
  surfaceApart : apart s.snap.srcAddr.toNat (s.snap.blitH * s.snap.pitch) s.snap.surfBase.toNat
    (s.snap.surfW * s.snap.surfH)
  indexMap : s.snap.imapEn = true → s.writable s.snap.imapBase.toNat (s.snap.surfW * s.snap.surfH)
    ∧ apart s.snap.srcAddr.toNat (s.snap.blitH * s.snap.pitch) s.snap.imapBase.toNat (s.snap.surfW * s.snap.surfH)
    ∧ apart s.snap.surfBase.toNat (s.snap.surfW * s.snap.surfH) s.snap.imapBase.toNat (s.snap.surfW * s.snap.surfH)

section
variable {s : State} {w : Work} {q q' : Int × Int} {c : Byte}

/-- A plot leaves the source. -/
theorem BlitRegions.spares_source (hs : BlitRegions s) {o : Nat} (ho : o < s.snap.blitH * s.snap.pitch)
    (hq : drawable s.snap q) : Spares s.snap q (s.snap.srcAddr.toNat + o) := by
  have hoffset := pointOffset_lt_area hq
  have happart := hs.surfaceApart
  refine ⟨?_, fun hmap => ?_⟩
  · unfold apart at happart
    omega
  · obtain ⟨-, hmapApart, -⟩ := hs.indexMap hmap
    unfold apart at hmapApart
    omega

/-- A plot leaves the bytes of the other points. -/
theorem BlitRegions.spares_point (hs : BlitRegions s) (hq : drawable s.snap q) (hq' : drawable s.snap q')
    (hne : q' ≠ q) : Spares s.snap q (s.snap.surfBase.toNat + pointOffset s.snap q')
      ∧ (s.snap.imapEn = true → Spares s.snap q (s.snap.imapBase.toNat + pointOffset s.snap q')) := by
  have hoffset := pointOffset_lt_area hq
  have hoffset' := pointOffset_lt_area hq'
  have hother : pointOffset s.snap q' ≠ pointOffset s.snap q := fun heq => hne (pointOffset_inj hq' hq heq)
  have hregions (hmap : s.snap.imapEn = true) :
      s.snap.surfBase.toNat + pointOffset s.snap q' ≠ s.snap.imapBase.toNat + pointOffset s.snap q
        ∧ s.snap.imapBase.toNat + pointOffset s.snap q' ≠ s.snap.surfBase.toNat + pointOffset s.snap q := by
    obtain ⟨-, -, hapart⟩ := hs.indexMap hmap
    unfold apart at hapart
    omega
  refine ⟨⟨by omega, fun hmap => ?surface⟩, fun hmap => ⟨?indexMap, fun _ => by omega⟩⟩
  case surface => exact (hregions hmap).1
  case indexMap => exact (hregions hmap).2

/-- R235: the bytes of a plotted point. -/
theorem BlitRegions.read_plotMem (hs : BlitRegions s) (hq : drawable s.snap q) (m : Memory) :
    (plotMem s.snap m q c).read (s.snap.surfBase.toNat + pointOffset s.snap q) = c
      ∧ (s.snap.imapEn = true →
          (plotMem s.snap m q c).read (s.snap.imapBase.toNat + pointOffset s.snap q) = s.snap.objByte) := by
  have hoffset := pointOffset_lt_area hq
  unfold plotMem
  by_cases hmap : s.snap.imapEn = true
  · obtain ⟨-, -, hapart⟩ := hs.indexMap hmap
    unfold apart at hapart
    rw [if_pos hmap, Memory.read_write_other _ _ (by omega)]
    exact ⟨Memory.read_write_same _ _ _, fun _ => Memory.read_write_same _ _ _⟩
  · rw [if_neg hmap]
    exact ⟨Memory.read_write_same _ _ _, fun h => absurd h hmap⟩

/-- R235: a plot writes the bytes of its point only. -/
theorem read_plotMem_of_spares {p : Params} {a : Nat} (h : Spares p q a) (m : Memory) :
    (plotMem p m q c).read a = m.read a := by
  obtain ⟨hsurf, himap⟩ := h
  unfold plotMem
  split
  next hmap => rw [Memory.read_write_other _ _ (himap hmap), Memory.read_write_other _ _ hsurf]
  next => rw [Memory.read_write_other _ _ hsurf]

/-- R235: the index map's byte of a point of the clip rect is written where there is an index map. -/
theorem BlitRegions.markOwner_ok (hs : BlitRegions s) (hq : drawable s.snap q) (hquota : w.quota = none) :
    markOwner s.view (pointOffset s.snap q) w = .ok () { w with
      mem := if s.snap.imapEn = true then w.mem.write (s.snap.imapBase.toNat + pointOffset s.snap q) s.snap.objByte
        else w.mem } := by
  unfold markOwner
  by_cases hmap : s.snap.imapEn = true
  · obtain ⟨hplace, -⟩ := hs.indexMap hmap
    rw [State.view_snap, if_pos hmap, if_pos hmap]
    exact memWrite_ok (hplace _ (pointOffset_lt_area hq)) hquota
  · rw [State.view_snap, if_neg hmap, if_neg hmap]
    rfl

/-- R235: the plot of a point of the clip rect. -/
theorem BlitRegions.plot_ok (hs : BlitRegions s) (hq : drawable s.snap q) (hquota : w.quota = none) :
    plot s.view s.snap.clipRect q.1 q.2 c w
      = .ok () { w with mem := plotMem s.snap w.mem q c, written := w.written + 1 } := by
  have hpixel : pixelOffset s.snap.surfW q.1 q.2 = pointOffset s.snap q := by
    obtain ⟨-, hx, hx', hy, hy'⟩ := hq
    exact (pointOffset_lt hx hx' hy hy').1
  have hstore : memWrite s.view (s.snap.surfBase.toNat + pointOffset s.snap q) c w
      = .ok () { w with mem := w.mem.write (s.snap.surfBase.toNat + pointOffset s.snap q) c } :=
    memWrite_ok (hs.surface _ (pointOffset_lt_area hq)) hquota
  unfold plot
  rw [State.view_snap, if_pos (clipRect_contains_iff.2 hq), hpixel, eng_bind_ok hstore,
    eng_bind_ok (hs.markOwner_ok hq (by exact hquota)), plotMem]
  split <;> rfl

/-- R235: a point outside the clip rect is not plotted. -/
theorem plot_outside (hq : ¬ drawable s.snap q) : plot s.view s.snap.clipRect q.1 q.2 c w = .ok () w := by
  unfold plot
  rw [if_neg (mt clipRect_contains_iff.1 hq)]
  rfl

end

/-! ### The draw, pixel after pixel (R239, R241) -/

/-- Pixel `d` of a raw BLIT's image is plotted with colour `c` at the point `q`. -/
def Plots (s : State) (d : Nat × Nat) (c : Byte) (q : Int × Int) : Prop :=
  plotted s s.snap.srcAddr.toNat (imageSize s.snap).1 (imageSize s.snap).2 d.1 d.2 c q

open Classical in
/-- The pixels among `D` that are plotted. -/
noncomputable def plottedIn (s : State) (D : Finset (Nat × Nat)) : Finset (Nat × Nat) :=
  D.filter fun d => ∃ c q, Plots s d c q

/-- A raw BLIT that began at `s` has drawn the pixels `D` of its image, and nothing else. -/
structure Blitted (s : State) (D : Finset (Nat × Nat)) (w : Work) : Prop where
  frame : w = { s.work none with mem := w.mem, written := w.written }
  count : w.written = (plottedIn s D).card
  drawn : ∀ d c q, d ∈ D → Plots s d c q →
    w.mem.read (s.snap.surfBase.toNat + pointOffset s.snap q) = c
      ∧ (s.snap.imapEn = true → w.mem.read (s.snap.imapBase.toNat + pointOffset s.snap q) = s.snap.objByte)
  kept : ∀ a, (∀ d c q, d ∈ D → Plots s d c q → Spares s.snap q a) → w.mem.read a = s.byte a

section
variable {s : State} {w : Work} {D : Finset (Nat × Nat)} {d e : Nat × Nat} {c c' : Byte} {q q' : Int × Int}

theorem Plots.drawable (h : Plots s d c q) : drawable s.snap q := by
  obtain ⟨-, -, -, -, hq⟩ := h
  exact hq

theorem Plots.colour_eq (h : Plots s d c q) : imagePixel s s.snap.srcAddr.toNat d.1 d.2 = some c := by
  obtain ⟨-, -, hc, -⟩ := h
  exact hc

theorem Plots.point_eq (h : Plots s d c q) :
    q = destPoint s.snap (imageSize s.snap).1 (imageSize s.snap).2 d.1 d.2 := by
  obtain ⟨-, -, -, hq, -⟩ := h
  exact hq

/-- A pixel has one colour and one destination. -/
theorem Plots.unique (h : Plots s d c q) (h' : Plots s d c' q') : c' = c ∧ q' = q :=
  ⟨Option.some.inj (h'.colour_eq.symm.trans h.colour_eq), h'.point_eq.trans h.point_eq.symm⟩

/-- Different pixels are plotted at different points. -/
theorem Plots.ne (h : Plots s d c q) (h' : Plots s e c' q') (hne : e ≠ d) : q' ≠ q := by
  intro heq
  obtain ⟨hx, hy⟩ := destPoint_inj (h'.point_eq.symm.trans (heq.trans h.point_eq))
  exact hne (Prod.ext hx hy)

open Classical in
theorem mem_plottedIn : d ∈ plottedIn s D ↔ d ∈ D ∧ ∃ c q, Plots s d c q := Finset.mem_filter

open Classical in
theorem plottedIn_insert_of_plots (hp : Plots s d c q) : plottedIn s (insert d D) = insert d (plottedIn s D) := by
  rw [plottedIn, Finset.filter_insert, if_pos ⟨c, q, hp⟩]
  rfl

open Classical in
theorem plottedIn_insert_of_not_plots (hnone : ∀ c q, ¬ Plots s d c q) : plottedIn s (insert d D) = plottedIn s D := by
  rw [plottedIn, Finset.filter_insert, if_neg fun ⟨c, q, hp⟩ => hnone c q hp]
  rfl

theorem blitted_start (s : State) : Blitted s ∅ (s.work none) where
  frame := rfl
  count := by simp [plottedIn]
  drawn d _ _ hd := absurd hd (Finset.notMem_empty d)
  kept _ _ := rfl

/-- A pixel that is not plotted changes nothing. -/
theorem Blitted.skip (h : Blitted s D w) (hnone : ∀ c q, ¬ Plots s d c q) : Blitted s (insert d D) w where
  frame := h.frame
  count := by rw [h.count, plottedIn_insert_of_not_plots hnone]
  drawn e c q he hp := by
    rcases Finset.mem_insert.1 he with rfl | he
    · exact absurd hp (hnone c q)
    · exact h.drawn e c q he hp
  kept a ha := h.kept a fun e c q he => ha e c q (Finset.mem_insert_of_mem he)

/-- R235: a pixel that is plotted, at a point where no pixel before it was. -/
theorem Blitted.plotPixel (h : Blitted s D w) (hs : BlitRegions s) (hd : d ∉ D) (hp : Plots s d c q) :
    Blitted s (insert d D) { w with mem := plotMem s.snap w.mem q c, written := w.written + 1 } where
  frame := by rw [h.frame]
  count := by
    have hnew : d ∉ plottedIn s D := fun hmem => hd (mem_plottedIn.1 hmem).1
    show w.written + 1 = _
    rw [h.count, plottedIn_insert_of_plots hp, Finset.card_insert_of_notMem hnew]
  drawn e c' q' he hp' := by
    by_cases hed : e = d
    · subst hed
      obtain ⟨rfl, rfl⟩ := hp.unique hp'
      exact hs.read_plotMem hp.drawable w.mem
    · obtain ⟨hsurf, himap⟩ := h.drawn e c' q' (Finset.mem_of_mem_insert_of_ne he hed) hp'
      obtain ⟨hsurf', himap'⟩ := hs.spares_point hp.drawable hp'.drawable (hp.ne hp' hed)
      exact ⟨(read_plotMem_of_spares hsurf' w.mem).trans hsurf,
        fun hmap => (read_plotMem_of_spares (himap' hmap) w.mem).trans (himap hmap)⟩
  kept a ha := by
    show (plotMem s.snap w.mem q c).read a = _
    rw [read_plotMem_of_spares (ha d c q (Finset.mem_insert_self d D) hp)]
    exact h.kept a fun e c q he => ha e c q (Finset.mem_insert_of_mem he)

/-- R80: the draw finds the source as it stood at the start. -/
theorem Blitted.read (h : Blitted s D w) (hs : BlitRegions s) {o : Nat} (ho : o < s.snap.blitH * s.snap.pitch) :
    memRead s.view (s.snap.srcAddr.toNat + o) w = .ok (s.byte (s.snap.srcAddr.toNat + o)) w := by
  obtain ⟨hplace, hfree⟩ := hs.source o ho
  rw [memRead_ok hplace hfree, h.kept _ fun d c q _ hp => hs.spares_source ho hp.drawable]

/-- R239, R241: the next pixel of the draw. -/
theorem Blitted.step {x y : Nat} (h : Blitted s D w) (hs : BlitRegions s) (hx : x < (imageSize s.snap).1)
    (hy : y < (imageSize s.snap).2) (hd : (x, y) ∉ D) :
    ∃ w', drawPixel s.view s.snap.srcAddr.toNat x y w = .ok () w' ∧ Blitted s (insert (x, y) D) w' := by
  have hquota : w.quota = none := by rw [h.frame]; rfl
  have hdraw : drawPixel s.view s.snap.srcAddr.toNat x y w
      = plotColour s.view x y (imagePixel s s.snap.srcAddr.toNat x y) w := by
    rw [imagePixel_eq]
    exact eng_bind_ok (h.read hs (pixelByte_lt hx hy))
  have hpoint := destPoint_eq s.snap (imageSize s.snap).1 (imageSize s.snap).2 x y
  rw [hdraw]
  cases hc : imagePixel s s.snap.srcAddr.toNat x y with
  | none => exact ⟨w, rfl, h.skip fun c q hp => Option.some_ne_none c (hp.colour_eq.symm.trans hc)⟩
  | some c =>
    show ∃ w', plot s.view s.snap.clipRect (s.snap.destX x _) (s.snap.destY y _) c w = _ ∧ _
    by_cases hq : drawable s.snap (s.snap.destX x (imageSize s.snap).1, s.snap.destY y (imageSize s.snap).2)
    · exact ⟨_, hs.plot_ok hq hquota, h.plotPixel hs hd ⟨hx, hy, hc, hpoint.symm, hq⟩⟩
    · refine ⟨w, plot_outside hq, h.skip fun c q hp => hq ?_⟩
      rw [← hpoint, ← hp.point_eq]
      exact hp.drawable

end

/-- A grid of calls, row by row, that each add their cell to what has been done. -/
theorem grid_ok {f : Nat → Nat → Eng Unit} {dw dh : Nat} (P : Finset (Nat × Nat) → Work → Prop)
    (hstep : ∀ D x y w, x < dw → y < dh → (x, y) ∉ D → P D w → ∃ w', f x y w = .ok () w' ∧ P (insert (x, y) D) w')
    {w : Work} (h0 : P ∅ w) :
    ∃ w', loop dh (fun y => loop dw fun x => f x y) w = .ok () w' ∧ P (Finset.range dw ×ˢ Finset.range dh) w' := by
  refine loop_ok (fun y => P (Finset.range dw ×ˢ Finset.range y)) (fun y w hy hrows => ?_) (by simpa using h0)
  have hrow := loop_ok (f := fun x => f x y)
    (fun x => P (Finset.range dw ×ˢ Finset.range y ∪ Finset.range x ×ˢ {y})) (n := dw) (fun x w hx hcells => ?_)
    (by simpa using hrows)
  · obtain ⟨w', hrun, hdone⟩ := hrow
    refine ⟨w', hrun, ?_⟩
    rwa [Finset.range_add_one, Finset.insert_eq, Finset.product_union, Finset.union_comm]
  · obtain ⟨w', hrun, hdone⟩ := hstep _ x y w hx hy (by simp) hcells
    have hcell : Finset.range dw ×ˢ Finset.range y ∪ Finset.range (x + 1) ×ˢ {y}
        = insert (x, y) (Finset.range dw ×ˢ Finset.range y ∪ Finset.range x ×ˢ {y}) := by
      ext ⟨a, b⟩
      simp
      omega
    exact ⟨w', hrun, hcell ▸ hdone⟩

/-- R233: the results of a draw that ends well. -/
theorem blitFrom_ok {v : View} {pix : Nat} {w w' : Work}
    (h : (loop (imageSize v.snap).2 fun y => loop (imageSize v.snap).1 fun x => drawPixel v pix x y) w = .ok () w') :
    blitFrom v pix w = .ok
      { result0 := some (word w'.written)
        result1 := some (word ((imageSize v.snap).1 + ((imageSize v.snap).2 <<< 16))) } w' := by
  rw [blitFrom, blitDraw_eq, eng_bind_ok h, destSize_eq]
  rfl

/-- Settles O50: the source holds all its pixels, so the draw goes through the whole image. -/
theorem blitDrawsItsImage : Obligations.BlitDrawsItsImage := by
  intro s p pix surf imap area size dw dh hwidth hheight hscaled hrle hlen hread hwrite hapart hmap
  have hs : BlitRegions s := ⟨hread, hwrite, hapart, hmap⟩
  obtain ⟨w, hdraw, hdone⟩ := grid_ok (f := drawPixel s.view pix) (Blitted s)
    (fun D x y w hx hy hd h => h.step hs hx hy hd) (blitted_start s)
  have hbody : body .blit s.view (s.work none)
      = .ok { result0 := some (word w.written), result1 := some (word (dw + (dh <<< 16))) } w := by
    refine (bodyBlit_eq (v := s.view) (zeroDim_eq_false hwidth hheight) hscaled).trans ?_
    exact (eng_bind_ok (blitPixels_raw (v := s.view) hrle hlen)).trans (blitFrom_ok hdraw)
  have hrun : s.runCmd (body .blit) = { ended s with
      mem := w.mem
      result0 := BitVec.ofNat 32 (plottedIn s (Finset.range dw ×ˢ Finset.range dh)).card
      result1 := BitVec.ofNat 32 (dw + 65536 * dh) } := by
    rw [runCmd_ok hbody, probeWord_eq, hdone.count, hdone.frame]
    rfl
  have hmem {x y : Nat} {c : Byte} {q : Int × Int} (h : plotted s pix dw dh x y c q) :
      (x, y) ∈ Finset.range dw ×ˢ Finset.range dh := by
    obtain ⟨hx, hy, -⟩ := h
    simp [hx, hy]
  rw [exec_eq_body, hrun]
  refine ⟨_, rfl, ⟨_, fun x y => ?_, rfl⟩, fun x y c q hp => hdone.drawn (x, y) c q (hmem hp) hp,
    fun a ha => hdone.kept a fun d c q _ hp => ha d.1 d.2 c q hp⟩
  rw [mem_plottedIn]
  exact ⟨And.right, fun ⟨c, q, hp⟩ => ⟨hmem hp, c, q, hp⟩⟩

end Sys2Proof.Proofs
end

section
/-! PROOFS. The globe's tables and colours (spec/45_globe.md): the reads of the tilt ROM and of the rotation table, the
write of one rotation entry, and the colour of a map byte. -/

namespace Sys2Proof.Proofs

open Sys2Proof.Machine Sys2Proof.Claims

/-! ### Indexed commands (R253 to R255) -/

section
variable {s : State} {i : Instr} {limit k : Nat} {f : Unit → Eng Staged}

/-- R331: a command that first checks its index ends with INDEX_RANGE where the index is past the table. -/
theorem exec_indexRange (hbody : body i s.view = raiseIf (limit < k) .indexRange k >>= f) (hk : limit < k) :
    exec i s = .next (failed s 0x0B (BitVec.ofNat 32 k)) := by
  have hraised : body i s.view (s.work none) = .error (.raised .indexRange k) (s.work none) := by
    rw [hbody]
    exact eng_bind_error (raiseIf_fail (decide_eq_true hk))
  rw [exec_eq_body, runCmd_raised hraised, land_work, raiseError_natCast]
  rfl

/-- A command that first checks its index goes on where the index is in the table. -/
theorem body_indexed (hbody : body i s.view = raiseIf (limit < k) .indexRange k >>= f) (hk : k ≤ limit) (w : Work) :
    body i s.view w = f () w := by
  rw [hbody]
  exact eng_bind_ok (raiseIf_pass (decide_eq_false (Nat.not_lt.2 hk)))

end

/-- R251 to R253: the ROM's ranges with their section codes and latitudes. -/
theorem tiltWord_eq (i : Nat) :
    tiltWord i = BitVec.ofNat 32
      (if i ≤ 97 then 3 + 256 * (i + 1) else if i ≤ 196 then 2 + 256 * (196 - i)
        else if i ≤ 294 then 1 + 256 * (i - 196) else 0 + 256 * (393 - i)) := by
  have hfields (code lat : Nat) : code + lat <<< 8 = code + 256 * lat := by rw [Nat.shiftLeft_eq, Nat.mul_comm]
  rw [tiltWord, word, hfields, tilt]
  split_ifs <;> rfl

/-- Settles O53: the ROM is read behind the check of its index. -/
theorem tiltReadReturnsTheRom : Obligations.TiltReadReturnsTheRom := by
  refine fun s => ⟨fun hi => ?_, exec_indexRange rfl⟩
  have hbody : body .tiltRead s.view (s.work none) = .ok { result0 := some (tiltWord s.snap.tiltIdx) } (s.work none) :=
    (body_indexed rfl hi _).trans rfl
  rw [exec_eq_body, runCmd_result0 hbody, tiltWord_eq]

/-- R254: a read of an entry after a write of a start and a length. -/
theorem rotEntryAt_put (epoch k i : Nat) (starts lens : List (Nat × BitVec 16)) (phases : List (Nat × Word))
    (x y : BitVec 16) :
    rotEntryAt epoch (tablePut starts k x) (tablePut lens k y) phases i
      = if i = k then { start := x, len := y, phase := rotPhaseAt epoch phases k }
        else rotEntryAt epoch starts lens phases i := by
  rw [rotEntryAt, rotStartAt_put, rotLenAt_put]
  by_cases hi : i = k
  · simp only [hi, if_true]
  · simp only [hi, if_false, rotEntryAt]

/-- Settles O54: behind the check of the index, the two table writes set the entry's start and its length. -/
theorem rotWriteLoadsOneEntry : Obligations.RotWriteLoadsOneEntry := by
  refine fun s => ⟨fun hk => ?_, exec_indexRange rfl⟩
  have hbody : body .rotWrite s.view (s.work none) = .ok {} { s.work none with
      rotStart := tablePut s.rotStart s.snap.rotIdx (s.snap.rotData.extractLsb' 0 16)
      rotLen := tablePut s.rotLen s.snap.rotIdx (s.snap.rotData.extractLsb' 16 16) } := by
    rw [← ofNat_bits s.snap.rotData 15 0, ← ofNat_bits s.snap.rotData 15 16]
    exact (body_indexed rfl hk _).trans <| (eng_bind_ok (rotWriteStart_ok rfl)).trans <|
      eng_bind_ok (rotWriteLen_ok rfl)
  rw [exec_eq_body, runCmd_ok hbody, commitDone_of_nothing_staged]
  exact ⟨_, rfl, rfl, (rotEntryAt_put ..).trans (if_pos rfl), fun i hi => (rotEntryAt_put ..).trans (if_neg hi)⟩

/-- R255: RESULT0 of ROT_READ is the start below the length. -/
theorem rotWord_eq (start len : BitVec 16) : word (start.toNat + len.toNat <<< 16) = len ++ start := by
  apply BitVec.eq_of_toNat_eq
  have hstart := start.isLt
  have hlen := len.isLt
  rw [BitVec.toNat_append, ← Nat.shiftLeft_add_eq_or_of_lt hstart, word, BitVec.toNat_ofNat, Nat.shiftLeft_eq]
  omega

/-- Settles O55: the entry is read behind the check of its index, and both results are staged. -/
theorem rotReadReturnsTheEntry : Obligations.RotReadReturnsTheEntry := by
  refine fun s => ⟨fun hk => ?_, exec_indexRange rfl⟩
  have hbody : body .rotRead s.view (s.work none) = .ok
      { result0 := some ((s.rotAt s.snap.rotIdx).len ++ (s.rotAt s.snap.rotIdx).start)
        result1 := some (s.rotAt s.snap.rotIdx).phase } (s.work none) := by
    rw [← rotWord_eq]
    exact (body_indexed rfl hk _).trans (eng_bind_ok (rotRead_apply ..))
  rw [exec_eq_body, runCmd_ok hbody]
  rfl

/-! ### Colours (R263) -/

/-- Settles O60: the colour and the flag field are bit fields of the map byte, and the sum with the bank is a byte. -/
theorem globeColourFollowsTheMapByte : Obligations.GlobeColourFollowsTheMapByte := by
  intro p m c f
  have hcolour : bits m 3 0 = c := rfl
  have hflag : bits m (p.flagShift.val + 1) p.flagShift.val = f := by
    rw [bits, Nat.shiftRight_eq_div_pow, Nat.add_assoc, Nat.add_sub_cancel_left]
    rfl
  rw [globeColour, hcolour, hflag, BitVec.toNat_ofNat]
  split_ifs <;> rfl

end Sys2Proof.Proofs
end

section
/-! PROOFS. The phases by themselves (spec/45_globe.md): GLOBE_PHASE, and a GLOBE_DRAW whose column list is empty or
starts past the elevation resource, so that it draws nothing. -/

namespace Sys2Proof.Proofs

open Sys2Proof.Machine Sys2Proof.Claims

/-- Settles O56: GLOBE_PHASE is `ComputePhases` alone. -/
theorem globePhaseComputesThePhases : Obligations.GlobePhaseComputesThePhases := by
  intro s
  obtain ⟨w, hphases, h⟩ := computePhases_ok s
  have hbody : body .globePhase s.view (s.work none) = .ok {} w := eng_bind_ok hphases
  rw [exec_eq_body, runCmd_ok hbody, h.drawing.land]
  exact ⟨_, rfl, by rw [h.frame]; rfl, h.drawing.rot⟩

/-! ### A draw of nothing (R259) -/

/-- R121, R259: a half whose column list is only a terminator reads that byte and draws nothing. -/
theorem globeHalf_empty (G : GlobeFns) {s : State} (half : Half) {w : Work}
    (hmem : w.mem = s.mem) (hin : s.plat.collistOff < s.snap.globeElevLen.toNat)
    (hread : s.readable (s.snap.globeElevAddr.toNat + s.plat.collistOff) 1)
    (hzero : s.byte (s.snap.globeElevAddr.toNat + s.plat.collistOff) = 0) :
    globeHalf G s.view half w = .ok () { w with icur := s.plat.collistOff + 1 } := by
  obtain ⟨hplace, hfree⟩ := hread 0 Nat.one_pos
  have hbyte := inByte_ok (v := s.view) (st := s.view.elevation) (w := { w with icur := s.plat.collistOff }) hin hplace
    hfree
  have hterminator : w.mem.read (s.snap.globeElevAddr.toNat + s.plat.collistOff) = 0 := by
    rw [hmem]
    exact hzero
  refine (eng_bind_ok (setInputCursor_apply _ w)).trans ((eng_bind_ok hbyte).trans ?_)
  exact congrFun (if_pos (congrArg runLength hterminator)) _

/-- R10, R259: a half whose column list would start at or past the resource's end ends with SRC_EOF there. -/
theorem globeHalf_eof (G : GlobeFns) {v : View} (half : Half) (w : Work)
    (hend : v.snap.globeElevLen.toNat ≤ v.plat.collistOff) :
    globeHalf G v half w = .error (.raised .srcEof v.plat.collistOff) { w with icur := v.plat.collistOff } :=
  (eng_bind_ok (setInputCursor_apply _ w)).trans
    (eng_bind_error (inByte_eof (w := { w with icur := v.plat.collistOff }) hend))

/-- Settles O57: behind the phases both halves find only the terminator, or the upper one finds no byte. -/
theorem globeDrawOfAnEmptyList : Obligations.GlobeDrawOfAnEmptyList := by
  intro s
  obtain ⟨w, hphases, h⟩ := computePhases_ok s
  refine ⟨fun hin hread hzero => ?empty, fun hend => ?past⟩
  case empty =>
    have hmem : w.mem = s.mem := by rw [h.frame]; rfl
    have hbody : body .globeDraw s.view (s.work none) = .ok {} { w with icur := s.plat.collistOff + 1 } :=
      (eng_bind_ok hphases).trans <| (eng_bind_ok (globeHalf_empty globeFns .upper hmem hin hread hzero)).trans <|
        eng_bind_ok (globeHalf_empty globeFns .lower hmem hin hread hzero)
    rw [exec_eq_body, runCmd_ok hbody, (h.drawing.setInput _).land]
    exact ⟨_, rfl, by rw [h.frame]; rfl, h.drawing.rot⟩
  case past =>
    have hbody : body .globeDraw s.view (s.work none)
        = .error (.raised .srcEof s.plat.collistOff) { w with icur := s.plat.collistOff } :=
      (eng_bind_ok hphases).trans (eng_bind_error (globeHalf_eof globeFns (v := s.view) .upper w hend))
    rw [exec_eq_body, runCmd_raised hbody, (h.drawing.setInput _).land, raiseError_natCast]
    exact ⟨_, rfl, by rw [h.frame]; rfl, h.drawing.rot⟩

end Sys2Proof.Proofs
end

section
/-! PROOFS. The tilt of a GLOBE_DRAW (R258): the draw reads it in the tilt index of a column and nowhere else, and there
only through its clamp. -/

namespace Sys2Proof.Proofs

open Sys2Proof.Machine Sys2Proof.Claims

/-- The parameters with another GLOBE_TILT. -/
def withTilt (p : Params) (t : Word) : Params := { p with globeTilt := t }

section
variable {v : View} {t : Word}

/-- R258, R260: a column is the same where the clamped tilt is. -/
theorem globeColumn_withTilt (h : (withTilt v.snap t).tiltClamped = v.snap.tiltClamped) (G : GlobeFns) (half : Half)
    (row x : Nat) : globeColumn G (setSnap v (withTilt v.snap t)) half row x = globeColumn G v half row x := by
  simp only [globeColumn, setSnap_snap, h]
  rfl

/-- R258: the runs of a half are the same where the clamped tilt is. -/
theorem globeRuns_withTilt (h : (withTilt v.snap t).tiltClamped = v.snap.tiltClamped) (G : GlobeFns) (half : Half)
    (n row : Nat) : globeRuns G (setSnap v (withTilt v.snap t)) half n row = globeRuns G v half n row := by
  induction n generalizing row with
  | zero => rfl
  | succ n ih =>
    simp only [globeRuns, funext (globeColumn_withTilt h G half row), ih]
    rfl

/-- R258: the whole draw is the same where the clamped tilt is. -/
theorem drawGlobe_withTilt (h : (withTilt v.snap t).tiltClamped = v.snap.tiltClamped) (G : GlobeFns) :
    drawGlobe G (setSnap v (withTilt v.snap t)) = drawGlobe G v := by
  simp only [drawGlobe, globeHalf, globeRuns_withTilt h]
  rfl

end

/-- R258: the tilt that is clamped already. -/
def clampedTilt (p : Params) : Word := (BitVec.ofInt 16 p.tiltClamped).setWidth 32

/-- R8: GLOBE_TILT.TILT is the signed value of its field. -/
theorem tiltRaw_eq (p : Params) : p.tiltRaw = (p.globeTilt.extractLsb' 0 16).toInt := by
  rw [Params.tiltRaw, bits_eq_toNat p.globeTilt 15 0, sext_toNat]

/-- R258: clamping twice is clamping once. -/
theorem tiltClamped_clampedTilt (p : Params) : (withTilt p (clampedTilt p)).tiltClamped = p.tiltClamped := by
  have hfield : (clampedTilt p).extractLsb' 0 16 = BitVec.ofInt 16 p.tiltClamped := by
    rw [clampedTilt]
    ext i hi
    simp [hi, Nat.lt_trans hi]
  have hraw : (withTilt p (clampedTilt p)).tiltRaw = p.tiltClamped := by
    have hrange : -96 ≤ p.tiltClamped ∧ p.tiltClamped ≤ 96 := by
      unfold Params.tiltClamped
      omega
    rw [tiltRaw_eq, withTilt, hfield, BitVec.toInt_ofInt]
    exact Int.bmod_eq_of_le (by omega) (by omega)
  rw [Params.tiltClamped, hraw, Params.tiltClamped]
  omega

/-- R330, R334: a command's end puts the phase to IDLE, whatever it ran on. -/
theorem finish_withPhase (s : State) (r : Running) (res : EStateM.Result Stop Work Staged) :
    State.finish { s with phase := .running r } res = s.finish res := by
  rcases res with ⟨g, w⟩ | ⟨_ | _, w⟩ <;> rfl

/-- Settles O58: the two draws do the same, and the end of a command keeps nothing of its snapshot. -/
theorem globeDrawReadsTheClampedTilt : Obligations.GlobeDrawReadsTheClampedTilt := by
  intro s r hphase
  have hsnap : s.snap = r.snap := by rw [State.snap, hphase]
  show exec .globeDraw s = exec .globeDraw (rerun s r s.mem (withTilt r.snap (clampedTilt r.snap)))
  rw [exec_eq_body, exec_eq_body, State.runCmd, State.runCmd, rerun_view hphase, ← hsnap]
  have hdraw : body .globeDraw (setSnap s.view (withTilt s.snap (clampedTilt s.snap))) = body .globeDraw s.view :=
    drawGlobe_withTilt (v := s.view) (tiltClamped_clampedTilt s.snap) globeFns
  rw [hdraw]
  exact congrArg _ (finish_withPhase s _ _).symm

end Sys2Proof.Proofs
end

section
/-! PROOFS. The end of every command (R330, R334, R339): IDLE and DONE, with every register a command does not own kept. -/

namespace Sys2Proof.Proofs

open Sys2Proof.Machine Sys2Proof.Claims

/-- Settles O8: nothing cuts a command of `exec` short, so it commits or raises one error, and both ends report DONE. -/
theorem everyCommandEndsIdleAndDone : Obligations.EveryCommandEndsIdleAndDone := by
  intro i s
  rcases exec_ends i s with ⟨g, w, -, hcommit⟩ | ⟨e, n, w, -, hraise⟩
  · exact ⟨(s.land w).commitDone g, hcommit, by simp⟩
  · exact ⟨(s.land w).raiseError e n, hraise, by simp⟩

end Sys2Proof.Proofs
end

section
/-! PROOFS. How long a command runs (R370, log 2): every step of a running command spends a host turn or ends it. -/

namespace Sys2Proof.Proofs

open Sys2Proof.Machine Sys2Proof.Claims

/-- The engine is IDLE, or its command has fewer than `n` host turns left. -/
def EndsWithin (n : Nat) (s : State) : Prop := ∀ r, s.phase = .running r → r.latency < n

variable {n : Nat} {s t : State}

theorem endsWithin_of_idle (h : s.phase = .idle) : EndsWithin n s := fun r hr => by simp [h] at hr

theorem idle_of_endsWithin_zero (h : EndsWithin 0 s) : s.phase = .idle := by
  cases hp : s.phase with
  | idle => rfl
  | running r => exact absurd (h r hp) (Nat.not_lt_zero _)

/-! ### One host access -/

/-- A host access to system memory may contest a byte, which takes nothing from the command's latency. -/
theorem endsWithin_contest (h : EndsWithin n s) {r : Running} (hr : s.phase = .running r) (a : Nat) :
    EndsWithin n (s.contest r a) := by
  intro r' hr'
  cases hr'
  exact h r hr

/-- A host read of the byte at an address only returns data, or it contests the byte. -/
theorem hostRead_cases (s : State) (a : Nat) :
    (∃ x, s.hostRead a = { s with busData := x }) ∨
      ∃ r, s.phase = .running r ∧ s.hostRead a = s.contestedRead r a := by
  by_cases hfree : ∀ r, s.phase = .running r → r.forbids a false = false
  · exact .inl ⟨_, hostRead_eq_read hfree⟩
  · obtain ⟨r, hr, hforbids⟩ : ∃ r, s.phase = .running r ∧ r.forbids a false = true := by simpa using hfree
    exact .inr ⟨r, hr, by simp [State.hostRead, State.current, hr, hforbids]⟩

/-- A host write of the byte at an address only writes memory, or it contests the byte. -/
theorem hostWrite_cases (s : State) (a : Nat) (x : Byte) :
    s.hostWrite a x = { s with mem := s.mem.write a x } ∨
      ∃ r, s.phase = .running r ∧ s.hostWrite a x = s.contest r a := by
  by_cases hfree : ∀ r, s.phase = .running r → r.forbids a true = false
  · exact .inl (hostWrite_eq_write x hfree)
  · obtain ⟨r, hr, hforbids⟩ : ∃ r, s.phase = .running r ∧ r.forbids a true = true := by simpa using hfree
    exact .inr ⟨r, hr, by simp [State.hostWrite, State.current, hr, hforbids]⟩

theorem endsWithin_hostRead (h : EndsWithin n s) (a : Nat) : EndsWithin n (s.hostRead a) := by
  rcases hostRead_cases s a with ⟨x, hread⟩ | ⟨r, hr, hread⟩ <;> rw [hread]
  · exact h
  · exact endsWithin_contest h hr a

theorem endsWithin_hostWrite (h : EndsWithin n s) (a : Nat) (x : Byte) : EndsWithin n (s.hostWrite a x) := by
  rcases hostWrite_cases s a x with hwrite | ⟨r, hr, hwrite⟩ <;> rw [hwrite]
  · exact h
  · exact endsWithin_contest h hr a

/-- R34: while a command runs, no register write starts another one. -/
theorem endsWithin_writeReg (hb : s.busy = true) (h : EndsWithin n s) (r : Reg) (v : Word) :
    EndsWithin n (s.writeReg r v) := by
  cases r with
  | id | status | irqEn | errInfo | result0 | result1 | param p => exact h
  | cmd =>
    show EndsWithin n (s.writeCmd v)
    rw [writeCmd_of_busy hb]
    exact h
  | ctrl =>
    simp only [State.writeReg]
    split
    · exact endsWithin_of_idle (abort_phase s)
    · exact h

theorem endsWithin_busWrite (hb : s.busy = true) (h : EndsWithin n s) (addr width : Nat) (v : Word) :
    EndsWithin n (s.busWrite addr width v) := by
  unfold State.busWrite
  split
  next r _ => exact endsWithin_writeReg hb h r v
  next => exact h

/-- No access made while a command runs gives it more host turns. -/
theorem endsWithin_input (hb : s.busy = true) (h : EndsWithin n s) {i : Input} (ht : s.input i = .next t) :
    EndsWithin n t := by
  cases i with
  | read addr width =>
    cases ht
    exact h
  | write addr width v =>
    cases ht
    exact endsWithin_busWrite hb h addr width v
  | powerOn =>
    cases ht
    exact endsWithin_of_idle (abort_phase s)
  | wait =>
    simp only [State.input] at ht
    split at ht
    all_goals
      cases ht
      exact h
  | memRead a =>
    simp only [State.input] at ht
    split at ht
    next =>
      cases ht
      exact endsWithin_hostRead h a
    next => cases ht
  | memWrite a x =>
    simp only [State.input] at ht
    split at ht
    next =>
      cases ht
      exact endsWithin_hostWrite h a x
    next => cases ht

/-! ### One step -/

/-- Taking a host turn takes one from the latency. -/
theorem endsWithin_onHostTurn (h : EndsWithin (n + 1) s) (ht : hostsTurn s) (rest : List Input) :
    EndsWithin n (onHostTurn s rest) := by
  intro r hr
  cases hp : s.phase with
  | idle => simp [onHostTurn, hp] at hr
  | running r' =>
    have hr' : { r' with latency := r'.latency - 1 } = r := by simpa [onHostTurn, hp] using hr
    have hpos : 0 < r'.latency := by simpa [hostsTurn, hp] using ht
    have hlt := h r' hp
    rw [← hr']
    show r'.latency - 1 < n
    omega

/-- R330, R334: the engine's transition ends the command, whether its word is legal or not. -/
theorem engineTurn_phase {r : Running} (ht : s.engineTurn r = .next t) : t.phase = .idle := by
  cases hd : decodeWord r.cmd with
  | ok i =>
    obtain ⟨u, hu, hidle, -⟩ := everyCommandEndsIdleAndDone i s
    rw [exec_eq_body] at hu
    cases hu
    rw [engineTurn_of_decode hd] at ht
    cases ht
    rw [settle_phase, hidle]
  | error e =>
    rw [engineTurn_of_illegal hd] at ht
    cases ht
    rw [settle_phase]
    rfl

/-- R370: a step of a running command is a host turn, which takes one from the latency, or the engine's, which ends
it. -/
theorem step_endsWithin (hb : s.busy = true) (h : EndsWithin (n + 1) s) (ht : step s = .next t) : EndsWithin n t := by
  rcases step_cases s with ⟨i, rest, hturn, -, hs⟩ | ⟨hidle, -, -⟩ | ⟨r, -, -, hs⟩
  · rw [hs] at ht
    exact endsWithin_input ((onHostTurn_busy s rest).trans hb) (endsWithin_onHostTurn h hturn rest) ht
  · simp [State.busy, hidle] at hb
  · rw [hs] at ht
    exact endsWithin_of_idle (engineTurn_phase ht)

/-! ### The run to the command's end -/

theorem run_succ_of_next (M : Host.Core) {s t : M.State} (hs : M.step s = .next t) (k : Nat) :
    M.run (k + 1) s = M.run k t := by
  rw [Host.Core.run, hs]

theorem run_succ_of_fault (M : Host.Core) {s : M.State} {f : M.Fault} (hs : M.step s = .fault f) (k : Nat) :
    M.run (k + 1) s = .fault f := by
  rw [Host.Core.run, hs]

/-- R370: by as many steps as the bound says the engine has been IDLE, or a step has faulted. -/
theorem run_reaches_idle (h : EndsWithin n s) :
    ∃ k, k ≤ n ∧ ((∃ t : State, Host.Core.run Sys2Proof.core k s = .next t ∧ t.phase = .idle)
      ∨ ∃ f : Fault, Host.Core.run Sys2Proof.core k s = .fault f) := by
  induction n generalizing s with
  | zero => exact ⟨0, Nat.le_refl 0, .inl ⟨s, rfl, idle_of_endsWithin_zero h⟩⟩
  | succ n ih =>
    cases hp : s.phase with
    | idle => exact ⟨0, Nat.zero_le _, .inl ⟨s, rfl, hp⟩⟩
    | running r =>
      have hb : s.busy = true := by simp [State.busy, hp]
      rcases step_next_or_fault s with ⟨t, hs⟩ | ⟨a, -, -, -, -, hs, -⟩
      · obtain ⟨k, hk, hend⟩ := ih (step_endsWithin hb h hs)
        refine ⟨k + 1, Nat.succ_le_succ hk, ?_⟩
        rw [run_succ_of_next Sys2Proof.core hs]
        exact hend
      · exact ⟨1, Nat.le_add_left 1 n, .inr ⟨_, run_succ_of_fault Sys2Proof.core hs 0⟩⟩

/-- Settles O12: a running command has fewer than `latency + 1` host turns left. -/
theorem runningCommandEndsWithinItsLatency : Obligations.RunningCommandEndsWithinItsLatency := by
  intro s r hp
  refine run_reaches_idle fun r' hr' => ?_
  obtain rfl : r = r' := Phase.running.inj (hp.symm.trans hr')
  exact Nat.lt_succ_self r.latency

end Sys2Proof.Proofs
end

section
/-! PROOFS. The two resets (R361, R362): the registers they leave, and what becomes of system memory and of a command
they abort. -/

namespace Sys2Proof.Proofs

open Sys2Proof.Machine Sys2Proof.Claims

variable {s : State}

/-! ### The registers after a reset (R361 (a), R362) -/

/-- R33: a register at its reset value, as the host reads it. -/
theorem readReg_clearRegs (h : s.phase = .idle) (r : Reg) :
    s.clearRegs.readReg r = if r = .id then 0x48535131 else 0 := by
  cases r with
  | id | ctrl | cmd | irqEn | result0 | result1 => rfl
  | errInfo => simp [State.readReg, State.errInfoRead, h]
  | status => simp [State.readReg, State.statusWord, State.busy, h, Status.zero, word]
  | param p => cases p <;> rfl

/-- R44: with every flag and every enable 0 the interrupt line is 0. -/
theorem irq_clearRegs (s : State) : s.clearRegs.irq = false := rfl

/-- R361: right after power-on every register already stands at its reset value. -/
theorem clearRegs_reset : State.reset.clearRegs = State.reset := rfl

theorem readReg_reset (r : Reg) : State.reset.readReg r = if r = .id then 0x48535131 else 0 := by
  rw [← clearRegs_reset]
  exact readReg_clearRegs rfl r

/-- A power-on reset leaves the registers that a soft reset leaves: the internal RAMs are no part of them. -/
theorem readReg_powerOnReset (s : State) (r : Reg) : s.powerOnReset.readReg r = s.softReset.readReg r := by
  cases r <;> rfl

/-- R362: a write of 1 to CTRL.SRESET. -/
theorem busWrite_sreset (s : State) {v : Word} (hv : v.getLsbD 0 = true) :
    s.busWrite (s.plat.regBase + 0x004) 4 v = s.softReset := by
  have hbit : bitSet v 0 = true := hv
  calc s.busWrite (s.plat.regBase + Reg.ctrl.offset) 4 v
      = s.writeReg .ctrl v := busWrite_offset s .ctrl v
    _ = s.softReset := if_pos hbit

/-- Settles O20: the registers of `State.reset` are at their reset values. -/
theorem resetLeavesRegistersZero : Obligations.ResetLeavesRegistersZero :=
  ⟨readReg_reset, rfl, rfl⟩

/-! ### The command a reset aborts (R362, log 11) -/

/-- With the engine IDLE there is no command to abort. -/
theorem abort_of_idle (h : s.phase = .idle) : s.abort = s := by simp [State.abort, h]

theorem softReset_of_idle (h : s.phase = .idle) : s.softReset = s.clearRegs := by rw [State.softReset, abort_of_idle h]

theorem powerOnReset_of_idle (h : s.phase = .idle) :
    s.powerOnReset =
      { s.clearRegs with pal := [], rotStart := [], rotLen := [], rotPhase := [], epoch := s.epoch + 1 } := by
  rw [State.powerOnReset, abort_of_idle h]

/-- R362: the working state of a command that a reset aborts, which stops once its quota of writes is used up. -/
def abortWork (s : State) : Work := { s.work (some (Config.abortPrefix s.draws)) with draws := s.draws + 1 }

/-- R362: the memory after an abort is what the cut pseudocode left, when the host contests no byte. -/
theorem abort_mem {r : Running} {i : Instr} (hp : s.phase = .running r) (hc : r.contested = [])
    (hd : decodeWord r.cmd = .ok i) : s.abort.mem = (workLeft (body i s.view (abortWork s))).mem := by
  simp only [State.abort, hp, hc, hd, State.settle]
  split
  next hb =>
    rw [abortWork, hb]
    rfl
  next hb =>
    rw [abortWork, hb]
    rfl

/-- Settles O21: the abort leaves the engine IDLE, and of an IDLE block it is the block itself. -/
theorem softResetClearsTheRegisters : Obligations.SoftResetClearsTheRegisters := by
  intro s v hv t
  have ht : t = s.softReset := busWrite_sreset s hv
  rw [ht]
  refine ⟨readReg_clearRegs (abort_phase s), abort_phase s, irq_clearRegs s.abort, fun hidle => ?_⟩
  rw [softReset_of_idle hidle]
  exact ⟨rfl, rfl, rfl, rfl, rfl⟩

/-- Settles O22: the cut pseudocode keeps the bytes outside the command's regions, and the reset of the registers writes
no memory. -/
theorem softResetLeavesOtherMemory : Obligations.SoftResetLeavesOtherMemory := by
  intro s r i v hv hp hc hd a ha
  have hsnap : s.snap = r.snap := by rw [State.snap, hp]
  have hcontested : s.view.contested = [] := by rw [State.view_contested, State.contested, hp, ← hc]
  have hkept := body_memKept i hcontested (w := abortWork s) rfl
  rw [busWrite_sreset s hv]
  show s.abort.mem.read a = s.mem.read a
  rw [abort_mem hp hc hd]
  refine hkept a (Bool.eq_false_iff.1 ?_)
  rw [State.view_snap, hsnap]
  exact ha

/-! ### Power-on reset (R360, R361) -/

/-- Settles O23: the turn is the platform's, and of an IDLE block the reset aborts nothing. -/
theorem powerOnResetKeepsSystemMemory : Obligations.PowerOnResetKeepsSystemMemory := by
  intro s rest hidle hin
  have hturn : hostsTurn s := by simp [hostsTurn, hidle]
  have hidle' : (onHostTurn s rest).phase = .idle := by simp [onHostTurn, hidle]
  refine ⟨(onHostTurn s rest).powerOnReset, step_eq_input hturn hin, ?_, ?_, abort_phase _, fun r => ?_⟩
  · rw [powerOnReset_of_idle hidle']
    rfl
  · rw [powerOnReset_of_idle hidle']
    rfl
  · calc (onHostTurn s rest).powerOnReset.readReg r
        = (onHostTurn s rest).softReset.readReg r := readReg_powerOnReset _ r
      _ = if r = .id then 0x48535131 else 0 := readReg_clearRegs (abort_phase _) r
      _ = State.reset.readReg r := (readReg_reset r).symm

/-- The OPEN parameters of `State.reset` are cut to their legal ranges (log 8). -/
theorem platformFree_wf : Platform.free.wf := by
  have hmem := Config.memTop.isLt
  refine ⟨Nat.le_add_left 1 _, ?_, Nat.mul_mod_right 256 _⟩
  show Config.memTop.toNat + 1 ≤ 2 ^ 32
  omega

/-- Settles O24: memory and the RAM tables list nothing, and the registers are 0. -/
theorem resetMeetsTheInvariant : Obligations.ResetMeetsTheInvariant := by
  have hstored : StateStored State.reset :=
    ⟨⟨⟨.nil, fun _ hc => absurd hc List.not_mem_nil⟩, fun _ hc => absurd hc List.not_mem_nil⟩,
      tableSorted_keysBelow_nil 512, tableSorted_keysBelow_nil 99, tableSorted_keysBelow_nil 99,
      tableSorted_keysBelow_nil 99⟩
  exact inv_iff.2 ⟨platformFree_wf, hstored, paramsWf_zero, statusWf_zero, phaseInv_of_idle rfl⟩

end Sys2Proof.Proofs
end

section
/-! PROOFS. The lerp of one channel (R185): truncating division never overshoots, so nothing is cut off. -/

namespace Sys2Proof.Proofs

open Sys2Proof.Machine Sys2Proof.Claims

/-- R185: truncating division by a positive number moves toward 0 and stops there at the latest. -/
theorem tdiv_between (z : Int) {d : Int} (hd : 0 < d) : min z 0 ≤ z.tdiv d ∧ z.tdiv d ≤ max z 0 := by
  rcases Int.le_total 0 z with hz | hz
  · have hlow := Int.tdiv_nonneg hz hd.le
    have hhigh := Int.tdiv_le_self d hz
    omega
  · have hneg : 0 ≤ -z := Int.neg_nonneg_of_nonpos hz
    have hlow := Int.tdiv_nonneg hneg hd.le
    have hhigh := Int.tdiv_le_self d hneg
    rw [Int.neg_tdiv] at hlow hhigh
    omega

/-- A byte made of an integer in its range is that integer. -/
theorem ofInt_byte_toNat {n : Int} (h0 : 0 ≤ n) (h1 : n < 256) : ((BitVec.ofInt 8 n).toNat : Int) = n := by
  rw [BitVec.toNat_ofInt]
  omega

/-- R185: the lerp of one channel is the exact quotient, for the quotient lies between the operands. -/
theorem lerpChannel_toNat (a b : Byte) {d : Int} (hd : 0 < d) :
    ((lerpChannel a b d).toNat : Int) = ((b.toNat : Int) - a.toNat).tdiv d + a.toNat := by
  obtain ⟨hlow, hhigh⟩ := tdiv_between ((b.toNat : Int) - a.toNat) hd
  have ha := a.isLt
  have hb := b.isLt
  exact ofInt_byte_toNat (by omega) (by omega)

/-- R185: dividing by 1 gives the whole difference. -/
theorem lerpChannel_one (a b : Byte) : lerpChannel a b 1 = b := by
  have hexact := lerpChannel_toNat a b Int.one_pos
  rw [Int.tdiv_one] at hexact
  apply BitVec.eq_of_toNat_eq
  omega

/-- Settles O41: the exact lerp is off its first operand by a part of the operands' difference. -/
theorem lerpStaysBetweenItsOperands : Obligations.LerpStaysBetweenItsOperands := by
  intro a b d hd
  have hexact := lerpChannel_toNat a b hd
  obtain ⟨hlow, hhigh⟩ := tdiv_between ((b.toNat : Int) - a.toNat) hd
  exact ⟨hexact, by omega, by omega, lerpChannel_one a b⟩

end Sys2Proof.Proofs
end
